-- ==== Sys2Proof/Word.lean ====
section
/-!
DEFINITION. The word types of the hardware and their plainest arithmetic
(00_scope.md rules R8 to R10, R12; 30_encoding.md rules R90, R92).
-/

namespace Sys2Proof

/-- One 8-bit stream unit, or one byte of a stream buffer (20_memory.md R71). -/
abbrev Byte := BitVec 8

/-- A 32-bit register or the command word `W` (30_encoding.md R92). -/
abbrev Word := BitVec 32

/-- A 64-bit register, the data word `D` or the result word `R` (30_encoding.md R90). -/
abbrev DWord := BitVec 64

/-- A value of the numeric format `F` under `NUM = Binary32`: its IEEE 754 encoding
(10_state.md R26). -/
abbrev F32 := BitVec 32

end Sys2Proof
end

