-- ==== Sys2Proof/Syntax.lean ====
section
/-!
DEFINITION. The commands of the opcode map (30_encoding.md rule R94), one constructor per row, each
with the operands that rule R95 assembles, and the units that run them (rule R93).
-/

namespace Sys2Proof

/-- The two units of the core (00_scope.md R1). -/
inductive UnitId where
  /-- the Timing Recovery Loop, `UNIT = 0x1` -/
  | trl
  /-- the Access-Code Correlator, `UNIT = 0x2` -/
  | acc
deriving DecidableEq, Repr

/-- What the host pushes to the command port: one word `W` and one data word `D`
(30_encoding.md R90). `D` has 64 bits; under `NUM = Real` it also carries a real number (10_state.md
R26), so its type is an argument. -/
structure CommandOf (D : Type) where
  w : Word
  d : D
deriving DecidableEq, Repr

/-- A command of this machine, whose data word is its 64 bits. -/
abbrev Command := CommandOf DWord

/-- The commands (30_encoding.md R94). A field's width is its operand's width (R95), so every term
of this type is a command that can be encoded. -/
inductive Instr where
  /-- `TRL.RESET` (41_timing_recovery.md R121) -/
  | trlReset
  /-- `TRL.CONFIG` (R122, R123) -/
  | trlConfig
  /-- `TRL.FORECAST`, `n = D[31:0]` (R125) -/
  | trlForecast (n : Word)
  /-- `TRL.PROCESS` (R130 to R134) -/
  | trlProcess
  /-- `TRL.CSRR` (43_csr_access.md R230) -/
  | trlCsrr (csr : BitVec 12)
  /-- `TRL.CSRW` (43_csr_access.md R231) -/
  | trlCsrw (csr : BitVec 12) (d : DWord)
  /-- `ACC.RESET` (42_access_code_correlator.md R181) -/
  | accReset
  /-- `ACC.CONFIG` (R182) -/
  | accConfig
  /-- `ACC.SET_CODE` (R183) -/
  | accSetCode
  /-- `ACC.SET_THRESHOLD`, the threshold is `D[31:0]` (R184) -/
  | accSetThreshold (t : Word)
  /-- `ACC.SET_DETECT_INV`, the enable is `D[0]` (R185) -/
  | accSetDetectInv (b : Bool)
  /-- `ACC.PROCESS` (R186) -/
  | accProcess
  /-- `ACC.CSRR` (43_csr_access.md R230) -/
  | accCsrr (csr : BitVec 12)
  /-- `ACC.CSRW` (43_csr_access.md R231) -/
  | accCsrw (csr : BitVec 12) (d : DWord)
deriving DecidableEq, Repr

/-- The unit that executes a command (30_encoding.md R93). -/
def Instr.unit : Instr → UnitId
  | .trlReset => .trl
  | .trlConfig => .trl
  | .trlForecast _ => .trl
  | .trlProcess => .trl
  | .trlCsrr _ => .trl
  | .trlCsrw _ _ => .trl
  | .accReset => .acc
  | .accConfig => .acc
  | .accSetCode => .acc
  | .accSetThreshold _ => .acc
  | .accSetDetectInv _ => .acc
  | .accProcess => .acc
  | .accCsrr _ => .acc
  | .accCsrw _ _ => .acc

end Sys2Proof
end

