-- ==== Sys2Proof/WellFormed.lean ====
section
/-!
DEFINITION. Well-formed commands: the four checks of 30_encoding.md rule R96 on the command word,
written on its number, apart from the decoder's bit fields. (Every term of `Instr` is well formed:
its fields have the widths of rule R95. What can be ill formed is a word.)
-/

namespace Sys2Proof

/-- `UNIT` is 0x1 or 0x2 (R92, R96). -/
def CommandOf.unitOk {D : Type} (c : CommandOf D) : Bool :=
  c.w.toNat / 2 ^ 28 == 1 || c.w.toNat / 2 ^ 28 == 2

/-- `OP` is not reserved for the unit: 0x0 to 0x5 for TRL, 0x0 to 0x7 for ACC (R94, R96). -/
def CommandOf.opOk {D : Type} (c : CommandOf D) : Bool :=
  if c.w.toNat / 2 ^ 28 == 1 then c.w.toNat / 2 ^ 24 % 16 ≤ 5 else c.w.toNat / 2 ^ 24 % 16 ≤ 7

/-- The `ZERO` field is 0 (R92, R96). -/
def CommandOf.zeroOk {D : Type} (c : CommandOf D) : Bool :=
  c.w.toNat % 2 ^ 12 == 0

/-- The `CSR` field is 0 but for the four CSR operations, whose top bytes are 0x14, 0x15, 0x26 and
0x27 (R92, R94, R96). -/
def CommandOf.csrOk {D : Type} (c : CommandOf D) : Bool :=
  [0x14, 0x15, 0x26, 0x27].contains (c.w.toNat / 2 ^ 24) || c.w.toNat / 2 ^ 12 % 2 ^ 12 == 0

/-- A well-formed command: one that rule R96 does not turn away. Every value of `D` is allowed. -/
def CommandOf.wellFormed {D : Type} (c : CommandOf D) : Bool :=
  c.unitOk && c.opOk && c.zeroOk && c.csrOk

end Sys2Proof
end

