-- ==== Sys2Proof/Decode.lean ====
section
/-!
DEFINITION. Decoding of `(W, D)` in the order of 30_encoding.md rule R96, total on every pair, and
the encoder of rules R94 and R95.
-/

namespace Sys2Proof

/-- What rule R96 makes of a pair `(W, D)`. -/
inductive Decoded where
  /-- a command of the opcode map -/
  | instr (i : Instr)
  /-- illegal, with a valid `UNIT`: `ILLEGAL_CMD` is raised in that unit -/
  | illegal (u : UnitId)
  /-- `UNIT` is neither 0x1 nor 0x2: only a response (60_exceptions.md R254) -/
  | badUnit
deriving DecidableEq, Repr

/-- `W[31:28]` (30_encoding.md R92). -/
def unitField (w : Word) : BitVec 4 := w.extractLsb' 28 4

/-- `W[27:24]` (R92). -/
def opField (w : Word) : BitVec 4 := w.extractLsb' 24 4

/-- `W[23:12]` (R92, R95). -/
def csrField (w : Word) : BitVec 12 := w.extractLsb' 12 12

/-- `W[11:0]` (R92). -/
def zeroField (w : Word) : BitVec 12 := w.extractLsb' 0 12

/-- `D[31:0]`, the operand of `TRL.FORECAST` and `ACC.SET_THRESHOLD` (R95). -/
def dataLow (d : DWord) : Word := d.extractLsb' 0 32

/-- `D[0]`, the operand of `ACC.SET_DETECT_INV` (R95). -/
def dataBit0 (d : DWord) : Bool := d.getLsbD 0

/-- A command of the unit with no CSR number: legal only with a zero `CSR` field (R96). -/
def plainCommand (u : UnitId) (csr : BitVec 12) (i : Instr) : Decoded :=
  if csr = 0#12 then .instr i else .illegal u

/-- The commands of unit TRL by `OP`, once `ZERO` is 0 (R94). -/
def decodeTrl (op : BitVec 4) (csr : BitVec 12) (d : DWord) : Decoded :=
  match op.toNat with
  | 0x0 => plainCommand .trl csr .trlReset
  | 0x1 => plainCommand .trl csr .trlConfig
  | 0x2 => plainCommand .trl csr (.trlForecast (dataLow d))
  | 0x3 => plainCommand .trl csr .trlProcess
  | 0x4 => .instr (.trlCsrr csr)
  | 0x5 => .instr (.trlCsrw csr d)
  | _ => .illegal .trl

/-- The commands of unit ACC by `OP`, once `ZERO` is 0 (R94). -/
def decodeAcc (op : BitVec 4) (csr : BitVec 12) (d : DWord) : Decoded :=
  match op.toNat with
  | 0x0 => plainCommand .acc csr .accReset
  | 0x1 => plainCommand .acc csr .accConfig
  | 0x2 => plainCommand .acc csr .accSetCode
  | 0x3 => plainCommand .acc csr (.accSetThreshold (dataLow d))
  | 0x4 => plainCommand .acc csr (.accSetDetectInv (dataBit0 d))
  | 0x5 => plainCommand .acc csr .accProcess
  | 0x6 => .instr (.accCsrr csr)
  | 0x7 => .instr (.accCsrw csr d)
  | _ => .illegal .acc

/-- Decoding of a command (R96). A reserved `OP`, a nonzero `ZERO` and a nonzero `CSR` on a non-CSR
operation give the same answer, so their order does not show (60_exceptions.md R255). -/
def decode (c : Command) : Decoded :=
  if unitField c.w = 0x1#4 then
    if zeroField c.w = 0#12 then decodeTrl (opField c.w) (csrField c.w) c.d else .illegal .trl
  else if unitField c.w = 0x2#4 then
    if zeroField c.w = 0#12 then decodeAcc (opField c.w) (csrField c.w) c.d else .illegal .acc
  else .badUnit

/-- The format `C` word of unit, operation and CSR number: `uuuu oooo cccc cccc cccc 0000 0000 0000`
(R92). -/
def formatC (unit op : BitVec 4) (csr : BitVec 12) : Word :=
  unit ++ op ++ csr ++ 0#12

/-- The command of an instruction (R94, R95). The bits of `D` that a command ignores are written 0
(log entry 18). -/
def encode : Instr → Command
  | .trlReset => ⟨formatC 0x1#4 0x0#4 0#12, 0#64⟩
  | .trlConfig => ⟨formatC 0x1#4 0x1#4 0#12, 0#64⟩
  | .trlForecast n => ⟨formatC 0x1#4 0x2#4 0#12, n.setWidth 64⟩
  | .trlProcess => ⟨formatC 0x1#4 0x3#4 0#12, 0#64⟩
  | .trlCsrr csr => ⟨formatC 0x1#4 0x4#4 csr, 0#64⟩
  | .trlCsrw csr d => ⟨formatC 0x1#4 0x5#4 csr, d⟩
  | .accReset => ⟨formatC 0x2#4 0x0#4 0#12, 0#64⟩
  | .accConfig => ⟨formatC 0x2#4 0x1#4 0#12, 0#64⟩
  | .accSetCode => ⟨formatC 0x2#4 0x2#4 0#12, 0#64⟩
  | .accSetThreshold t => ⟨formatC 0x2#4 0x3#4 0#12, t.setWidth 64⟩
  | .accSetDetectInv b => ⟨formatC 0x2#4 0x4#4 0#12, (BitVec.ofBool b).setWidth 64⟩
  | .accProcess => ⟨formatC 0x2#4 0x5#4 0#12, 0#64⟩
  | .accCsrr csr => ⟨formatC 0x2#4 0x6#4 csr, 0#64⟩
  | .accCsrw csr d => ⟨formatC 0x2#4 0x7#4 csr, d⟩

/-- The pair `(W, D)` of an instruction given as one number whose low `nbits` bits count: `W` is bits
31 to 0 and `D` follows as bits 95 to 32; every bit from `nbits` up is 0. -/
def commandOfBits (nbits w : Nat) : Command :=
  ⟨BitVec.ofNat 32 (w % 2 ^ nbits), BitVec.ofNat 64 (w % 2 ^ nbits / 2 ^ 32)⟩

/-- The instruction the decoder reads from an instruction given as one number. -/
def decodeTableWord (nbits w : Nat) : Option Instr :=
  match decode (commandOfBits nbits w) with
  | .instr i => some i
  | .illegal _ => none
  | .badUnit => none

end Sys2Proof
end

