-- ==== Sys2Proof/Config.lean ====
section
/-!
DEFINITION. The implementation parameters of 00_scope.md rule R7 that a model takes as arguments.
None of the opaque constants has a body, so nothing can be proved of their values beyond the range
their types give (log entries 2 and 3).
-/

namespace Sys2Proof

/-- The parameters of the interpolator (00_scope.md R7) over a numeric format `F`. -/
structure Params (F : Type) where
  /-- `NTAPS`, the number of taps. -/
  ntaps : Nat
  /-- `NSTEPS`: the filter bank has `NSTEPS + 1` phases. -/
  nsteps : Nat
  /-- `INTERP_TAPS`: the coefficient `H[p][k]`. -/
  taps : Nat → Nat → F
  /-- `INTERP_DOT`: the sum of `H[p][k]·x[k]` over the window, in the numeric format. -/
  dot : List F → List F → F

/-- How far `NTAPS` lies above its least value 4. DESIGN CHOICE (safe): the spec gives the range
4 to 8 and the default 8, and the model is open over the range (log entry 2). -/
opaque Config.ntapsAboveFour : Fin 5

/-- How far `NSTEPS` lies above its least value 1. Its CSR is 32 bits wide. DESIGN CHOICE (safe):
the spec gives 'integer ≥ 1' and the default 128 (log entry 2). -/
opaque Config.nstepsAboveOne : Fin 4294967295

/-- `INTERP_TAPS`, OPEN in the spec (00_scope.md R7, 92_eei_decisions.md D8; log entry 3). -/
opaque Config.interpTaps : Nat → Nat → F32

/-- `INTERP_DOT` under `NUM = Binary32`, OPEN in the spec (00_scope.md R7; log entry 3). -/
opaque Config.interpDot : List F32 → List F32 → F32

/-- `NTAPS`, an integer from 4 to 8 (00_scope.md R7). -/
def Config.ntaps : Nat := 4 + Config.ntapsAboveFour.val

/-- `NSTEPS`, an integer of at least 1 that fits its CSR (00_scope.md R7, 10_state.md R23). -/
def Config.nsteps : Nat := 1 + Config.nstepsAboveOne.val

/-- The parameters of this hardware, with `NUM = Binary32` (log entry 1). -/
def Config.params : Params F32 :=
  { ntaps := Config.ntaps, nsteps := Config.nsteps,
    taps := Config.interpTaps, dot := Config.interpDot }

end Sys2Proof
end

