-- ==== Sys2Proof/Machine/State.lean ====
section
/-!
DEFINITION. The state of the machine as plain data: the two units (10_state.md rules R22, R23, R27,
R28), the stream buffers (20_memory.md rule R71), the response of the last command (30_encoding.md
rule R90) and what the host does next (log entry 4); its value after reset
(70_reset_and_hazards.md rule R290); and the reasons a step can stop.
-/

namespace Sys2Proof.Machine

/-- `T.MODE` (10_state.md R22). -/
inductive TrlMode where
  | unconfigured
  | ready
  | faulted
deriving DecidableEq, Repr

/-- `A.MODE` (10_state.md R27). -/
inductive AccMode where
  | unconfigured
  | ready
deriving DecidableEq, Repr

/-- The completion codes (60_exceptions.md R250). Codes 5 to 255 are never returned. -/
inductive Code where
  /-- 0: the command did what its rule says -/
  | ok
  /-- 1: the word or the CSR number is not a legal command of the unit -/
  | illegalCmd
  /-- 2: a `CONFIG` or `ACC.SET_CODE` rejected its parameters -/
  | invalidParam
  /-- 3: the unit is not configured, or is faulted -/
  | notReady
  /-- 4: a symbol step met a non-finite value, an advance out of range or a rate not above 0 -/
  | numericFault
deriving DecidableEq, Repr

/-- The answer to a command: `(code, R)` (30_encoding.md R90, R91). `R` is a data word, as `D` is. -/
structure ResponseOf (D : Type) where
  code : Code
  result : D
deriving DecidableEq, Repr

/-- The answer of this machine, whose data words are their 64 bits. -/
abbrev Response := ResponseOf DWord

/-- Unit TRL: the fields of 10_state.md R22 and the staging, control, status, per-call and result
CSRs of R23. `F` is the numeric format (00_scope.md R12). -/
structure Trl (F : Type) where
  mu : F
  omega : F
  omegaMid : F
  omegaLim : F
  lastSample : F
  gainMu : F
  gainOmega : F
  relLimit : F
  passCount : Word
  skip : DWord
  mode : TrlMode
  symbolCount : DWord
  underflowCount : DWord
  status : Word
  irqEn : Word
  ctrl : Word
  lastCode : Code
  cfgOmega0 : F
  cfgGainMu : F
  cfgGainOmega : F
  cfgRelLimit : F
  cfgMu0 : F
  inCount : Word
  capSym : Word
  capPass : Word
  capOmega : Word
  capMu : Word
  consumed : Word
  prodSym : Word
  prodPass : Word
  prodOmega : Word
  prodMu : Word
deriving DecidableEq, Repr

/-- Unit ACC: the fields of 10_state.md R27 and the staging, status, per-call and result CSRs of
R28. `invert` and `detectInv` are one bit each: false is 0. -/
structure Acc where
  dataReg : DWord
  flagReg : DWord
  invertReg : DWord
  accessCode : DWord
  invAccessCode : DWord
  mask : DWord
  flagBit : DWord
  len : BitVec 7
  threshold : Word
  invert : Bool
  detectInv : Bool
  mode : AccMode
  bitCount : DWord
  ambigCount : DWord
  lastAmbigBit : DWord
  status : Word
  irqEn : Word
  lastCode : Code
  cfgThreshold : Word
  cfgDetectInv : Bool
  codeLen : Word
  codeStr : Vector Byte 64
  inCount : Word
  capOut : Word
  consumed : Word
  produced : Word
deriving DecidableEq, Repr

/-- The bytes of one stream buffer: addresses strictly rising, no entry equal to what an unlisted
address reads as (`Memory.wf`). -/
abbrev Memory := List Host.Cell

/-- The stream buffers of unit TRL, of values of `F` (20_memory.md R71). -/
inductive TrlBuffer where
  | trlIn
  | trlSym
  | trlPass
  | trlOmega
  | trlMu
deriving DecidableEq, Repr

/-- The stream buffers of unit ACC, of 8-bit units (20_memory.md R71). -/
inductive AccBuffer where
  | accIn
  | accOut
deriving DecidableEq, Repr

/-- The stream buffers (20_memory.md R71). -/
inductive BufferId where
  | trl (b : TrlBuffer)
  | acc (b : AccBuffer)
deriving DecidableEq, Repr

/-- The contents of the stream buffers, each a space of its own (20_memory.md R70, R86). `S` is what
holds a buffer of values of `F`: bytes under `NUM = Binary32`. -/
structure BuffersOf (S : Type) where
  trlIn : S
  trlSym : S
  trlPass : S
  trlOmega : S
  trlMu : S
  accIn : Memory
  accOut : Memory
deriving DecidableEq, Repr

/-- The buffers of this machine. -/
abbrev Buffers := BuffersOf Memory

/-- What the host does between commands (00_scope.md R16, 20_memory.md R81,
70_reset_and_hazards.md R290; log entries 4 and 12). -/
inductive HostInputOf (D : Type) where
  /-- it issues a command (30_encoding.md R90) -/
  | issue (c : CommandOf D)
  /-- it writes element `i` of a buffer: the value of `F` that `v` carries (10_state.md R26), or its low
  byte in a buffer of 8-bit units -/
  | fill (b : BufferId) (i : Nat) (v : D)
  /-- it asserts power-on reset (70_reset_and_hazards.md R290) -/
  | powerOn
deriving DecidableEq, Repr

/-- What the host of this machine does. -/
abbrev HostInput := HostInputOf DWord

/-- Why a step can stop with a fault. -/
inductive Fault where
  /-- A unit accessed element `index` of a buffer at or past the buffer's length: the spec says no
  such element exists (20_memory.md R72). Raised by the element accesses of the two `PROCESS`
  commands. Safe: the guards of 41_timing_recovery.md R131 and 42_access_code_correlator.md R186
  keep every access inside, so no step of the model raises it (log entry 8). -/
  | bufferOverrun (b : BufferId) (index : Nat)
deriving DecidableEq, Repr

/-- Why a step can be refused. -/
inductive Refusal where
  /-- An instruction with no meaning yet, by its mnemonic; raised by `exec`'s refused arms only, of
  which there is none. Safe: the model stops where the hardware goes on. -/
  | notModelled (mnemonic : String)
deriving DecidableEq, Repr

/-- The machine. Its arguments are what the parameter `NUM` fixes (00_scope.md R7, R12; 10_state.md
R26): the values `F` of unit TRL, what holds a buffer of them, and the data words of the port. -/
structure State.Of (F S D : Type) where
  /-- unit TRL -/
  trl : Trl F
  /-- unit ACC -/
  acc : Acc
  /-- the host's stream buffers -/
  bufs : BuffersOf S
  /-- the answer to the last command, none before the first (log entry 5) -/
  response : Option (ResponseOf D)
  /-- what the host does next, oldest first (log entry 4) -/
  inputs : List (HostInputOf D)
deriving DecidableEq, Repr

/-- This machine's state, with the default `NUM = Binary32` (00_scope.md R7; log entry 1). -/
abbrev State := State.Of F32 Memory DWord

/-- Unit TRL after reset (70_reset_and_hazards.md R290), `zero` being +0.0 of the format. -/
def Trl.reset {F : Type} (zero : F) : Trl F :=
  { mu := zero, omega := zero, omegaMid := zero, omegaLim := zero, lastSample := zero,
    gainMu := zero, gainOmega := zero, relLimit := zero,
    passCount := 0, skip := 0, mode := .unconfigured, symbolCount := 0, underflowCount := 0,
    status := 0, irqEn := 0, ctrl := 0, lastCode := .ok,
    cfgOmega0 := zero, cfgGainMu := zero, cfgGainOmega := zero, cfgRelLimit := zero, cfgMu0 := zero,
    inCount := 0, capSym := 0, capPass := 0, capOmega := 0, capMu := 0,
    consumed := 0, prodSym := 0, prodPass := 0, prodOmega := 0, prodMu := 0 }

/-- Unit ACC after reset (70_reset_and_hazards.md R290). -/
def Acc.reset : Acc :=
  { dataReg := 0, flagReg := 0, invertReg := 0,
    accessCode := 0, invAccessCode := 0xFFFFFFFFFFFFFFFF#64, mask := 0,
    flagBit := 0x0000000000000001#64, len := 0, threshold := 0, invert := false, detectInv := false,
    mode := .unconfigured, bitCount := 0, ambigCount := 0, lastAmbigBit := 0,
    status := 0, irqEn := 0, lastCode := .ok,
    cfgThreshold := 0, cfgDetectInv := false, codeLen := 0, codeStr := Vector.replicate 64 0,
    inCount := 0, capOut := 0, consumed := 0, produced := 0 }

/-- Buffers that the host has not filled (log entry 6), `empty` being such a buffer of values of `F`. -/
def BuffersOf.unfilled {S : Type} (empty : S) : BuffersOf S :=
  { trlIn := empty, trlSym := empty, trlPass := empty, trlOmega := empty, trlMu := empty,
    accIn := [], accOut := [] }

/-- The machine right after power-on reset (70_reset_and_hazards.md R290, R291): both units in their
reset state, waiting for the host's first command. There is no reset vector and no vector table
(60_exceptions.md R260): no field holds an address. -/
def State.reset : State :=
  { trl := Trl.reset 0x00000000#32, acc := Acc.reset, bufs := BuffersOf.unfilled [],
    response := none, inputs := [] }

end Sys2Proof.Machine
end

