-- ==== Sys2Proof/Machine/Memory.lean ====
section
/-!
DEFINITION. The contents of a stream buffer (20_memory.md rules R71 to R75): cells in canonical form, the
bytes and elements made of them, and the buffers by name.
-/

namespace Sys2Proof.Machine

/-- What address `a` of a sparse list reads as; `z` is what an unlisted address reads as. -/
def Cells.read {α : Type} (z : α) : List (Nat × α) → Nat → α
  | [], _ => z
  | (b, v) :: m, a => if a = b then v else Cells.read z m a

/-- Write one address, keeping the canonical form. -/
def Cells.write {α : Type} [DecidableEq α] (z : α) : List (Nat × α) → Nat → α → List (Nat × α)
  | [], a, v => if v = z then [] else [(a, v)]
  | (b, w) :: m, a, v =>
    if a < b then (if v = z then (b, w) :: m else (a, v) :: (b, w) :: m)
    else if a = b then (if v = z then m else (b, v) :: m)
    else (b, w) :: Cells.write z m a v

/-- The canonical form: addresses strictly rising, no entry equal to what an unlisted one reads as. -/
def Cells.wf {α : Type} [DecidableEq α] (z : α) : List (Nat × α) → Bool
  | [] => true
  | [(_, v)] => decide (v ≠ z)
  | (a, v) :: (b, w) :: m => decide (v ≠ z) && decide (a < b) && Cells.wf z ((b, w) :: m)

/-- What a byte that nothing has written reads as. DESIGN CHOICE, unsafe: the buffers are the
host's and the spec gives them no contents (log entry 6). -/
def Memory.unlisted : Byte := 0

/-- One byte of a buffer. -/
def Memory.read (m : Memory) (a : Nat) : Byte := Cells.read Memory.unlisted m a

/-- Write one byte, keeping the canonical form. -/
def Memory.write (m : Memory) (a : Nat) (v : Byte) : Memory := Cells.write Memory.unlisted m a v

/-- The canonical form of a buffer's bytes. -/
def Memory.wf (m : Memory) : Bool := Cells.wf Memory.unlisted m

/-- Element `i` of a buffer of `F` elements: four bytes, least significant at the lowest address
(20_memory.md R73; log entry 7). -/
def Memory.readF (m : Memory) (i : Nat) : F32 :=
  Memory.read m (4 * i + 3) ++ Memory.read m (4 * i + 2) ++ Memory.read m (4 * i + 1)
    ++ Memory.read m (4 * i)

/-- Write element `i` of a buffer of `F` elements. -/
def Memory.writeF (m : Memory) (i : Nat) (v : F32) : Memory :=
  Memory.write (Memory.write (Memory.write (Memory.write m
    (4 * i) (v.extractLsb' 0 8)) (4 * i + 1) (v.extractLsb' 8 8))
    (4 * i + 2) (v.extractLsb' 16 8)) (4 * i + 3) (v.extractLsb' 24 8)

section buffers
variable {S : Type}

/-- The contents of a buffer of unit TRL. -/
def BuffersOf.trlBuf (s : BuffersOf S) : TrlBuffer → S
  | .trlIn => s.trlIn
  | .trlSym => s.trlSym
  | .trlPass => s.trlPass
  | .trlOmega => s.trlOmega
  | .trlMu => s.trlMu

/-- The contents of a buffer of unit ACC. -/
def BuffersOf.accBuf (s : BuffersOf S) : AccBuffer → Memory
  | .accIn => s.accIn
  | .accOut => s.accOut

/-- Replace the contents of a buffer of unit TRL. -/
def BuffersOf.setTrlBuf (s : BuffersOf S) (b : TrlBuffer) (m : S) : BuffersOf S :=
  match b with
  | .trlIn => { s with trlIn := m }
  | .trlSym => { s with trlSym := m }
  | .trlPass => { s with trlPass := m }
  | .trlOmega => { s with trlOmega := m }
  | .trlMu => { s with trlMu := m }

/-- Replace the contents of a buffer of unit ACC. -/
def BuffersOf.setAccBuf (s : BuffersOf S) (b : AccBuffer) (m : Memory) : BuffersOf S :=
  match b with
  | .accIn => { s with accIn := m }
  | .accOut => { s with accOut := m }

end buffers

/-- The bytes of a buffer, under `NUM = Binary32`. -/
def BuffersOf.get (s : Buffers) : BufferId → Memory
  | .trl b => s.trlBuf b
  | .acc b => s.accBuf b

/-- The bytes one element of a buffer takes (20_memory.md R71): 4 for an `F` element under
`NUM = Binary32`, 1 for an 8-bit unit. -/
def BufferId.elemBytes : BufferId → Nat
  | .trl _ => 4
  | .acc _ => 1

/-- All buffers are in canonical form. -/
def BuffersOf.wf (s : Buffers) : Bool :=
  Memory.wf s.trlIn && Memory.wf s.trlSym && Memory.wf s.trlPass && Memory.wf s.trlOmega
    && Memory.wf s.trlMu && Memory.wf s.accIn && Memory.wf s.accOut

end Sys2Proof.Machine
end

