-- ==== Sys2Proof/Machine/Float.lean ====
section
/-!
DEFINITION. The primitives of 00_scope.md rule R12 under `NUM = Binary32`: IEEE 754 binary32, each
primitive rounding its exact result once, to nearest with ties to even, subnormals kept. The format
is PRESUMED by the spec itself (G1 of 93_implementation_defined.md; log entry 11).

A finite value is an integer count of units of 2^-149, the least positive subnormal.
-/

namespace Sys2Proof.Machine

/-- +0.0. -/
def f32Zero : F32 := 0x00000000#32

/-- 1.0. -/
def f32One : F32 := 0x3F800000#32

/-- -1.0. -/
def f32NegOne : F32 := 0xBF800000#32

/-- 0.5. -/
def f32Half : F32 := 0x3F000000#32

/-- The pattern of a NaN result. The spec states no pattern and none is observable: a step that
computes a NaN faults and commits nothing (41_timing_recovery.md R147; log entry 9). -/
def f32NaN : F32 := 0x7FC00000#32

/-- The sign bit. -/
def f32Sign (x : F32) : Bool := x.getLsbD 31

/-- The biased exponent. -/
def f32Exp (x : F32) : Nat := x.toNat / 2 ^ 23 % 256

/-- The fraction field. -/
def f32Frac (x : F32) : Nat := x.toNat % 2 ^ 23

/-- `isfinite` (00_scope.md R13). -/
def f32IsFinite (x : F32) : Bool := f32Exp x != 255

/-- Neither a number nor an infinity. -/
def f32IsNaN (x : F32) : Bool := f32Exp x == 255 && f32Frac x != 0

/-- The magnitude in units of 2^-149. An infinity counts as 2^277, above every finite magnitude. -/
def f32Mag (x : F32) : Nat :=
  if f32Exp x = 0 then f32Frac x else (2 ^ 23 + f32Frac x) * 2 ^ (f32Exp x - 1)

/-- The value in units of 2^-149. -/
def f32Units (x : F32) : Int :=
  if f32Sign x then -(f32Mag x : Int) else (f32Mag x : Int)

/-- How many low bits of `m` rounding drops, when `m / 2^d` units are rounded to 24 significant bits
and to no finer than one unit. -/
def f32Drop (m d : Nat) : Nat := max d (m.log2 - 23)

/-- `m / 2^s` rounded to the nearest integer, a tie to the even one. -/
def roundHalfEven (m s : Nat) : Nat :=
  let q := m / 2 ^ s
  let r := m % 2 ^ s
  if 2 * r > 2 ^ s ∨ (2 * r = 2 ^ s ∧ q % 2 = 1) then q + 1 else q

/-- The exponent and fraction fields of `m / 2^d` units rounded to nearest, ties to even; a rounded
magnitude past the largest finite one is an infinity. -/
def f32RoundMag (m d : Nat) : Nat :=
  min ((f32Drop m d - d) * 2 ^ 23 + roundHalfEven m (f32Drop m d)) 0x7F800000

/-- An encoding from its sign and its exponent and fraction fields. -/
def f32Pack (neg : Bool) (mag : Nat) : F32 :=
  BitVec.ofNat 32 (if neg then 2 ^ 31 + mag else mag)

/-- The value with its sign bit flipped. -/
def f32Neg (x : F32) : F32 := x ^^^ 0x80000000#32

/-- `fadd` (00_scope.md R12). An exact sum of 0 is -0 only when both operands are -0. -/
def f32Add (a b : F32) : F32 :=
  if f32IsNaN a || f32IsNaN b then f32NaN
  else if f32IsFinite a then
    if f32IsFinite b then
      let n := f32Units a + f32Units b
      if n = 0 then f32Pack (f32Sign a && f32Sign b) 0
      else f32Pack (decide (n < 0)) (f32RoundMag n.natAbs 0)
    else b
  else if f32IsFinite b then a
  else if f32Sign a = f32Sign b then a else f32NaN

/-- `fsub` (00_scope.md R12). -/
def f32Sub (a b : F32) : F32 := f32Add a (f32Neg b)

/-- `fmul` (00_scope.md R12). -/
def f32Mul (a b : F32) : F32 :=
  if f32IsNaN a || f32IsNaN b then f32NaN
  else if f32IsFinite a && f32IsFinite b then
    f32Pack (f32Sign a != f32Sign b) (f32RoundMag (f32Mag a * f32Mag b) 149)
  else if f32Mag a = 0 || f32Mag b = 0 then f32NaN
  else f32Pack (f32Sign a != f32Sign b) 0x7F800000

/-- `fabs` (00_scope.md R12): the sign bit cleared. -/
def f32Abs (x : F32) : F32 := x &&& 0x7FFFFFFF#32

/-- The largest integer not above a finite value. -/
def f32FloorInt (x : F32) : Int := f32Units x / 2 ^ 149

/-- `ffloor` (00_scope.md R12). A value that is not finite is returned as it is. A floor of 0 keeps
the sign of the operand (log entry 10). -/
def f32Floor (x : F32) : F32 :=
  if f32IsFinite x then
    if f32FloorInt x = 0 then f32Pack (f32Sign x) 0
    else f32Pack (decide (f32FloorInt x < 0)) (f32RoundMag ((f32FloorInt x).natAbs * 2 ^ 149) 0)
  else x

/-- `flt` (00_scope.md R12): false when either operand is a NaN. -/
def f32Lt (a b : F32) : Bool :=
  !f32IsNaN a && !f32IsNaN b && decide (f32Units a < f32Units b)

/-- `ceil(n·x)` of the exact product (41_timing_recovery.md R125). -/
def f32CeilMul (n : Nat) (x : F32) : Int := -(-((n : Int) * f32Units x) / 2 ^ 149)

/-- `rne_int(n·x)` of the exact product (00_scope.md R15). -/
def f32RneMul (n : Nat) (x : F32) : Int :=
  let q := (n : Int) * f32Units x / 2 ^ 149
  let r := (n : Int) * f32Units x % 2 ^ 149
  if 2 * r > 2 ^ 149 ∨ (2 * r = 2 ^ 149 ∧ q % 2 = 1) then q + 1 else q

/-- The branchless symmetric clip `0.5·(|d + lim| − |d − lim|)`, in the tree of
41_timing_recovery.md R144. -/
def f32Clip (d lim : F32) : F32 :=
  f32Mul f32Half (f32Sub (f32Abs (f32Add d lim)) (f32Abs (f32Sub d lim)))

end Sys2Proof.Machine
end

