-- ==== Sys2Proof/Machine/Numeric.lean ====
section
/-!
DEFINITION. The numeric format `F` as an argument (00_scope.md rules R7 and R12 to R15): the
primitives the datapath of unit TRL uses, for `NUM = Binary32` and, over any ordered field with a
floor (the reals, or the rationals for evaluation), for `NUM = Real` (log entry 1).
-/

namespace Sys2Proof.Machine

/-- The primitives of a numeric format (00_scope.md R12 to R15). -/
structure Num (F : Type) where
  /-- +0.0 -/
  zero : F
  /-- 1 -/
  one : F
  /-- -1 -/
  negOne : F
  fadd : F → F → F
  fsub : F → F → F
  fmul : F → F → F
  /-- `ffloor`, an integer as a value of `F` -/
  ffloor : F → F
  /-- the comparison `a < b`, false when either is a NaN -/
  flt : F → F → Bool
  isfinite : F → Bool
  /-- the clamp of 41_timing_recovery.md R144: `clip d lim` -/
  clip : F → F → F
  /-- the integer `floor(a)` -/
  floorInt : F → Int
  /-- `ceil(n·a)` of the exact product -/
  ceilMul : Nat → F → Int
  /-- `rne_int(n·a)` of the exact product (R15) -/
  rneMul : Nat → F → Int

/-- `NUM = Binary32`. -/
def binary32 : Num F32 :=
  { zero := f32Zero, one := f32One, negOne := f32NegOne,
    fadd := f32Add, fsub := f32Sub, fmul := f32Mul, ffloor := f32Floor,
    flt := f32Lt, isfinite := f32IsFinite, clip := f32Clip,
    floorInt := f32FloorInt, ceilMul := f32CeilMul, rneMul := f32RneMul }

/-- The integer nearest `r`, a tie to the even one, computed on the exact value (00_scope.md R15). -/
def rneExact {F : Type} [Field F] [LinearOrder F] [FloorRing F] (r : F) : Int :=
  if 2 * (r - (⌊r⌋ : Int)) > 1 ∨ (2 * (r - (⌊r⌋ : Int)) = 1 ∧ ⌊r⌋ % 2 = 1) then ⌊r⌋ + 1 else ⌊r⌋

/-- `NUM = Real`: every operation is exact and every value is finite (00_scope.md R12, R13); the
clamp is the `Real` line of 41_timing_recovery.md R144. -/
def exactNum (F : Type) [Field F] [LinearOrder F] [FloorRing F] : Num F :=
  { zero := 0, one := 1, negOne := -1,
    fadd := fun a b => a + b, fsub := fun a b => a - b, fmul := fun a b => a * b,
    ffloor := fun a => ((⌊a⌋ : Int) : F),
    flt := fun a b => decide (a < b), isfinite := fun _ => true,
    clip := fun d lim => min (max d (-lim)) lim,
    floorInt := fun a => ⌊a⌋,
    ceilMul := fun n a => ⌈(n : F) * a⌉,
    rneMul := fun n a => rneExact ((n : F) * a) }

/-- The sum of `H[p][k]·x[k]` over the window under `NUM = Real`: exact (41_timing_recovery.md R141). -/
def exactDot {F : Type} [Field F] (h x : List F) : F :=
  (List.zipWith (fun a b => a * b) h x).sum

/-- `sgn` (00_scope.md R14): `−1` if `flt(x, 0)` and `+1` otherwise. -/
def Num.sgn {F : Type} (K : Num F) (x : F) : F := if K.flt x K.zero then K.negOne else K.one

end Sys2Proof.Machine
end

