-- ==== Sys2Proof/Machine/Format.lean ====
section
/-!
DEFINITION. All that the parameter `NUM` fixes (00_scope.md rules R7 and R12): the primitives of the
numeric format, the elements of a buffer of its values (20_memory.md rules R71 and R73), and how a data
word of the port carries a value (10_state.md rule R26, 43_csr_access.md rule R234). One such argument
for `NUM = Binary32`, one for `NUM = Real`.
-/

namespace Sys2Proof.Machine

/-- What `NUM` fixes: values `F`, buffers `S` of them, data words `D`. -/
structure Format (F S D : Type) where
  /-- the primitives -/
  num : Num F
  /-- a buffer that the host has not filled (log entry 6) -/
  empty : S
  /-- element `i` of a buffer -/
  readElem : S → Nat → F
  /-- the buffer with element `i` replaced -/
  writeElem : S → Nat → F → S
  /-- the value of `F` a data word carries -/
  valueOf : D → F
  /-- the 64 bits of a data word -/
  bitsOf : D → DWord
  /-- the data word that carries a value of `F` -/
  ofValue : F → D
  /-- the data word of 64 bits -/
  ofBits : DWord → D

/-- `NUM = Binary32`: a data word is its 64 bits, and carries a value as its encoding in bits 31:0, with
bits 63:32 zero when read and ignored when written (10_state.md R26). -/
def binary32Format : Format F32 Memory DWord :=
  { num := binary32, empty := [], readElem := Memory.readF, writeElem := Memory.writeF,
    valueOf := fun d => d.extractLsb' 0 32, bitsOf := fun d => d,
    ofValue := fun v => v.setWidth 64, ofBits := fun d => d }

/-- A data word under `NUM = Real`: 64 bits and, 'abstractly', a number, which no bits encode
(10_state.md R26; log entry 21). -/
structure RealWord (F : Type) where
  bits : DWord
  value : F
deriving DecidableEq, Repr

/-- `NUM = Real`, over any ordered field with a floor (the reals, or the rationals for evaluation): a
buffer lists its elements that are not 0, and a data word carries a number beside its bits
(10_state.md R26, 43_csr_access.md R234; log entry 21). -/
def exactFormat (F : Type) [Field F] [LinearOrder F] [FloorRing F] :
    Format F (List (Nat × F)) (RealWord F) :=
  { num := exactNum F, empty := [], readElem := Cells.read 0, writeElem := Cells.write 0,
    valueOf := fun d => d.value, bitsOf := fun d => d.bits,
    ofValue := fun v => ⟨0, v⟩, ofBits := fun d => ⟨d, 0⟩ }

/-- The parameters of the interpolator under `NUM = Real`: `INTERP_TAPS` stays an argument and
`INTERP_DOT` is the exact sum (00_scope.md R7, 41_timing_recovery.md R141). -/
def exactParams {F : Type} [Field F] (taps : Nat → Nat → F) : Params F :=
  { ntaps := Config.ntaps, nsteps := Config.nsteps, taps := taps, dot := exactDot }

end Sys2Proof.Machine
end

