-- ==== Sys2Proof/Machine/Ops.lean ====
section
/-!
DEFINITION. The operations the commands share: how a command ends, with `OK` or by `raise E`
(60_exceptions.md rules R250 and R252; this machine's only exception entry, and it has no return,
R256 and R258; no vector table and no handler's address, R260), and the element accesses of the stream
buffers (20_memory.md rule R72). All of them are over any format `N` (00_scope.md rule R7).
-/

namespace Sys2Proof.Machine

variable {F S D : Type}

/-- Replace unit TRL. -/
def State.Of.setTrl (s : State.Of F S D) (t : Trl F) : State.Of F S D := { s with trl := t }

/-- Replace unit ACC. -/
def State.Of.setAcc (s : State.Of F S D) (a : Acc) : State.Of F S D := { s with acc := a }

/-- Replace the stream buffers. -/
def State.Of.setBufs (s : State.Of F S D) (b : BuffersOf S) : State.Of F S D := { s with bufs := b }

/-- Answer the host with `(code, R)` (30_encoding.md R90). -/
def State.Of.respond (s : State.Of F S D) (c : Code) (r : D) : State.Of F S D :=
  { s with response := some ⟨c, r⟩ }

/-- The number of a completion code (60_exceptions.md R250). -/
def Code.num : Code → BitVec 8
  | .ok => 0
  | .illegalCmd => 1
  | .invalidParam => 2
  | .notReady => 3
  | .numericFault => 4

/-- The `STATUS` bit that raising a code sets (60_exceptions.md R252, 10_state.md R24), as a mask. -/
def Code.statusMask : Code → Word
  | .ok => 0x0#32
  | .illegalCmd => 0x1#32
  | .invalidParam => 0x2#32
  | .notReady => 0x4#32
  | .numericFault => 0x8#32

/-- A command of unit `u` completes with `OK` and result `r`: `LAST_CODE` is written last
(60_exceptions.md R250, 43_csr_access.md R236). -/
def complete (u : UnitId) (r : D) (s : State.Of F S D) : State.Of F S D :=
  match u with
  | .trl => (s.setTrl { s.trl with lastCode := .ok }).respond .ok r
  | .acc => (s.setAcc { s.acc with lastCode := .ok }).respond .ok r

/-- `raise c` inside a command of unit `u` (60_exceptions.md R252): set the `STATUS` bit of the code,
write `LAST_CODE`, answer `(c, 0)`. Nothing else changes, and nothing is jumped to: no address is
reserved for error handling (R260). -/
def raise (N : Format F S D) (u : UnitId) (c : Code) (s : State.Of F S D) : State.Of F S D :=
  match u with
  | .trl =>
    (s.setTrl { s.trl with status := s.trl.status ||| c.statusMask, lastCode := c }).respond c (N.ofBits 0)
  | .acc =>
    (s.setAcc { s.acc with status := s.acc.status ||| c.statusMask, lastCode := c }).respond c (N.ofBits 0)

/-- The length of a buffer: its count or capacity CSR (20_memory.md R71). -/
def State.Of.bufLen (s : State.Of F S D) : BufferId → Nat
  | .trl .trlIn => s.trl.inCount.toNat
  | .trl .trlSym => s.trl.capSym.toNat
  | .trl .trlPass => s.trl.capPass.toNat
  | .trl .trlOmega => s.trl.capOmega.toNat
  | .trl .trlMu => s.trl.capMu.toNat
  | .acc .accIn => s.acc.inCount.toNat
  | .acc .accOut => s.acc.capOut.toNat

/-- `MemRead(b, i)` of a buffer of `F` elements: element `i` exists for `i < length(b)`
(20_memory.md R72). -/
def memReadF (N : Format F S D) (s : State.Of F S D) (b : TrlBuffer) (i : Nat) : Except Fault F :=
  if i < s.bufLen (.trl b) then .ok (N.readElem (s.bufs.trlBuf b) i)
  else .error (.bufferOverrun (.trl b) i)

/-- `MemWrite(b, i, v)` of a buffer of `F` elements. -/
def memWriteF (N : Format F S D) (s : State.Of F S D) (b : TrlBuffer) (i : Nat) (v : F) :
    Except Fault (State.Of F S D) :=
  if i < s.bufLen (.trl b) then
    .ok (s.setBufs (s.bufs.setTrlBuf b (N.writeElem (s.bufs.trlBuf b) i v)))
  else .error (.bufferOverrun (.trl b) i)

/-- `MemRead(b, i)` of a buffer of 8-bit units. -/
def memReadUnit (s : State.Of F S D) (b : AccBuffer) (i : Nat) : Except Fault Byte :=
  if i < s.bufLen (.acc b) then .ok (Memory.read (s.bufs.accBuf b) i)
  else .error (.bufferOverrun (.acc b) i)

/-- `MemWrite(b, i, v)` of a buffer of 8-bit units. -/
def memWriteUnit (s : State.Of F S D) (b : AccBuffer) (i : Nat) (v : Byte) :
    Except Fault (State.Of F S D) :=
  if i < s.bufLen (.acc b) then
    .ok (s.setBufs (s.bufs.setAccBuf b (Memory.write (s.bufs.accBuf b) i v)))
  else .error (.bufferOverrun (.acc b) i)

/-- The `n` elements of a buffer of `F` elements from element `i` on. -/
def memReadRun (N : Format F S D) (s : State.Of F S D) (b : TrlBuffer) (i : Nat) :
    Nat → Except Fault (List F)
  | 0 => .ok []
  | n + 1 =>
    match memReadF N s b i with
    | .error e => .error e
    | .ok v =>
      match memReadRun N s b (i + 1) n with
      | .error e => .error e
      | .ok vs => .ok (v :: vs)

end Sys2Proof.Machine
end

