-- ==== Sys2Proof/Machine/Flags.lean ====
section
/-!
DEFINITION. The flags of the hardware (10_state.md rule R30): the sticky `STATUS` bits and the
interrupt lines (rule R24, 60_exceptions.md rule R265), the enables of `CTRL` (rule R25), and the
per-bit signals of unit ACC (42_access_code_correlator.md rules R201 and R202).
-/

namespace Sys2Proof.Machine

/-- `STATUS.CURSOR_UNDERFLOW`, bit 4 (10_state.md R24). -/
def cursorUnderflowMask : Word := 0x10#32

/-- `STATUS.AMBIGUOUS_MATCH`, bit 5 (10_state.md R24). -/
def ambiguousMatchMask : Word := 0x20#32

/-- The bits of `STATUS` and `IRQ_EN` that unit TRL has: bit 5 is reserved (10_state.md R24,
43_csr_access.md R234). -/
def trlStatusBits : Word := 0x1F#32

/-- The bits of `STATUS` and `IRQ_EN` that unit ACC has: bits 3 and 4 are reserved (10_state.md R24,
43_csr_access.md R234). -/
def accStatusBits : Word := 0x27#32

/-- The bits of `CTRL` (10_state.md R25). -/
def ctrlBits : Word := 0x7#32

/-- `CTRL.PASS_EN`. -/
def Trl.passEn {F : Type} (t : Trl F) : Bool := t.ctrl.getLsbD 0

/-- `CTRL.OMEGA_EN`. -/
def Trl.omegaEn {F : Type} (t : Trl F) : Bool := t.ctrl.getLsbD 1

/-- `CTRL.MU_EN`. -/
def Trl.muEn {F : Type} (t : Trl F) : Bool := t.ctrl.getLsbD 2

/-- The interrupt line `irq_TRL` (60_exceptions.md R265). -/
def irqTrl {F S D : Type} (s : State.Of F S D) : Bool := s.trl.status &&& s.trl.irqEn != 0#32

/-- The interrupt line `irq_ACC` (60_exceptions.md R265). -/
def irqAcc {F S D : Type} (s : State.Of F S D) : Bool := s.acc.status &&& s.acc.irqEn != 0#32

/-- The number of 1 bits among the low `n` bits of `v`. -/
def popcountLow (v : DWord) : Nat → Nat
  | 0 => 0
  | n + 1 => popcountLow v n + (v.getLsbD n).toNat

/-- `popcount(v)` (00_scope.md R9). -/
def popcount (v : DWord) : Nat := popcountLow v 64

/-- The pattern the polarity in force expects (42_access_code_correlator.md R201). -/
def Acc.activeCode (a : Acc) : DWord := if a.invert then a.invAccessCode else a.accessCode

/-- The complementary pattern (R201). -/
def Acc.compCode (a : Acc) : DWord := if a.invert then a.accessCode else a.invAccessCode

/-- `wrong`: the masked Hamming distance to the active pattern (R201). -/
def Acc.wrong (a : Acc) : Nat := popcount ((a.dataReg ^^^ a.activeCode) &&& a.mask)

/-- `wrong_inv`: the masked Hamming distance to the complementary pattern (R201). -/
def Acc.wrongInv (a : Acc) : Nat := popcount ((a.dataReg ^^^ a.compCode) &&& a.mask)

/-- `match` (R202). -/
def Acc.isMatch (a : Acc) : Bool := decide (a.wrong ≤ a.threshold.toNat)

/-- `match_inv` (R202). -/
def Acc.isMatchInv (a : Acc) : Bool := a.detectInv && decide (a.wrongInv ≤ a.threshold.toNat)

end Sys2Proof.Machine
end

