-- ==== Sys2Proof/Machine/AccUnit.lean ====
section
/-!
DEFINITION. The commands of unit ACC but the CSR commands (42_access_code_correlator.md rules R181 to
R186), the code fields (R190) and the bit step (R200 to R206). `NUM` plays no part in them; they are over
any format `N` because the state is.
-/

namespace Sys2Proof.Machine

variable {F S D : Type} (N : Format F S D)

/-- The pattern of the first `n` characters of the staging string: bit 0 of character `i` at bit
`63 - i` (42_access_code_correlator.md R190). -/
def Acc.codeBits (a : Acc) : Nat → DWord
  | 0 => 0
  | n + 1 =>
    Acc.codeBits a n
      ||| (if (a.codeStr.getD n 0).getLsbD 0 then (1#64) <<< (63 - n) else 0)

/-- The mask of a code of length `n`: bits 63 to `64 - n` set (R190). -/
def codeMask (n : Nat) : DWord :=
  if n = 0 then 0 else ~~~(BitVec.ofNat 64 (2 ^ (64 - n) - 1))

/-- `load_code(n)` (42_access_code_correlator.md R190). -/
def Acc.loadCode (a : Acc) (n : Nat) : Acc :=
  { a with
    len := BitVec.ofNat 7 n,
    accessCode := a.codeBits n,
    mask := codeMask n,
    invAccessCode := ~~~(a.codeBits n),
    flagBit := 0x0000000000000001#64 }

/-- sliding_shift_register, output: bit 63 of the three registers in positions 0, 1 and 2 (R200). -/
def Acc.output (a : Acc) : Byte :=
  (BitVec.ofBool (a.dataReg.getLsbD 63)).setWidth 8
    ||| (BitVec.ofBool (a.flagReg.getLsbD 63)).setWidth 8 <<< 1
    ||| (BitVec.ofBool (a.invertReg.getLsbD 63)).setWidth 8 <<< 2

/-- inversion_resolver: the polarity after the bit step's tests (R203). -/
def Acc.resolve (a : Acc) : Bool :=
  if a.isMatch && a.isMatchInv then a.invert
  else if a.isMatch && a.invert then false
  else if a.isMatchInv && !a.invert then true
  else a.invert

/-- The ambiguity diagnostic, when both patterns match (R203, R204). -/
def Acc.diagnose (a : Acc) : Acc :=
  if a.isMatch && a.isMatchInv then
    { a with
      ambigCount := a.ambigCount + 1, lastAmbigBit := a.bitCount,
      status := a.status ||| ambiguousMatchMask }
  else a

/-- sliding_shift_register, shift and insert, with the polarity after R203; then the bit counter
(R205, R206). -/
def Acc.shiftIn (a : Acc) (inv anyMatch matchInv b : Bool) : Acc :=
  { a with
    invert := inv,
    dataReg := a.dataReg <<< 1 ||| (BitVec.ofBool (b != inv)).setWidth 64,
    flagReg := a.flagReg <<< 1 ||| (if anyMatch then a.flagBit else 0),
    invertReg := a.invertReg <<< 1 ||| (if matchInv then a.flagBit else 0),
    bitCount := a.bitCount + 1 }

/-- `bit_step(b)` without its output (42_access_code_correlator.md R201 to R206). -/
def Acc.bitStep (a : Acc) (b : Bool) : Acc :=
  a.diagnose.shiftIn a.resolve (a.isMatch || a.isMatchInv) a.isMatchInv b

/-- The loop of `ACC.PROCESS`: `n` bit steps from unit `i` on (42_access_code_correlator.md R186). -/
def accLoop : Nat → Nat → State.Of F S D → Except Fault (State.Of F S D)
  | 0, _, s => .ok s
  | n + 1, i, s =>
    match memReadUnit s .accIn i with
    | .error e => .error e
    | .ok u =>
      match memWriteUnit (s.setAcc (s.acc.bitStep (u.getLsbD 0))) .accOut i s.acc.output with
      | .error e => .error e
      | .ok s' => accLoop n (i + 1) s'

/-- The number of bit steps of a call (42_access_code_correlator.md R186). -/
def Acc.callCount (a : Acc) : Nat := min a.inCount.toNat a.capOut.toNat

/-- The effect of an `ACC.CONFIG` whose length is accepted (42_access_code_correlator.md R182). -/
def Acc.configure (a : Acc) : Acc :=
  { a.loadCode a.codeLen.toNat with
    threshold := a.cfgThreshold, detectInv := a.cfgDetectInv,
    dataReg := 0, flagReg := 0, invertReg := 0, invert := false,
    bitCount := 0, ambigCount := 0, lastAmbigBit := 0, consumed := 0, produced := 0,
    mode := .ready }

/-- A command of unit ACC that only replaces the unit's fields, and completes with `OK`
(60_exceptions.md R250). -/
def accUpdate (a : Acc) (s : State.Of F S D) : State.Of F S D :=
  complete .acc (N.ofBits 0) (s.setAcc a)

/-- A command that loads a code: `INVALID_PARAM` for a length over 64, else the unit becomes `a`
(42_access_code_correlator.md R182, R183). -/
def accLoad (a : Acc) (s : State.Of F S D) : State.Of F S D :=
  if 64 < s.acc.codeLen.toNat then raise N .acc .invalidParam s else accUpdate N a s

/-- The result writes of `ACC.PROCESS` after `n` bit steps (42_access_code_correlator.md R186). -/
def finishAccProcess (n : Nat) (s : State.Of F S D) : State.Of F S D :=
  accUpdate N { s.acc with consumed := BitVec.ofNat 32 n, produced := BitVec.ofNat 32 n } s

/-- `ACC.PROCESS` (42_access_code_correlator.md R186). -/
def accProcess (s : State.Of F S D) : Host.Outcome (State.Of F S D) Fault Refusal :=
  if s.acc.mode = .ready then
    match accLoop s.acc.callCount 0 s with
    | .error e => .fault e
    | .ok s' => .next (finishAccProcess N s.acc.callCount s')
  else .next (raise N .acc .notReady s)

/-- `ACC.RESET`: unit ACC takes its reset state, then the command completes with `OK`
(42_access_code_correlator.md R181, 70_reset_and_hazards.md R290). -/
def execAccReset (s : State) : Host.Outcome State Fault Refusal :=
  .next (accUpdate binary32Format Acc.reset s)

/-- `ACC.CONFIG` (42_access_code_correlator.md R182). -/
def execAccConfig (s : State) : Host.Outcome State Fault Refusal :=
  .next (accLoad binary32Format s.acc.configure s)

/-- `ACC.SET_CODE` (42_access_code_correlator.md R183). -/
def execAccSetCode (s : State) : Host.Outcome State Fault Refusal :=
  .next (accLoad binary32Format (s.acc.loadCode s.acc.codeLen.toNat) s)

/-- `ACC.SET_THRESHOLD` (42_access_code_correlator.md R184). -/
def execAccSetThreshold (t : Word) (s : State) : Host.Outcome State Fault Refusal :=
  .next (accUpdate binary32Format { s.acc with threshold := t } s)

/-- `ACC.SET_DETECT_INV` (42_access_code_correlator.md R185). -/
def execAccSetDetectInv (b : Bool) (s : State) : Host.Outcome State Fault Refusal :=
  .next (accUpdate binary32Format { s.acc with detectInv := b } s)

/-- `ACC.PROCESS` (42_access_code_correlator.md R186). -/
def execAccProcess (s : State) : Host.Outcome State Fault Refusal :=
  accProcess binary32Format s

end Sys2Proof.Machine
end

