-- ==== Sys2Proof/Machine/Operands.lean ====
section
/-!
DEFINITION. The operand forms of the hardware: the control and status registers. The CSR maps of
10_state.md rules R23 and R28 with their access rights, the value a read gives (rule R26,
43_csr_access.md rule R230) and what a write stores (rules R234 and R235).
-/

namespace Sys2Proof.Machine

/-- A CSR's access right (10_state.md R23). -/
inductive Access where
  /-- read-only: a write is illegal (43_csr_access.md R233) -/
  | ro
  /-- read-write -/
  | rw
  /-- writing 1 to a bit clears it (43_csr_access.md R235) -/
  | w1c
deriving DecidableEq, Repr

/-- The CSRs of unit TRL (10_state.md R23). -/
inductive TrlCsr where
  | ntaps | nsteps | status | irqEn | ctrl | mode | lastCode
  | cfgOmega0 | cfgGainMu | cfgGainOmega | cfgRelLimit | cfgMu0
  | omega | omegaMid | omegaLim | mu | lastSample | gainMu | gainOmega | relLimit | passCount | skip
  | inCount | capSym | capPass | capOmega | capMu
  | consumed | prodSym | prodPass | prodOmega | prodMu
  | symbolCount | underflowCount
deriving DecidableEq, Repr

/-- The CSRs of unit ACC (10_state.md R28). -/
inductive AccCsr where
  | status | irqEn | mode | lastCode
  | cfgThreshold | cfgDetectInv | codeLen
  | dataReg | flagReg | invertReg | accessCode | invAccessCode | mask | len | threshold
  | invert | detectInv | flagBit
  | inCount | capOut | consumed | produced
  | bitCount | ambigCount | lastAmbigBit
  | codeStr (i : Fin 64)
deriving DecidableEq, Repr

/-- One row of a CSR map: number, register, access. -/
structure CsrRow (Csr : Type) where
  num : Nat
  csr : Csr
  access : Access
deriving DecidableEq, Repr

/-- The CSR map of unit TRL, row by row as in 10_state.md R23. -/
def trlCsrMap : List (CsrRow TrlCsr) :=
  [ ⟨0x000, .ntaps, .ro⟩, ⟨0x001, .nsteps, .ro⟩, ⟨0x002, .status, .w1c⟩, ⟨0x003, .irqEn, .rw⟩,
    ⟨0x004, .ctrl, .rw⟩, ⟨0x005, .mode, .ro⟩, ⟨0x006, .lastCode, .ro⟩,
    ⟨0x010, .cfgOmega0, .rw⟩, ⟨0x011, .cfgGainMu, .rw⟩, ⟨0x012, .cfgGainOmega, .rw⟩,
    ⟨0x013, .cfgRelLimit, .rw⟩, ⟨0x014, .cfgMu0, .rw⟩,
    ⟨0x020, .omega, .ro⟩, ⟨0x021, .omegaMid, .ro⟩, ⟨0x022, .omegaLim, .ro⟩, ⟨0x023, .mu, .ro⟩,
    ⟨0x024, .lastSample, .ro⟩, ⟨0x025, .gainMu, .ro⟩, ⟨0x026, .gainOmega, .ro⟩,
    ⟨0x027, .relLimit, .ro⟩, ⟨0x028, .passCount, .ro⟩, ⟨0x029, .skip, .ro⟩,
    ⟨0x030, .inCount, .rw⟩, ⟨0x031, .capSym, .rw⟩, ⟨0x032, .capPass, .rw⟩, ⟨0x033, .capOmega, .rw⟩,
    ⟨0x034, .capMu, .rw⟩,
    ⟨0x038, .consumed, .ro⟩, ⟨0x039, .prodSym, .ro⟩, ⟨0x03A, .prodPass, .ro⟩,
    ⟨0x03B, .prodOmega, .ro⟩, ⟨0x03C, .prodMu, .ro⟩,
    ⟨0x040, .symbolCount, .ro⟩, ⟨0x041, .underflowCount, .ro⟩ ]

/-- The CSR map of unit ACC, row by row as in 10_state.md R28, less `CODESTR`. -/
def accCsrMap : List (CsrRow AccCsr) :=
  [ ⟨0x002, .status, .w1c⟩, ⟨0x003, .irqEn, .rw⟩, ⟨0x005, .mode, .ro⟩, ⟨0x006, .lastCode, .ro⟩,
    ⟨0x010, .cfgThreshold, .rw⟩, ⟨0x011, .cfgDetectInv, .rw⟩, ⟨0x012, .codeLen, .rw⟩,
    ⟨0x020, .dataReg, .ro⟩, ⟨0x021, .flagReg, .ro⟩, ⟨0x022, .invertReg, .ro⟩,
    ⟨0x023, .accessCode, .ro⟩, ⟨0x024, .invAccessCode, .ro⟩, ⟨0x025, .mask, .ro⟩, ⟨0x026, .len, .ro⟩,
    ⟨0x027, .threshold, .ro⟩, ⟨0x028, .invert, .ro⟩, ⟨0x029, .detectInv, .ro⟩,
    ⟨0x02A, .flagBit, .ro⟩,
    ⟨0x030, .inCount, .rw⟩, ⟨0x031, .capOut, .rw⟩, ⟨0x038, .consumed, .ro⟩, ⟨0x039, .produced, .ro⟩,
    ⟨0x040, .bitCount, .ro⟩, ⟨0x041, .ambigCount, .ro⟩, ⟨0x042, .lastAmbigBit, .ro⟩ ]

/-- The register a number names in unit TRL, if any (43_csr_access.md R232). -/
def trlCsrOf (n : BitVec 12) : Option (CsrRow TrlCsr) :=
  trlCsrMap.find? fun r => r.num == n.toNat

/-- The register a number names in unit ACC, if any: `CODESTR[i]` is number 0x100 + i for i below 64
(10_state.md R28, 43_csr_access.md R232). -/
def accCsrOf (n : BitVec 12) : Option (CsrRow AccCsr) :=
  if 0x100 ≤ n.toNat ∧ n.toNat < 0x140 then
    some ⟨n.toNat, .codeStr (Fin.ofNat 64 (n.toNat - 0x100)), .rw⟩
  else accCsrMap.find? fun r => r.num == n.toNat

/-- `T.MODE` as read (10_state.md R22). -/
def TrlMode.num : TrlMode → DWord
  | .unconfigured => 0
  | .ready => 1
  | .faulted => 2

/-- `A.MODE` as read (10_state.md R27). -/
def AccMode.num : AccMode → DWord
  | .unconfigured => 0
  | .ready => 1

/-- The data word a read of a CSR of unit TRL gives (10_state.md R23): a value of `F` as the format `N`
carries it (R26), any other zero-extended to 64 bits. -/
def trlCsrRead {F S D : Type} (N : Format F S D) (P : Params F) (t : Trl F) : TrlCsr → D
  | .ntaps => N.ofBits (BitVec.ofNat 64 P.ntaps)
  | .nsteps => N.ofBits (BitVec.ofNat 64 P.nsteps)
  | .status => N.ofBits (t.status.setWidth 64)
  | .irqEn => N.ofBits (t.irqEn.setWidth 64)
  | .ctrl => N.ofBits (t.ctrl.setWidth 64)
  | .mode => N.ofBits t.mode.num
  | .lastCode => N.ofBits (t.lastCode.num.setWidth 64)
  | .cfgOmega0 => N.ofValue t.cfgOmega0
  | .cfgGainMu => N.ofValue t.cfgGainMu
  | .cfgGainOmega => N.ofValue t.cfgGainOmega
  | .cfgRelLimit => N.ofValue t.cfgRelLimit
  | .cfgMu0 => N.ofValue t.cfgMu0
  | .omega => N.ofValue t.omega
  | .omegaMid => N.ofValue t.omegaMid
  | .omegaLim => N.ofValue t.omegaLim
  | .mu => N.ofValue t.mu
  | .lastSample => N.ofValue t.lastSample
  | .gainMu => N.ofValue t.gainMu
  | .gainOmega => N.ofValue t.gainOmega
  | .relLimit => N.ofValue t.relLimit
  | .passCount => N.ofBits (t.passCount.setWidth 64)
  | .skip => N.ofBits t.skip
  | .inCount => N.ofBits (t.inCount.setWidth 64)
  | .capSym => N.ofBits (t.capSym.setWidth 64)
  | .capPass => N.ofBits (t.capPass.setWidth 64)
  | .capOmega => N.ofBits (t.capOmega.setWidth 64)
  | .capMu => N.ofBits (t.capMu.setWidth 64)
  | .consumed => N.ofBits (t.consumed.setWidth 64)
  | .prodSym => N.ofBits (t.prodSym.setWidth 64)
  | .prodPass => N.ofBits (t.prodPass.setWidth 64)
  | .prodOmega => N.ofBits (t.prodOmega.setWidth 64)
  | .prodMu => N.ofBits (t.prodMu.setWidth 64)
  | .symbolCount => N.ofBits t.symbolCount
  | .underflowCount => N.ofBits t.underflowCount

/-- The value of a CSR of unit ACC, zero-extended to 64 bits (10_state.md R28). -/
def accCsrRead (a : Acc) : AccCsr → DWord
  | .status => a.status.setWidth 64
  | .irqEn => a.irqEn.setWidth 64
  | .mode => a.mode.num
  | .lastCode => a.lastCode.num.setWidth 64
  | .cfgThreshold => a.cfgThreshold.setWidth 64
  | .cfgDetectInv => (BitVec.ofBool a.cfgDetectInv).setWidth 64
  | .codeLen => a.codeLen.setWidth 64
  | .dataReg => a.dataReg
  | .flagReg => a.flagReg
  | .invertReg => a.invertReg
  | .accessCode => a.accessCode
  | .invAccessCode => a.invAccessCode
  | .mask => a.mask
  | .len => a.len.setWidth 64
  | .threshold => a.threshold.setWidth 64
  | .invert => (BitVec.ofBool a.invert).setWidth 64
  | .detectInv => (BitVec.ofBool a.detectInv).setWidth 64
  | .flagBit => a.flagBit
  | .inCount => a.inCount.setWidth 64
  | .capOut => a.capOut.setWidth 64
  | .consumed => a.consumed.setWidth 64
  | .produced => a.produced.setWidth 64
  | .bitCount => a.bitCount
  | .ambigCount => a.ambigCount
  | .lastAmbigBit => a.lastAmbigBit
  | .codeStr i => (a.codeStr[i]).setWidth 64

/-- What a `TRL.CSRW` of data word `d` stores: `truncate(D, CSR)` into an RW register, which for an `F`
register is the value `d` carries in the format `N`; the write-one-to-clear of `STATUS`
(43_csr_access.md R231, R234, R235; 10_state.md R26). A read-only register keeps its value; the
command raises `ILLEGAL_CMD` before it comes here (R233). -/
def trlCsrStore {F S D : Type} (N : Format F S D) (t : Trl F) (c : TrlCsr) (d : D) : Trl F :=
  let v : Word := (N.bitsOf d).extractLsb' 0 32
  match c with
  | .status => { t with status := t.status &&& ~~~v }
  | .irqEn => { t with irqEn := v &&& trlStatusBits }
  | .ctrl => { t with ctrl := v &&& ctrlBits }
  | .cfgOmega0 => { t with cfgOmega0 := N.valueOf d }
  | .cfgGainMu => { t with cfgGainMu := N.valueOf d }
  | .cfgGainOmega => { t with cfgGainOmega := N.valueOf d }
  | .cfgRelLimit => { t with cfgRelLimit := N.valueOf d }
  | .cfgMu0 => { t with cfgMu0 := N.valueOf d }
  | .inCount => { t with inCount := v }
  | .capSym => { t with capSym := v }
  | .capPass => { t with capPass := v }
  | .capOmega => { t with capOmega := v }
  | .capMu => { t with capMu := v }
  | .ntaps => t
  | .nsteps => t
  | .mode => t
  | .lastCode => t
  | .omega => t
  | .omegaMid => t
  | .omegaLim => t
  | .mu => t
  | .lastSample => t
  | .gainMu => t
  | .gainOmega => t
  | .relLimit => t
  | .passCount => t
  | .skip => t
  | .consumed => t
  | .prodSym => t
  | .prodPass => t
  | .prodOmega => t
  | .prodMu => t
  | .symbolCount => t
  | .underflowCount => t

/-- What an `ACC.CSRW` of value `d` stores (43_csr_access.md R231, R234, R235). -/
def accCsrStore (a : Acc) (c : AccCsr) (d : DWord) : Acc :=
  let v : Word := d.extractLsb' 0 32
  match c with
  | .status => { a with status := a.status &&& ~~~v }
  | .irqEn => { a with irqEn := v &&& accStatusBits }
  | .cfgThreshold => { a with cfgThreshold := v }
  | .cfgDetectInv => { a with cfgDetectInv := d.getLsbD 0 }
  | .codeLen => { a with codeLen := v }
  | .inCount => { a with inCount := v }
  | .capOut => { a with capOut := v }
  | .codeStr i => { a with codeStr := a.codeStr.set i (d.extractLsb' 0 8) }
  | .mode => a
  | .lastCode => a
  | .dataReg => a
  | .flagReg => a
  | .invertReg => a
  | .accessCode => a
  | .invAccessCode => a
  | .mask => a
  | .len => a
  | .threshold => a
  | .invert => a
  | .detectInv => a
  | .flagBit => a
  | .consumed => a
  | .produced => a
  | .bitCount => a
  | .ambigCount => a
  | .lastAmbigBit => a

end Sys2Proof.Machine
end

