-- ==== Sys2Proof/Machine/CsrAccess.lean ====
section
/-!
DEFINITION. The CSR commands of both units (43_csr_access.md rules R230 to R237), over any format `N`
(10_state.md rule R26), and the meanings of this machine, where `NUM = Binary32`.
-/

namespace Sys2Proof.Machine

variable {F S D : Type} (N : Format F S D)

/-- `TRL.CSRR`: the value is read before the command writes its own code to `LAST_CODE`
(43_csr_access.md R230, R232, R236). -/
def trlCsrr (P : Params F) (csr : BitVec 12) (s : State.Of F S D) : State.Of F S D :=
  match trlCsrOf csr with
  | none => raise N .trl .illegalCmd s
  | some r => complete .trl (trlCsrRead N P s.trl r.csr) s

/-- `TRL.CSRW` (43_csr_access.md R231 to R235). -/
def trlCsrw (csr : BitVec 12) (d : D) (s : State.Of F S D) : State.Of F S D :=
  match trlCsrOf csr with
  | none => raise N .trl .illegalCmd s
  | some r =>
    if r.access = .ro then raise N .trl .illegalCmd s
    else complete .trl (N.ofBits 0) (s.setTrl (trlCsrStore N s.trl r.csr d))

/-- `ACC.CSRR` (43_csr_access.md R230, R232, R236). -/
def accCsrr (csr : BitVec 12) (s : State.Of F S D) : State.Of F S D :=
  match accCsrOf csr with
  | none => raise N .acc .illegalCmd s
  | some r => complete .acc (N.ofBits (accCsrRead s.acc r.csr)) s

/-- `ACC.CSRW` (43_csr_access.md R231 to R235). -/
def accCsrw (csr : BitVec 12) (d : DWord) (s : State.Of F S D) : State.Of F S D :=
  match accCsrOf csr with
  | none => raise N .acc .illegalCmd s
  | some r =>
    if r.access = .ro then raise N .acc .illegalCmd s
    else complete .acc (N.ofBits 0) (s.setAcc (accCsrStore s.acc r.csr d))

/-- `TRL.CSRR` (43_csr_access.md R230). -/
def execTrlCsrr (csr : BitVec 12) (s : State) : Host.Outcome State Fault Refusal :=
  .next (trlCsrr binary32Format Config.params csr s)

/-- `TRL.CSRW` (43_csr_access.md R231). -/
def execTrlCsrw (csr : BitVec 12) (d : DWord) (s : State) : Host.Outcome State Fault Refusal :=
  .next (trlCsrw binary32Format csr d s)

/-- `ACC.CSRR` (43_csr_access.md R230). -/
def execAccCsrr (csr : BitVec 12) (s : State) : Host.Outcome State Fault Refusal :=
  .next (accCsrr binary32Format csr s)

/-- `ACC.CSRW` (43_csr_access.md R231). -/
def execAccCsrw (csr : BitVec 12) (d : DWord) (s : State) : Host.Outcome State Fault Refusal :=
  .next (accCsrw binary32Format csr d s)

end Sys2Proof.Machine
end

