-- ==== Sys2Proof/Machine/TrlDatapath.lean ====
section
/-!
DEFINITION. The datapath of unit TRL over any numeric format `K` (00_scope.md rule R12): construction
(41_timing_recovery.md rules R122 and R123), the forecast (R125) and the symbol step (R140 to R148).
-/

namespace Sys2Proof.Machine

/-- `omega₀·limit` of the staging CSRs (41_timing_recovery.md R122). -/
def Trl.cfgLim {F : Type} (K : Num F) (t : Trl F) : F := K.fmul t.cfgOmega0 t.cfgRelLimit

/-- The test `ok` of `TRL.CONFIG` (41_timing_recovery.md R122). -/
def Trl.configOk {F : Type} (K : Num F) (t : Trl F) : Bool :=
  K.isfinite t.cfgOmega0 && K.isfinite t.cfgGainMu && K.isfinite t.cfgGainOmega
    && K.isfinite t.cfgRelLimit && K.isfinite t.cfgMu0
    && !K.flt t.cfgOmega0 K.one
    && !K.flt t.cfgGainMu K.zero && !K.flt t.cfgGainOmega K.zero
    && !K.flt t.cfgRelLimit K.zero && K.flt t.cfgRelLimit K.one
    && !K.flt t.cfgMu0 K.zero && K.flt t.cfgMu0 K.one
    && K.isfinite (t.cfgLim K)

/-- `v` saturated to 32 bits (00_scope.md R10); a negative `v` counts as 0 (log entry 17). -/
def saturate32 (v : Int) : Nat := min v.toNat (2 ^ 32 - 1)

/-- The effect of a `TRL.CONFIG` whose test holds (41_timing_recovery.md R123). -/
def Trl.configure {F : Type} (K : Num F) (t : Trl F) : Trl F :=
  { t with
    omegaMid := t.cfgOmega0, omega := t.cfgOmega0, omegaLim := t.cfgLim K,
    mu := t.cfgMu0, lastSample := K.zero,
    gainMu := t.cfgGainMu, gainOmega := t.cfgGainOmega, relLimit := t.cfgRelLimit,
    passCount := BitVec.ofNat 32 (saturate32 (K.floorInt t.cfgOmega0)),
    skip := 0, symbolCount := 0, underflowCount := 0,
    consumed := 0, prodSym := 0, prodPass := 0, prodOmega := 0, prodMu := 0,
    mode := .ready }

/-- `forecast(N)`: `ceil(N·omega) + NTAPS + SKIP`, exact, saturated at 2^32 - 1
(41_timing_recovery.md R125). -/
def Trl.forecast {F : Type} (K : Num F) (ntaps : Nat) (t : Trl F) (n : Nat) : Nat :=
  saturate32 (K.ceilMul n t.omega + (ntaps : Int) + (t.skip.toNat : Int))

/-- Every value one symbol step computes (41_timing_recovery.md R141 to R146), by the name the rules
give it. -/
structure SymbolValues (F : Type) where
  y : F
  e : F
  uOmega : F
  uMu : F
  omegaT : F
  d : F
  /-- the sum `d + lim` inside the clip -/
  dPlus : F
  /-- the difference `d - lim` inside the clip -/
  dMinus : F
  clipd : F
  /-- `omega'` -/
  omega : F
  muT : F
  /-- `a`, as a value of `F` -/
  advF : F
  /-- `a`, as an integer -/
  adv : Int
  /-- `mu'` -/
  mu : F
deriving DecidableEq, Repr

/-- polyphase_interpolator, phase selection (41_timing_recovery.md R140). -/
def Trl.phase {F : Type} (K : Num F) (P : Params F) (t : Trl F) : Nat :=
  (K.rneMul P.nsteps t.mu).toNat

/-- polyphase_interpolator, the interpolated sample of the window `x` (41_timing_recovery.md R141). -/
def Trl.interpolate {F : Type} (K : Num F) (P : Params F) (t : Trl F) (x : List F) : F :=
  P.dot ((List.range P.ntaps).map (P.taps (t.phase K P))) x

/-- timing_error_detector (41_timing_recovery.md R142). -/
def timingError {F : Type} (K : Num F) (last y : F) : F :=
  K.fsub (K.fmul (K.sgn last) y) (K.fmul (K.sgn y) last)

/-- The symbol step from the interpolated sample `y` on: timing_error_detector, pi_loop_filter,
rate_accumulator and phase_accumulator (41_timing_recovery.md R142 to R146). -/
def Trl.loopValues {F : Type} (K : Num F) (t : Trl F) (y : F) : SymbolValues F :=
  let e := timingError K t.lastSample y
  let uOmega := K.fmul t.gainOmega e
  let uMu := K.fmul t.gainMu e
  let omegaT := K.fadd t.omega uOmega
  let d := K.fsub omegaT t.omegaMid
  let clipd := K.clip d t.omegaLim
  let omega := K.fadd t.omegaMid clipd
  let muT := K.fadd (K.fadd t.mu omega) uMu
  let advF := K.ffloor muT
  { y := y, e := e, uOmega := uOmega, uMu := uMu, omegaT := omegaT, d := d,
    dPlus := K.fadd d t.omegaLim, dMinus := K.fsub d t.omegaLim, clipd := clipd, omega := omega,
    muT := muT, advF := advF, adv := K.floorInt muT, mu := K.fsub muT advF }

/-- Numeric fault (41_timing_recovery.md R147): a value is not finite, the advance lies outside
[-2^31, 2^31), or the new rate is not above 0. -/
def SymbolValues.fault {F : Type} (K : Num F) (v : SymbolValues F) : Bool :=
  !(K.isfinite v.y && K.isfinite v.e && K.isfinite v.uOmega && K.isfinite v.uMu
    && K.isfinite v.omegaT && K.isfinite v.d && K.isfinite v.dPlus && K.isfinite v.dMinus
    && K.isfinite v.clipd && K.isfinite v.omega && K.isfinite v.muT && K.isfinite v.mu)
  || decide (v.adv < -2 ^ 31) || decide (2 ^ 31 ≤ v.adv)
  || !K.flt K.zero v.omega

/-- The symbol step over the window `x`: its values, or none for a numeric fault
(41_timing_recovery.md R140 to R148). -/
def Trl.symbolStep {F : Type} (K : Num F) (P : Params F) (t : Trl F) (x : List F) :
    Option (SymbolValues F) :=
  let v := t.loopValues K (t.interpolate K P x)
  if v.fault K then none else some v

/-- phase_accumulator, the cursor advance: the new cursor and whether it was clamped at 0
(41_timing_recovery.md R146). -/
def advanceCursor (c : Nat) (a : Int) : Nat × Bool :=
  if (c : Int) + a < 0 then (0, true) else (((c : Int) + a).toNat, false)

/-- The state changes of a committed symbol step (41_timing_recovery.md R132): rate, phase, last
sample, the counters and the underflow diagnostic (60_exceptions.md R263). -/
def Trl.commit {F : Type} (t : Trl F) (v : SymbolValues F) (und : Bool) : Trl F :=
  { t with
    omega := v.omega, mu := v.mu, lastSample := v.y,
    symbolCount := t.symbolCount + 1,
    underflowCount := if und then t.underflowCount + 1 else t.underflowCount,
    status := if und then t.status ||| cursorUnderflowMask else t.status }

end Sys2Proof.Machine
end

