-- ==== Sys2Proof/Machine/TrlUnit.lean ====
section
/-!
DEFINITION. The commands of unit TRL but the CSR commands (41_timing_recovery.md rules R121 to R134).
The call context of `TRL.PROCESS` (10_state.md rule R40) is local to the command (log entry 16).
Each is written once over any format `N` (00_scope.md rules R7 and R12); the meaning of the command in
this machine is its `NUM = Binary32` case.
-/

namespace Sys2Proof.Machine

variable {F S D : Type} (N : Format F S D)

/-- The call context of a `TRL.PROCESS` (10_state.md R40): the cursor and the produced counts. -/
structure TrlCall where
  cursor : Nat
  kSym : Nat
  kPass : Nat
  kOmega : Nat
  kMu : Nat
deriving DecidableEq, Repr

/-- The call context at the start of a `TRL.PROCESS` (41_timing_recovery.md R130). -/
def Trl.callStart (t : Trl F) : TrlCall :=
  { cursor := t.skip.toNat, kSym := 0, kPass := 0, kOmega := 0, kMu := 0 }

/-- The input limit `L` of a call (41_timing_recovery.md R130). -/
def Trl.inputLimit (K : Num F) (ntaps : Nat) (t : Trl F) : Nat :=
  min t.inCount.toNat (t.forecast K ntaps t.capSym.toNat)

/-- The loop guard (41_timing_recovery.md R131). -/
def Trl.guard (ntaps limit : Nat) (t : Trl F) (k : TrlCall) : Bool :=
  decide (k.kSym < t.capSym.toNat)
    && decide (k.cursor + ntaps < limit)
    && (!t.passEn || (decide (k.kPass + t.passCount.toNat ≤ t.capPass.toNat)
          && decide (k.cursor + t.passCount.toNat ≤ limit)))
    && (!t.omegaEn || decide (k.kOmega < t.capOmega.toNat))
    && (!t.muEn || decide (k.kMu < t.capMu.toNat))

/-- The passthrough copy of `n` raw samples: `TRL_PASS[dst + j]` takes `TRL_IN[src + j]` unchanged
(41_timing_recovery.md R132). -/
def copyPass (src dst : Nat) : Nat → State.Of F S D → Except Fault (State.Of F S D)
  | 0, s => .ok s
  | n + 1, s =>
    match memReadF N s .trlIn src with
    | .error e => .error e
    | .ok v =>
      match memWriteF N s .trlPass dst v with
      | .error e => .error e
      | .ok s' => copyPass (src + 1) (dst + 1) n s'

/-- Write one element if the output is enabled (10_state.md R25, 41_timing_recovery.md R132). -/
def writeIf (en : Bool) (b : TrlBuffer) (i : Nat) (v : F) (s : State.Of F S D) :
    Except Fault (State.Of F S D) :=
  if en then memWriteF N s b i v else .ok s

/-- The buffer writes of a committed symbol step, in the order of 41_timing_recovery.md R132. -/
def writeOutputs (k : TrlCall) (v : SymbolValues F) (s : State.Of F S D) :
    Except Fault (State.Of F S D) :=
  match memWriteF N s .trlSym k.kSym v.y with
  | .error e => .error e
  | .ok s1 =>
    match (if s.trl.passEn then copyPass N k.cursor k.kPass s.trl.passCount.toNat s1
           else .ok s1) with
    | .error e => .error e
    | .ok s2 =>
      match writeIf N s.trl.omegaEn .trlOmega k.kOmega v.omega s2 with
      | .error e => .error e
      | .ok s3 => writeIf N s.trl.muEn .trlMu k.kMu v.mu s3

/-- The call context after a committed symbol step (41_timing_recovery.md R132, R146). -/
def TrlCall.next (k : TrlCall) (t : Trl F) (v : SymbolValues F) : TrlCall :=
  { cursor := (advanceCursor k.cursor v.adv).1,
    kSym := k.kSym + 1,
    kPass := if t.passEn then k.kPass + t.passCount.toNat else k.kPass,
    kOmega := if t.omegaEn then k.kOmega + 1 else k.kOmega,
    kMu := if t.muEn then k.kMu + 1 else k.kMu }

/-- Commit one symbol step (41_timing_recovery.md R132). -/
def commitStep (k : TrlCall) (v : SymbolValues F) (s : State.Of F S D) :
    Except Fault (TrlCall × State.Of F S D) :=
  match writeOutputs N k v s with
  | .error e => .error e
  | .ok s' =>
    .ok (k.next s.trl v, s'.setTrl (s'.trl.commit v (advanceCursor k.cursor v.adv).2))

/-- What one pass of the loop of `TRL.PROCESS` comes to. -/
inductive LoopPass (F S D : Type) where
  /-- the guard failed, or the symbol step faulted: the loop ends with this state and code -/
  | halt (s : State.Of F S D) (code : Code)
  /-- the symbol step committed: the loop goes on -/
  | go (k : TrlCall) (s : State.Of F S D)

/-- The symbol step of one pass over the window `x`: committed, or a numeric fault that commits nothing
and leaves `T.MODE = FAULTED` (41_timing_recovery.md R130, R147). -/
def stepPass (P : Params F) (k : TrlCall) (x : List F) (s : State.Of F S D) :
    Except Fault (LoopPass F S D) :=
  match s.trl.symbolStep N.num P x with
  | none => .ok (.halt (s.setTrl { s.trl with mode := .faulted }) .numericFault)
  | some v =>
    match commitStep N k v s with
    | .error e => .error e
    | .ok (k', s') => .ok (.go k' s')

/-- One pass of the loop of `TRL.PROCESS`: the guard, the window, the symbol step
(41_timing_recovery.md R130, R131, R141). -/
def processPass (P : Params F) (limit : Nat) (k : TrlCall) (s : State.Of F S D) :
    Except Fault (LoopPass F S D) :=
  if s.trl.guard P.ntaps limit k then
    match memReadRun N s .trlIn k.cursor P.ntaps with
    | .error e => .error e
    | .ok x => stepPass N P k x s
  else .ok (.halt s .ok)

/-- The loop of `TRL.PROCESS` (41_timing_recovery.md R130), for at most `fuel` symbol steps: the call
context and state it ends with, and its code. Each step writes one symbol and the guard keeps the
symbols below `CAP_SYM`, so `CAP_SYM` is fuel enough (log entry 16). -/
def processLoop (P : Params F) (limit : Nat) :
    Nat → TrlCall → State.Of F S D → Except Fault (TrlCall × State.Of F S D × Code)
  | 0, k, s => .ok (k, s, .ok)
  | fuel + 1, k, s =>
    match processPass N P limit k s with
    | .error e => .error e
    | .ok (.halt s' code) => .ok (k, s', code)
    | .ok (.go k' s') => processLoop P limit fuel k' s'

/-- The result writes of `TRL.PROCESS` (41_timing_recovery.md R133). -/
def Trl.finish (limit : Nat) (k : TrlCall) (t : Trl F) : Trl F :=
  { t with
    skip := BitVec.ofNat 64 (k.cursor - min k.cursor limit),
    consumed := BitVec.ofNat 32 (min k.cursor limit),
    prodSym := BitVec.ofNat 32 k.kSym, prodPass := BitVec.ofNat 32 k.kPass,
    prodOmega := BitVec.ofNat 32 k.kOmega, prodMu := BitVec.ofNat 32 k.kMu }

/-- The end of `TRL.PROCESS`: the results, then `OK` or `raise NUMERIC_FAULT`
(41_timing_recovery.md R133). -/
def finishProcess (limit : Nat) (k : TrlCall) (code : Code) (s : State.Of F S D) : State.Of F S D :=
  let s' := s.setTrl (s.trl.finish limit k)
  if code = .ok then complete .trl (N.ofBits 0) s' else raise N .trl code s'

/-- `TRL.RESET`: unit TRL takes its reset state, then the command completes with `OK`; the stream
buffers are the host's (41_timing_recovery.md R121, 70_reset_and_hazards.md R290). -/
def trlReset (s : State.Of F S D) : State.Of F S D :=
  complete .trl (N.ofBits 0) (s.setTrl (Trl.reset N.num.zero))

/-- `TRL.CONFIG` (41_timing_recovery.md R122, R123). -/
def trlConfig (s : State.Of F S D) : State.Of F S D :=
  if s.trl.configOk N.num then complete .trl (N.ofBits 0) (s.setTrl (s.trl.configure N.num))
  else raise N .trl .invalidParam s

/-- `TRL.FORECAST` (41_timing_recovery.md R125). -/
def trlForecast (P : Params F) (n : Word) (s : State.Of F S D) : State.Of F S D :=
  if s.trl.mode = .ready then
    complete .trl (N.ofBits (BitVec.ofNat 64 (s.trl.forecast N.num P.ntaps n.toNat))) s
  else raise N .trl .notReady s

/-- `TRL.PROCESS` (41_timing_recovery.md R130 to R134). -/
def trlProcess (P : Params F) (s : State.Of F S D) : Host.Outcome (State.Of F S D) Fault Refusal :=
  if s.trl.mode = .ready then
    let limit := s.trl.inputLimit N.num P.ntaps
    match processLoop N P limit s.trl.capSym.toNat s.trl.callStart s with
    | .error e => .fault e
    | .ok (k, s', code) => .next (finishProcess N limit k code s')
  else .next (raise N .trl .notReady s)

/-- `TRL.PROCESS` under `NUM = Binary32` over given interpolator parameters. -/
def trlProcessWith (P : Params F32) (s : State) : Host.Outcome State Fault Refusal :=
  trlProcess binary32Format P s

/-- `TRL.FORECAST` under `NUM = Binary32` over given interpolator parameters. -/
def trlForecastWith (P : Params F32) (n : Word) (s : State) : State :=
  trlForecast binary32Format P n s

/-- `TRL.RESET` (41_timing_recovery.md R121). -/
def execTrlReset (s : State) : Host.Outcome State Fault Refusal :=
  .next (trlReset binary32Format s)

/-- `TRL.CONFIG` (41_timing_recovery.md R122, R123). -/
def execTrlConfig (s : State) : Host.Outcome State Fault Refusal :=
  .next (trlConfig binary32Format s)

/-- `TRL.FORECAST` (41_timing_recovery.md R125). -/
def execTrlForecast (n : Word) (s : State) : Host.Outcome State Fault Refusal :=
  .next (trlForecastWith Config.params n s)

/-- `TRL.PROCESS` (41_timing_recovery.md R130 to R134). -/
def execTrlProcess (s : State) : Host.Outcome State Fault Refusal :=
  trlProcessWith Config.params s

end Sys2Proof.Machine
end

