-- ==== Sys2Proof/Machine/Dispatch.lean ====
section
/-!
DEFINITION. The meaning of every command of the opcode map (30_encoding.md rule R94), one arm each.
-/

namespace Sys2Proof.Machine

def exec (i : Instr) (s : State) : Host.Outcome State Fault Refusal :=
  match i with
  | .trlReset => Sys2Proof.Machine.execTrlReset s
  | .trlConfig => Sys2Proof.Machine.execTrlConfig s
  | .trlForecast n => Sys2Proof.Machine.execTrlForecast n s
  | .trlProcess => Sys2Proof.Machine.execTrlProcess s
  | .trlCsrr csr => Sys2Proof.Machine.execTrlCsrr csr s
  | .trlCsrw csr d => Sys2Proof.Machine.execTrlCsrw csr d s
  | .accReset => Sys2Proof.Machine.execAccReset s
  | .accConfig => Sys2Proof.Machine.execAccConfig s
  | .accSetCode => Sys2Proof.Machine.execAccSetCode s
  | .accSetThreshold t => Sys2Proof.Machine.execAccSetThreshold t s
  | .accSetDetectInv b => Sys2Proof.Machine.execAccSetDetectInv b s
  | .accProcess => Sys2Proof.Machine.execAccProcess s
  | .accCsrr csr => Sys2Proof.Machine.execAccCsrr csr s
  | .accCsrw csr d => Sys2Proof.Machine.execAccCsrw csr d s

end Sys2Proof.Machine
end

