-- ==== Sys2Proof/Machine/Port.lean ====
section
/-!
DEFINITION. The command port and the host's inputs: taking the host's next action, running an issued
command (30_encoding.md rules R90 and R96), a buffer element the host writes (20_memory.md rule R71)
and power-on reset (70_reset_and_hazards.md rule R290). There is no program in memory and no fetch
(10_state.md rule R21); log entry 4 says how a program comes to run. All is over any format `N`
(00_scope.md rule R7) and over `run`, what an instruction does with the data word it came with.
-/

namespace Sys2Proof.Machine

variable {F S D : Type} (N : Format F S D)

/-- What an instruction does, with the data word `D` it came with. -/
abbrev Run (F S D : Type) : Type :=
  Instr → D → State.Of F S D → Host.Outcome (State.Of F S D) Fault Refusal

/-- The host's next action and the machine with the rest of them listed; none if the host has none
(log entry 4). -/
def takeInput (s : State.Of F S D) : Option (HostInputOf D × State.Of F S D) :=
  match s.inputs with
  | [] => none
  | h :: rest => some (h, { s with inputs := rest })

/-- A command at the port (30_encoding.md R96): the meaning of a legal one; `ILLEGAL_CMD` raised in the
unit of an illegal one; with a bad `UNIT` field only the response (60_exceptions.md R254). -/
def runCommandOf (run : Run F S D) (c : CommandOf D) (s : State.Of F S D) :
    Host.Outcome (State.Of F S D) Fault Refusal :=
  match decode ⟨c.w, N.bitsOf c.d⟩ with
  | .instr i => run i c.d s
  | .illegal u => .next (raise N u .illegalCmd s)
  | .badUnit => .next (s.respond .illegalCmd (N.ofBits 0))

/-- The host writes element `i` of a buffer (20_memory.md R71, R81): the value `v` carries in a buffer of
`F` elements, the low byte of `v` in a buffer of 8-bit units. -/
def hostFill (b : BufferId) (i : Nat) (v : D) (s : State.Of F S D) : State.Of F S D :=
  match b with
  | .trl b => s.setBufs (s.bufs.setTrlBuf b (N.writeElem (s.bufs.trlBuf b) i (N.valueOf v)))
  | .acc b =>
    s.setBufs (s.bufs.setAccBuf b (Memory.write (s.bufs.accBuf b) i ((N.bitsOf v).extractLsb' 0 8)))

/-- Power-on reset (70_reset_and_hazards.md R290): both units take their reset state, and no command
has been answered yet; the stream buffers and the host's coming actions are the host's and stay
(log entry 12). Nothing is fetched from a reset vector: none exists (60_exceptions.md R260). -/
def powerOnReset (s : State.Of F S D) : State.Of F S D :=
  { s with trl := Trl.reset N.num.zero, acc := Acc.reset, response := none }

/-- What one action of the host does to the machine. -/
def runInputOf (run : Run F S D) (h : HostInputOf D) (s : State.Of F S D) :
    Host.Outcome (State.Of F S D) Fault Refusal :=
  match h with
  | .issue c => runCommandOf N run c s
  | .fill b i v => .next (hostFill N b i v s)
  | .powerOn => .next (powerOnReset N s)

/-- A command at the port of this machine. -/
def runCommand (c : Command) (s : State) : Host.Outcome State Fault Refusal :=
  runCommandOf binary32Format (fun i _ => exec i) c s

/-- The host's next action becomes issuing `c`; its other actions follow. -/
def presentCommand (c : CommandOf D) (s : State.Of F S D) : State.Of F S D :=
  { s with inputs := .issue c :: s.inputs }

end Sys2Proof.Machine
end

