-- ==== Sys2Proof/Machine/Step.lean ====
section
/-!
DEFINITION. One step of the machine: the host's next action is carried out; with none, the machine
waits unchanged (70_reset_and_hazards.md rule R291, 60_exceptions.md rule R275).
-/

namespace Sys2Proof.Machine

/-- One step of a machine of format `N` whose instructions do `run`. -/
def stepOf {F S D : Type} (N : Format F S D) (run : Run F S D) (s : State.Of F S D) :
    Host.Outcome (State.Of F S D) Fault Refusal :=
  match takeInput s with
  | none => .next s
  | some (h, s') => runInputOf N run h s'

/-- One step. -/
def step (s : State) : Host.Outcome State Fault Refusal :=
  stepOf binary32Format (fun i _ => exec i) s

/-- `s` with the instruction given by its low `nbits` bits issued by the host next, so that the next
step runs it (log entry 4). -/
def State.withFetchWord (s : State) (nbits w : Nat) : State :=
  presentCommand (commandOfBits nbits w) s

end Sys2Proof.Machine
end

