-- ==== Sys2Proof/Machine/AnyNum.lean ====
section
/-!
DEFINITION. The machine with `NUM` and the interpolator as arguments (00_scope.md rules R7 and R12;
93_implementation_defined.md I5), and its `NUM = Real` case. The machine of Core.lean is its
`NUM = Binary32` case (`step_is_binary32_machine`).
-/

namespace Sys2Proof.Machine

variable {F S D : Type} (N : Format F S D) (P : Params F)

/-- What each instruction does under the format `N` and the interpolator `P`; `d` is the data word the
instruction came with, from which a `TRL.CSRW` takes its value (10_state.md R26, 43_csr_access.md
R234). -/
def execOf (i : Instr) (d : D) (s : State.Of F S D) : Host.Outcome (State.Of F S D) Fault Refusal :=
  match i with
  | .trlReset => .next (trlReset N s)
  | .trlConfig => .next (trlConfig N s)
  | .trlForecast n => .next (trlForecast N P n s)
  | .trlProcess => trlProcess N P s
  | .trlCsrr csr => .next (trlCsrr N P csr s)
  | .trlCsrw csr _ => .next (trlCsrw N csr d s)
  | .accReset => .next (accUpdate N Acc.reset s)
  | .accConfig => .next (accLoad N s.acc.configure s)
  | .accSetCode => .next (accLoad N (s.acc.loadCode s.acc.codeLen.toNat) s)
  | .accSetThreshold t => .next (accUpdate N { s.acc with threshold := t } s)
  | .accSetDetectInv b => .next (accUpdate N { s.acc with detectInv := b } s)
  | .accProcess => accProcess N s
  | .accCsrr csr => .next (accCsrr N csr s)
  | .accCsrw csr d => .next (accCsrw N csr d s)

/-- The machine right after power-on reset (70_reset_and_hazards.md R290), every field of `F` at the
format's 0. -/
def resetOf : State.Of F S D :=
  { trl := Trl.reset N.num.zero, acc := Acc.reset, bufs := BuffersOf.unfilled N.empty,
    response := none, inputs := [] }

/-- The machine with `NUM` and the interpolator as arguments. -/
def machine : Host.Core :=
  { State := State.Of F S D, Fault := Fault, Refusal := Refusal,
    step := stepOf N (execOf N P), reset := resetOf N }

/-- The machine with `NUM = Real`, over the reals or any other ordered field with a floor;
`INTERP_TAPS` is its argument (log entries 1 and 21). -/
def realMachine (F : Type) [Field F] [LinearOrder F] [FloorRing F] (taps : Nat → Nat → F) :
    Host.Core :=
  machine (exactFormat F) (exactParams taps)

end Sys2Proof.Machine
end

