-- ==== Sys2Proof/Safety.lean ====
section
/-!
DEFINITION. What claims about the machine speak of: the invariants of 10_state.md rules R24, R25, R42
and R43 and of the buffers' canonical form, the value of a binary32 encoding as a rational, a chain of
committed symbol steps (41_timing_recovery.md rules R130 to R132), a stream of bit steps
(42_access_code_correlator.md rule R186), and the parts of the state each unit owns (20_memory.md rule
R82).
-/

namespace Sys2Proof.Machine

/-- The value of a finite binary32 encoding (00_scope.md R12). -/
def f32Value (x : F32) : ℚ := (f32Units x : ℚ) / 2 ^ 149

/-- 10_state.md R42 for `NUM = Binary32`: what `T.MODE = READY` implies. -/
abbrev Trl.ReadyInv (t : Trl F32) : Prop :=
  t.mode = .ready →
    (f32IsFinite t.mu = true ∧ f32IsFinite t.omega = true ∧ f32IsFinite t.omegaMid = true
      ∧ f32IsFinite t.omegaLim = true ∧ f32IsFinite t.lastSample = true
      ∧ f32IsFinite t.gainMu = true ∧ f32IsFinite t.gainOmega = true
      ∧ f32IsFinite t.relLimit = true)
    ∧ 1 ≤ f32Value t.omegaMid ∧ 0 ≤ f32Value t.gainMu ∧ 0 ≤ f32Value t.gainOmega
    ∧ 0 ≤ f32Value t.relLimit ∧ f32Value t.relLimit < 1
    ∧ 0 < f32Value t.omega
    ∧ 0 ≤ f32Value t.mu ∧ f32Value t.mu ≤ 1
    ∧ 1 ≤ t.passCount.toNat

/-- 10_state.md R43. -/
abbrev Acc.CodeInv (a : Acc) : Prop :=
  a.len.toNat ≤ 64
    ∧ (∀ j : Fin 64, a.mask.getLsbD j.val = decide (64 - a.len.toNat ≤ j.val))
    ∧ a.accessCode &&& ~~~a.mask = 0#64
    ∧ a.invAccessCode = ~~~a.accessCode
    ∧ a.flagBit = 1#64

/-- The reserved bits of `STATUS`, `IRQ_EN` and `CTRL` read 0 (10_state.md R24, R25). -/
abbrev State.ReservedZero (s : State) : Prop :=
  s.trl.status &&& ~~~trlStatusBits = 0#32 ∧ s.trl.irqEn &&& ~~~trlStatusBits = 0#32
    ∧ s.trl.ctrl &&& ~~~ctrlBits = 0#32
    ∧ s.acc.status &&& ~~~accStatusBits = 0#32 ∧ s.acc.irqEn &&& ~~~accStatusBits = 0#32

/-- `NTAPS` samples of `TRL_IN` from the cursor on (41_timing_recovery.md R141), in any format. -/
def State.Of.windowOf {F S D : Type} (N : Format F S D) (s : State.Of F S D) (cursor ntaps : Nat) :
    List F :=
  (List.range ntaps).map fun j => N.readElem s.bufs.trlIn (cursor + j)

/-- The same of this machine. -/
abbrev State.window (s : State) (cursor ntaps : Nat) : List F32 :=
  s.windowOf binary32Format cursor ntaps

/-- `SymbolRun P limit n k s k' s'`: from call context `k` and state `s`, the guard of
41_timing_recovery.md R131 admits `n` symbol steps in a row (R140 to R148), each of them commits
(R132), and they lead to `k'` and `s'`. -/
inductive SymbolRun (P : Params F32) (limit : Nat) :
    Nat → TrlCall → State → TrlCall → State → Prop where
  /-- no step -/
  | stay (k : TrlCall) (s : State) : SymbolRun P limit 0 k s k s
  /-- one committed step, and the rest -/
  | step {n : Nat} {k k1 k2 : TrlCall} {s s1 s2 : State} {v : SymbolValues F32}
      (guard : s.trl.guard P.ntaps limit k = true)
      (values : s.trl.symbolStep binary32 P (s.window k.cursor P.ntaps) = some v)
      (commit : commitStep binary32Format k v s = .ok (k1, s1))
      (rest : SymbolRun P limit n k1 s1 k2 s2) :
      SymbolRun P limit (n + 1) k s k2 s2

/-- The state of unit ACC after a stream of bit steps (42_access_code_correlator.md R186, R213). -/
def Acc.run (a : Acc) : List Bool → Acc
  | [] => a
  | b :: bs => Acc.run (a.bitStep b) bs

/-- The output units of a stream of bit steps (42_access_code_correlator.md R186, R200). -/
def Acc.outputs (a : Acc) : List Bool → List Byte
  | [] => []
  | b :: bs => a.output :: Acc.outputs (a.bitStep b) bs

/-- The first `n` input bits of `ACC_IN`: bit 0 of each unit (42_access_code_correlator.md R186). -/
def State.inputBits (s : State) (n : Nat) : List Bool :=
  (List.range n).map fun i => (Memory.read s.bufs.accIn i).getLsbD 0

/-- The first `n` units of `ACC_OUT`. -/
def State.outputUnits (s : State) (n : Nat) : List Byte :=
  (List.range n).map fun i => Memory.read s.bufs.accOut i

/-- Two states agree on all that a unit owns or that its commands reach: its fields and CSRs and its
buffers (20_memory.md R79, R82). -/
def AgreeOn (u : UnitId) (s t : State) : Prop :=
  match u with
  | .trl => s.trl = t.trl ∧ s.bufs.trlIn = t.bufs.trlIn ∧ s.bufs.trlSym = t.bufs.trlSym
      ∧ s.bufs.trlPass = t.bufs.trlPass ∧ s.bufs.trlOmega = t.bufs.trlOmega
      ∧ s.bufs.trlMu = t.bufs.trlMu
  | .acc => s.acc = t.acc ∧ s.bufs.accIn = t.bufs.accIn ∧ s.bufs.accOut = t.bufs.accOut

/-- The CSR numbers of unit TRL (10_state.md R23). -/
def trlNumbers : List Nat :=
  [0x000, 0x001, 0x002, 0x003, 0x004, 0x005, 0x006, 0x010, 0x011, 0x012, 0x013, 0x014,
   0x020, 0x021, 0x022, 0x023, 0x024, 0x025, 0x026, 0x027, 0x028, 0x029,
   0x030, 0x031, 0x032, 0x033, 0x034, 0x038, 0x039, 0x03A, 0x03B, 0x03C, 0x040, 0x041]

/-- The CSR numbers of unit ACC less `CODESTR` (10_state.md R28). -/
def accNumbers : List Nat :=
  [0x002, 0x003, 0x005, 0x006, 0x010, 0x011, 0x012,
   0x020, 0x021, 0x022, 0x023, 0x024, 0x025, 0x026, 0x027, 0x028, 0x029, 0x02A,
   0x030, 0x031, 0x038, 0x039, 0x040, 0x041, 0x042]

/-- The read-only CSR numbers of unit TRL (10_state.md R23, 43_csr_access.md R233). -/
def trlReadOnlyNumbers : List Nat :=
  [0x000, 0x001, 0x005, 0x006,
   0x020, 0x021, 0x022, 0x023, 0x024, 0x025, 0x026, 0x027, 0x028, 0x029,
   0x038, 0x039, 0x03A, 0x03B, 0x03C, 0x040, 0x041]

/-- The read-only CSR numbers of unit ACC (10_state.md R28, 43_csr_access.md R233). -/
def accReadOnlyNumbers : List Nat :=
  [0x005, 0x006, 0x020, 0x021, 0x022, 0x023, 0x024, 0x025, 0x026, 0x027, 0x028, 0x029, 0x02A,
   0x038, 0x039, 0x040, 0x041, 0x042]

/-- The test of `TRL.CONFIG` on the staging CSRs, on their values (41_timing_recovery.md R122; the
comparisons `flt` of finite encodings are those of their values, 00_scope.md R12). -/
abbrev trlConfigTest (t : Trl F32) : Prop :=
  f32IsFinite t.cfgOmega0 = true ∧ f32IsFinite t.cfgGainMu = true
  ∧ f32IsFinite t.cfgGainOmega = true ∧ f32IsFinite t.cfgRelLimit = true
  ∧ f32IsFinite t.cfgMu0 = true
  ∧ ¬ f32Value t.cfgOmega0 < 1 ∧ ¬ f32Value t.cfgGainMu < 0 ∧ ¬ f32Value t.cfgGainOmega < 0
  ∧ ¬ f32Value t.cfgRelLimit < 0 ∧ f32Value t.cfgRelLimit < 1
  ∧ ¬ f32Value t.cfgMu0 < 0 ∧ f32Value t.cfgMu0 < 1

/-- How a command of unit `u` ends by `raise c` (60_exceptions.md R252), written out. -/
def raised (u : UnitId) (c : Code) (bit : Word) (s : State) : State :=
  match u with
  | .trl => { s with trl := { s.trl with status := s.trl.status ||| bit, lastCode := c },
                     response := some ⟨c, 0#64⟩ }
  | .acc => { s with acc := { s.acc with status := s.acc.status ||| bit, lastCode := c },
                     response := some ⟨c, 0#64⟩ }

/-- The unit the command does not name. -/
def otherUnit : UnitId → UnitId
  | .trl => .acc
  | .acc => .trl

end Sys2Proof.Machine
end

