-- ==== Sys2Proof/Certificates/Slice0/Obligations.lean ====
section
/-!
DEFINITION. The statements for the provers. Each docstring names the rule of spec/ it formalises, or
says that it is derived and from what. Statements over all states hold in states no run reaches too,
unless an invariant stands among their premises; the invariants are statements of their own.
-/

open Sys2Proof Sys2Proof.Machine

/-! ### Encoding and decoding -/

/-- Derived from 30_encoding.md R92, R94, R95: decoding an encoded command gives it back, with every
operand at every value. -/
def Obligations.DecodeOfEncode : Prop :=
  ∀ i : Instr, decode (encode i) = .instr i

/-- Derived from 30_encoding.md R94, R95: each command has one word `W`, and of `D` only the operand's
bits count. -/
def Obligations.DecodedCommandHasOneWord : Prop :=
  ∀ (c : Command) (i : Instr), decode c = .instr i →
    c.w = (encode i).w ∧
    (match i with
      | .trlForecast _ => c.d &&& 0x00000000FFFFFFFF#64
      | .accSetThreshold _ => c.d &&& 0x00000000FFFFFFFF#64
      | .accSetDetectInv _ => c.d &&& 0x1#64
      | .trlCsrw _ _ => c.d
      | .accCsrw _ _ => c.d
      | _ => 0#64) = (encode i).d

/-- Derived from 30_encoding.md R96, R97: every command word is either one of the encodings or illegal. The four checks
on the left are written on the word's number; the decoder on the right takes it apart by bits. -/
def Obligations.DecodeAcceptsExactlyWellFormed : Prop :=
  ∀ c : Command, c.wellFormed = true ↔ ∃ i, decode c = .instr i

/-- 30_encoding.md R101, all of its words. -/
def Obligations.WorkedEncodings : Prop :=
  decode ⟨0x14020000#32, 0#64⟩ = .instr (.trlCsrr 0x020#12)
  ∧ encode (.trlCsrr 0x020#12) = ⟨0x14020000#32, 0#64⟩
  ∧ decode ⟨0x27103000#32, 0x31#64⟩ = .instr (.accCsrw 0x103#12 0x31#64)
  ∧ encode (.accCsrw 0x103#12 0x31#64) = ⟨0x27103000#32, 0x31#64⟩
  ∧ decode ⟨0x12000000#32, 0x000000000000000A#64⟩ = .instr (.trlForecast 10#32)
  ∧ encode (.trlForecast 10#32) = ⟨0x12000000#32, 0x000000000000000A#64⟩
  ∧ (∀ d, decode ⟨0x13000001#32, d⟩ = .illegal .trl)
  ∧ (∀ d, decode ⟨0x11005000#32, d⟩ = .illegal .trl)
  ∧ (∀ d, decode ⟨0x16000000#32, d⟩ = .illegal .trl)
  ∧ (∀ d, decode ⟨0x30000000#32, d⟩ = .badUnit)

/-! ### The step -/

/-- Derived from 30_encoding.md R90, R96: a step whose next host action issues a command that decodes
to `i` is `exec i`, on the machine with that action taken off the list. -/
def Obligations.StepRunsDecodedCommand : Prop :=
  ∀ (s : State) (c : Command) (rest : List HostInput) (i : Instr),
    s.inputs = .issue c :: rest → decode c = .instr i →
    step s = exec i { s with inputs := rest }

/-- Derived from 60_exceptions.md R254 and 30_encoding.md R96: with a bad `UNIT` field only the response changes. -/
def Obligations.BadUnitOnlyResponds : Prop :=
  ∀ (s : State) (c : Command) (rest : List HostInput),
    s.inputs = .issue c :: rest →
    c.w.toNat / 2 ^ 28 ≠ 1 → c.w.toNat / 2 ^ 28 ≠ 2 →
    step s = .next { s with inputs := rest, response := some ⟨.illegalCmd, 0#64⟩ }

/-- Derived from 30_encoding.md R96 and 60_exceptions.md R252: a word with a valid `UNIT` that fails one
of the other checks raises `ILLEGAL_CMD` in that unit, and nothing else changes. -/
def Obligations.IllegalCommandRaisesInItsUnit : Prop :=
  ∀ (s : State) (c : Command) (rest : List HostInput),
    s.inputs = .issue c :: rest →
    (c.opOk && c.zeroOk && c.csrOk) = false →
    (c.w.toNat / 2 ^ 28 = 1 →
      step s = .next (raised .trl .illegalCmd 0x1#32 { s with inputs := rest }))
    ∧ (c.w.toNat / 2 ^ 28 = 2 →
      step s = .next (raised .acc .illegalCmd 0x1#32 { s with inputs := rest }))

/-- Derived from 70_reset_and_hazards.md R290, R291 and 60_exceptions.md R275, through the model's own
list of host actions (log entries 4 and 12): with no action listed the machine waits, unchanged; a
listed power-on reset is carried out on the machine with it taken off the list. -/
def Obligations.WaitsOrResetsAsTheHostActs : Prop :=
  ∀ s : State,
    (s.inputs = [] → step s = .next s)
    ∧ (∀ rest : List HostInput, s.inputs = .powerOn :: rest →
        step s = .next (powerOnReset binary32Format { s with inputs := rest }))

/-- Derived from 20_memory.md R71, R81, through the model's own list of host actions (log entry 4): the
host's write of one element is what a read of it gives, and nothing else of the machine changes. -/
def Obligations.HostFillWritesOneElement : Prop :=
  ∀ (s : State) (b : BufferId) (i : Nat) (v : DWord) (rest : List HostInput),
    s.inputs = .fill b i v :: rest → s.bufs.wf = true →
    ∃ t, step s = .next t
      ∧ t.trl = s.trl ∧ t.acc = s.acc ∧ t.response = s.response ∧ t.inputs = rest
      ∧ (b.elemBytes = 4 → Memory.readF (t.bufs.get b) i = v.setWidth 32)
      ∧ (b.elemBytes = 1 → Memory.read (t.bufs.get b) i = v.setWidth 8)
      ∧ (∀ a, a < b.elemBytes * i ∨ b.elemBytes * i + b.elemBytes ≤ a →
          Memory.read (t.bufs.get b) a = Memory.read (s.bufs.get b) a)
      ∧ (∀ c, c ≠ b → t.bufs.get c = s.bufs.get c)

/-- Derived (safety) from 20_memory.md R72 and 60_exceptions.md R250: no step faults and none is refused,
from any state at all, of this machine or of the machine with any other numeric format and interpolator.
In particular no unit accesses an element past a buffer's length. -/
def Obligations.EveryStepAnswersNext : Prop :=
  (∀ s : State, ∃ t, step s = .next t)
  ∧ (∀ (F S D : Type) (N : Format F S D) (P : Params F) (s : State.Of F S D),
      ∃ t, stepOf N (execOf N P) s = .next t)

/-! ### Reset -/

/-- 70_reset_and_hazards.md R290: the value of every field and CSR after each kind of reset, and that
the stream buffers are not touched. (What becomes of the last response at a power-on reset is the
model's choice, log entry 12, and is not claimed here.) -/
def Obligations.ResetGivesTheResetValues : Prop :=
  let z : F32 := 0x00000000#32
  let trl0 : Trl F32 :=
    { mu := z, omega := z, omegaMid := z, omegaLim := z, lastSample := z, gainMu := z,
      gainOmega := z, relLimit := z, passCount := 0#32, skip := 0#64, mode := .unconfigured,
      symbolCount := 0#64, underflowCount := 0#64, status := 0#32, irqEn := 0#32, ctrl := 0#32,
      lastCode := .ok, cfgOmega0 := z, cfgGainMu := z, cfgGainOmega := z, cfgRelLimit := z,
      cfgMu0 := z, inCount := 0#32, capSym := 0#32, capPass := 0#32, capOmega := 0#32,
      capMu := 0#32, consumed := 0#32, prodSym := 0#32, prodPass := 0#32, prodOmega := 0#32,
      prodMu := 0#32 }
  let acc0 : Acc :=
    { dataReg := 0#64, flagReg := 0#64, invertReg := 0#64, accessCode := 0#64,
      invAccessCode := 0xFFFFFFFFFFFFFFFF#64, mask := 0#64, flagBit := 0x0000000000000001#64,
      len := 0#7, threshold := 0#32, invert := false, detectInv := false, mode := .unconfigured,
      bitCount := 0#64, ambigCount := 0#64, lastAmbigBit := 0#64, status := 0#32, irqEn := 0#32,
      lastCode := .ok, cfgThreshold := 0#32, cfgDetectInv := false, codeLen := 0#32,
      codeStr := Vector.replicate 64 0x00#8, inCount := 0#32, capOut := 0#32, consumed := 0#32,
      produced := 0#32 }
  State.reset.trl = trl0 ∧ State.reset.acc = acc0
  ∧ irqTrl State.reset = false ∧ irqAcc State.reset = false
  ∧ (∀ s : State, (powerOnReset binary32Format s).trl = trl0 ∧ (powerOnReset binary32Format s).acc = acc0
      ∧ (powerOnReset binary32Format s).bufs = s.bufs
      ∧ irqTrl (powerOnReset binary32Format s) = false ∧ irqAcc (powerOnReset binary32Format s) = false)
  ∧ (∀ s : State, exec .trlReset s =
      .next { s with trl := trl0, response := some ⟨.ok, 0#64⟩ })
  ∧ (∀ s : State, exec .accReset s =
      .next { s with acc := acc0, response := some ⟨.ok, 0#64⟩ })

/-! ### CSR access -/

/-- Derived from 10_state.md R23, R26 and 43_csr_access.md R230, R236: `TRL.CSRR` of each CSR of the map
answers its value as it was before the command, zero-extended, and then only `LAST_CODE` changes. Under
`NUM = Real` the data word answered carries the value of an `F` CSR as a number. -/
def Obligations.TrlCsrrReadsTheMap : Prop :=
  (∀ s : State, ∀ row ∈ ([
      (0x000#12, BitVec.ofNat 64 Config.ntaps), (0x001#12, BitVec.ofNat 64 Config.nsteps),
      (0x002#12, s.trl.status.setWidth 64), (0x003#12, s.trl.irqEn.setWidth 64),
      (0x004#12, s.trl.ctrl.setWidth 64),
      (0x005#12, match s.trl.mode with | .unconfigured => 0#64 | .ready => 1#64 | .faulted => 2#64),
      (0x006#12, match s.trl.lastCode with
        | .ok => 0#64 | .illegalCmd => 1#64 | .invalidParam => 2#64 | .notReady => 3#64
        | .numericFault => 4#64),
      (0x010#12, s.trl.cfgOmega0.setWidth 64), (0x011#12, s.trl.cfgGainMu.setWidth 64),
      (0x012#12, s.trl.cfgGainOmega.setWidth 64), (0x013#12, s.trl.cfgRelLimit.setWidth 64),
      (0x014#12, s.trl.cfgMu0.setWidth 64),
      (0x020#12, s.trl.omega.setWidth 64), (0x021#12, s.trl.omegaMid.setWidth 64),
      (0x022#12, s.trl.omegaLim.setWidth 64), (0x023#12, s.trl.mu.setWidth 64),
      (0x024#12, s.trl.lastSample.setWidth 64), (0x025#12, s.trl.gainMu.setWidth 64),
      (0x026#12, s.trl.gainOmega.setWidth 64), (0x027#12, s.trl.relLimit.setWidth 64),
      (0x028#12, s.trl.passCount.setWidth 64), (0x029#12, s.trl.skip),
      (0x030#12, s.trl.inCount.setWidth 64), (0x031#12, s.trl.capSym.setWidth 64),
      (0x032#12, s.trl.capPass.setWidth 64), (0x033#12, s.trl.capOmega.setWidth 64),
      (0x034#12, s.trl.capMu.setWidth 64),
      (0x038#12, s.trl.consumed.setWidth 64), (0x039#12, s.trl.prodSym.setWidth 64),
      (0x03A#12, s.trl.prodPass.setWidth 64), (0x03B#12, s.trl.prodOmega.setWidth 64),
      (0x03C#12, s.trl.prodMu.setWidth 64),
      (0x040#12, s.trl.symbolCount), (0x041#12, s.trl.underflowCount)]
      : List (BitVec 12 × DWord)),
    exec (.trlCsrr row.1) s =
      .next { s with trl := { s.trl with lastCode := .ok }, response := some ⟨.ok, row.2⟩ })
  ∧ (∀ (F : Type) [Field F] [LinearOrder F] [FloorRing F] (taps : Nat → Nat → F) (d : RealWord F)
      (s : State.Of F (List (Nat × F)) (RealWord F)), ∀ row ∈ ([
      (0x010#12, s.trl.cfgOmega0), (0x011#12, s.trl.cfgGainMu), (0x012#12, s.trl.cfgGainOmega),
      (0x013#12, s.trl.cfgRelLimit), (0x014#12, s.trl.cfgMu0),
      (0x020#12, s.trl.omega), (0x021#12, s.trl.omegaMid), (0x022#12, s.trl.omegaLim),
      (0x023#12, s.trl.mu), (0x024#12, s.trl.lastSample), (0x025#12, s.trl.gainMu),
      (0x026#12, s.trl.gainOmega), (0x027#12, s.trl.relLimit)] : List (BitVec 12 × F)),
    ∃ r : RealWord F, r.value = row.2
      ∧ execOf (exactFormat F) (exactParams taps) (.trlCsrr row.1) d s =
        .next { s with trl := { s.trl with lastCode := .ok }, response := some ⟨.ok, r⟩ })

/-- Derived from 10_state.md R28 and 43_csr_access.md R230, R236: `ACC.CSRR` of each CSR of the map. -/
def Obligations.AccCsrrReadsTheMap : Prop :=
  ∀ s : State, (∀ row ∈ ([
      (0x002#12, s.acc.status.setWidth 64), (0x003#12, s.acc.irqEn.setWidth 64),
      (0x005#12, match s.acc.mode with | .unconfigured => 0#64 | .ready => 1#64),
      (0x006#12, match s.acc.lastCode with
        | .ok => 0#64 | .illegalCmd => 1#64 | .invalidParam => 2#64 | .notReady => 3#64
        | .numericFault => 4#64),
      (0x010#12, s.acc.cfgThreshold.setWidth 64),
      (0x011#12, if s.acc.cfgDetectInv then 1#64 else 0#64), (0x012#12, s.acc.codeLen.setWidth 64),
      (0x020#12, s.acc.dataReg), (0x021#12, s.acc.flagReg), (0x022#12, s.acc.invertReg),
      (0x023#12, s.acc.accessCode), (0x024#12, s.acc.invAccessCode), (0x025#12, s.acc.mask),
      (0x026#12, s.acc.len.setWidth 64), (0x027#12, s.acc.threshold.setWidth 64),
      (0x028#12, if s.acc.invert then 1#64 else 0#64),
      (0x029#12, if s.acc.detectInv then 1#64 else 0#64), (0x02A#12, s.acc.flagBit),
      (0x030#12, s.acc.inCount.setWidth 64), (0x031#12, s.acc.capOut.setWidth 64),
      (0x038#12, s.acc.consumed.setWidth 64), (0x039#12, s.acc.produced.setWidth 64),
      (0x040#12, s.acc.bitCount), (0x041#12, s.acc.ambigCount), (0x042#12, s.acc.lastAmbigBit)]
      : List (BitVec 12 × DWord)),
    exec (.accCsrr row.1) s =
      .next { s with acc := { s.acc with lastCode := .ok }, response := some ⟨.ok, row.2⟩ })
  ∧ ∀ i : Fin 64, exec (.accCsrr (BitVec.ofNat 12 (0x100 + i.val))) s =
      .next { s with acc := { s.acc with lastCode := .ok },
                     response := some ⟨.ok, (s.acc.codeStr[i]).setWidth 64⟩ }

/-- 43_csr_access.md R232: a number not listed for the unit raises `ILLEGAL_CMD` for a read and for a
write, and nothing but `LAST_CODE`, the `STATUS` bit and the response changes. -/
def Obligations.UnknownCsrRaisesIllegal : Prop :=
  (∀ (n : BitVec 12) (d : DWord) (s : State), n.toNat ∉ trlNumbers →
    exec (.trlCsrr n) s = .next (raised .trl .illegalCmd 0x1#32 s)
    ∧ exec (.trlCsrw n d) s = .next (raised .trl .illegalCmd 0x1#32 s))
  ∧ (∀ (n : BitVec 12) (d : DWord) (s : State),
    n.toNat ∉ accNumbers → (n.toNat < 0x100 ∨ 0x13F < n.toNat) →
    exec (.accCsrr n) s = .next (raised .acc .illegalCmd 0x1#32 s)
    ∧ exec (.accCsrw n d) s = .next (raised .acc .illegalCmd 0x1#32 s))

/-- 43_csr_access.md R233: a write to a read-only CSR raises `ILLEGAL_CMD` and changes no CSR but
`LAST_CODE` and `STATUS`. -/
def Obligations.ReadOnlyWriteRaisesIllegal : Prop :=
  (∀ (n : BitVec 12) (d : DWord) (s : State), n.toNat ∈ trlReadOnlyNumbers →
    exec (.trlCsrw n d) s = .next (raised .trl .illegalCmd 0x1#32 s))
  ∧ (∀ (n : BitVec 12) (d : DWord) (s : State), n.toNat ∈ accReadOnlyNumbers →
    exec (.accCsrw n d) s = .next (raised .acc .illegalCmd 0x1#32 s))

/-- Derived from 43_csr_access.md R231, R234, R237 and 10_state.md R25, R26: `TRL.CSRW` of each
read-write CSR stores the truncated value there, reserved bits as 0, completes with `OK`, and changes
nothing else. Under `NUM = Real` an `F` CSR takes the number the data word carries, and any other its
bits. -/
def Obligations.TrlCsrwStoresTruncated : Prop :=
  (∀ (s : State) (d : DWord), ∀ row ∈ ([
      (0x003#12, { s.trl with irqEn := d.setWidth 32 &&& 0x0000001F#32 }),
      (0x004#12, { s.trl with ctrl := d.setWidth 32 &&& 0x00000007#32 }),
      (0x010#12, { s.trl with cfgOmega0 := d.setWidth 32 }),
      (0x011#12, { s.trl with cfgGainMu := d.setWidth 32 }),
      (0x012#12, { s.trl with cfgGainOmega := d.setWidth 32 }),
      (0x013#12, { s.trl with cfgRelLimit := d.setWidth 32 }),
      (0x014#12, { s.trl with cfgMu0 := d.setWidth 32 }),
      (0x030#12, { s.trl with inCount := d.setWidth 32 }),
      (0x031#12, { s.trl with capSym := d.setWidth 32 }),
      (0x032#12, { s.trl with capPass := d.setWidth 32 }),
      (0x033#12, { s.trl with capOmega := d.setWidth 32 }),
      (0x034#12, { s.trl with capMu := d.setWidth 32 })] : List (BitVec 12 × Trl F32)),
    exec (.trlCsrw row.1 d) s =
      .next { s with trl := { row.2 with lastCode := .ok }, response := some ⟨.ok, 0#64⟩ })
  ∧ (∀ (F : Type) [Field F] [LinearOrder F] [FloorRing F] (taps : Nat → Nat → F) (d : RealWord F)
      (s : State.Of F (List (Nat × F)) (RealWord F)), ∀ row ∈ ([
      (0x003#12, { s.trl with irqEn := d.bits.setWidth 32 &&& 0x0000001F#32 }),
      (0x004#12, { s.trl with ctrl := d.bits.setWidth 32 &&& 0x00000007#32 }),
      (0x010#12, { s.trl with cfgOmega0 := d.value }),
      (0x011#12, { s.trl with cfgGainMu := d.value }),
      (0x012#12, { s.trl with cfgGainOmega := d.value }),
      (0x013#12, { s.trl with cfgRelLimit := d.value }),
      (0x014#12, { s.trl with cfgMu0 := d.value }),
      (0x030#12, { s.trl with inCount := d.bits.setWidth 32 }),
      (0x031#12, { s.trl with capSym := d.bits.setWidth 32 }),
      (0x032#12, { s.trl with capPass := d.bits.setWidth 32 }),
      (0x033#12, { s.trl with capOmega := d.bits.setWidth 32 }),
      (0x034#12, { s.trl with capMu := d.bits.setWidth 32 })] : List (BitVec 12 × Trl F)),
    ∃ r : RealWord F, r.bits = 0#64
      ∧ execOf (exactFormat F) (exactParams taps) (.trlCsrw row.1 d.bits) d s =
        .next { s with trl := { row.2 with lastCode := .ok }, response := some ⟨.ok, r⟩ })

/-- Derived from 43_csr_access.md R231, R234, R237 and 10_state.md R24, R28: `ACC.CSRW` of each
read-write CSR, `CODESTR` included. -/
def Obligations.AccCsrwStoresTruncated : Prop :=
  ∀ (s : State) (d : DWord), (∀ row ∈ ([
      (0x003#12, { s.acc with irqEn := d.setWidth 32 &&& 0x00000027#32 }),
      (0x010#12, { s.acc with cfgThreshold := d.setWidth 32 }),
      (0x011#12, { s.acc with cfgDetectInv := d.getLsbD 0 }),
      (0x012#12, { s.acc with codeLen := d.setWidth 32 }),
      (0x030#12, { s.acc with inCount := d.setWidth 32 }),
      (0x031#12, { s.acc with capOut := d.setWidth 32 })] : List (BitVec 12 × Acc)),
    exec (.accCsrw row.1 d) s =
      .next { s with acc := { row.2 with lastCode := .ok }, response := some ⟨.ok, 0#64⟩ })
  ∧ ∀ i : Fin 64, exec (.accCsrw (BitVec.ofNat 12 (0x100 + i.val)) d) s =
      .next { s with
        acc := { s.acc with codeStr := s.acc.codeStr.set i (d.setWidth 8), lastCode := .ok },
        response := some ⟨.ok, 0#64⟩ }

/-- 43_csr_access.md R235: `STATUS` is write-one-to-clear in both units; the write sets no bit; and 0x3F
clears every bit the unit has. -/
def Obligations.StatusIsWriteOneToClear : Prop :=
  ∀ (s : State) (d : DWord),
    exec (.trlCsrw 0x002#12 d) s =
      .next { s with
        trl := { s.trl with status := s.trl.status &&& ~~~(d.setWidth 32), lastCode := .ok },
        response := some ⟨.ok, 0#64⟩ }
    ∧ exec (.accCsrw 0x002#12 d) s =
      .next { s with
        acc := { s.acc with status := s.acc.status &&& ~~~(d.setWidth 32), lastCode := .ok },
        response := some ⟨.ok, 0#64⟩ }
    ∧ (s.ReservedZero →
        s.trl.status &&& ~~~(0x3F#64).setWidth 32 = 0#32
        ∧ s.acc.status &&& ~~~(0x3F#64).setWidth 32 = 0#32)

/-! ### Construction and setters -/

/-- 41_timing_recovery.md R123: what a `TRL.CONFIG` whose test holds writes, and that it writes nothing
else. `PASS_COUNT` is the floor of the exact value, saturated. -/
def Obligations.TrlConfigConstructs : Prop :=
  ∀ s : State, trlConfigTest s.trl →
    exec .trlConfig s = .next { s with
      trl := { s.trl with
        omegaMid := s.trl.cfgOmega0, omega := s.trl.cfgOmega0,
        omegaLim := f32Mul s.trl.cfgOmega0 s.trl.cfgRelLimit,
        mu := s.trl.cfgMu0, lastSample := 0x00000000#32,
        gainMu := s.trl.cfgGainMu, gainOmega := s.trl.cfgGainOmega, relLimit := s.trl.cfgRelLimit,
        passCount := BitVec.ofNat 32 (min ⌊f32Value s.trl.cfgOmega0⌋.toNat (2 ^ 32 - 1)),
        skip := 0#64, symbolCount := 0#64, underflowCount := 0#64,
        consumed := 0#32, prodSym := 0#32, prodPass := 0#32, prodOmega := 0#32, prodMu := 0#32,
        mode := .ready, lastCode := .ok },
      response := some ⟨.ok, 0#64⟩ }

/-- Derived from 41_timing_recovery.md R122: a `TRL.CONFIG` whose test fails raises `INVALID_PARAM` and changes
nothing else; one whose test holds completes with `OK`; and the limit product is finite whenever the
other tests hold. -/
def Obligations.TrlConfigRejectsBadParameters : Prop :=
  ∀ s : State,
    (¬ trlConfigTest s.trl → exec .trlConfig s = .next (raised .trl .invalidParam 0x2#32 s))
    ∧ (trlConfigTest s.trl →
        f32IsFinite (f32Mul s.trl.cfgOmega0 s.trl.cfgRelLimit) = true
        ∧ ∃ t, exec .trlConfig s = .next t ∧ t.response = some ⟨.ok, 0#64⟩)

/-- Derived from 42_access_code_correlator.md R182, R183: `ACC.CONFIG` of a length up to 64 constructs the correlator
and `ACC.SET_CODE`, in every mode, writes the code fields only; of a greater length each raises
`INVALID_PARAM`; nothing else changes. The code fields are those of `load_code`, of which
`LoadCodeDerivesTheFields` speaks. -/
def Obligations.AccConfigAndSetCodeLoadTheCode : Prop :=
  ∀ s : State,
    (s.acc.codeLen.toNat ≤ 64 →
      exec .accConfig s = .next { s with
        acc := { s.acc.loadCode s.acc.codeLen.toNat with
          threshold := s.acc.cfgThreshold, detectInv := s.acc.cfgDetectInv,
          dataReg := 0#64, flagReg := 0#64, invertReg := 0#64, invert := false,
          bitCount := 0#64, ambigCount := 0#64, lastAmbigBit := 0#64,
          consumed := 0#32, produced := 0#32, mode := .ready, lastCode := .ok },
        response := some ⟨.ok, 0#64⟩ }
      ∧ exec .accSetCode s = .next { s with
        acc := { s.acc.loadCode s.acc.codeLen.toNat with lastCode := .ok },
        response := some ⟨.ok, 0#64⟩ })
    ∧ (64 < s.acc.codeLen.toNat →
      exec .accConfig s = .next (raised .acc .invalidParam 0x2#32 s)
      ∧ exec .accSetCode s = .next (raised .acc .invalidParam 0x2#32 s))

/-- Derived from 42_access_code_correlator.md R184, R185 and 30_encoding.md R94, R95: the two setters store
`D[31:0]` and `D[0]`, in every mode, and change nothing else, the polarity and the staging CSRs
included. Said of the commands as `exec` takes them and as the host issues them. -/
def Obligations.AccSettersStoreTheirOperand : Prop :=
  ∀ s : State,
    (∀ t : Word, exec (.accSetThreshold t) s = .next { s with
        acc := { s.acc with threshold := t, lastCode := .ok }, response := some ⟨.ok, 0#64⟩ })
    ∧ (∀ b : Bool, exec (.accSetDetectInv b) s = .next { s with
        acc := { s.acc with detectInv := b, lastCode := .ok }, response := some ⟨.ok, 0#64⟩ })
    ∧ (∀ (d : DWord) (rest : List HostInput),
      s.inputs = .issue ⟨0x23000000#32, d⟩ :: rest →
      step s = .next { s with
        inputs := rest, acc := { s.acc with threshold := d.setWidth 32, lastCode := .ok },
        response := some ⟨.ok, 0#64⟩ })
    ∧ (∀ (d : DWord) (rest : List HostInput),
      s.inputs = .issue ⟨0x24000000#32, d⟩ :: rest →
      step s = .next { s with
        inputs := rest, acc := { s.acc with detectInv := d.getLsbD 0, lastCode := .ok },
        response := some ⟨.ok, 0#64⟩ })

/-- 42_access_code_correlator.md R190, bit by bit: character `i` of the first `n` is bit `63 - i` of the
code, the mask has the top `n` bits, the complement is of all 64 bits, `FLAG_BIT` is 1, and no other
field changes. -/
def Obligations.LoadCodeDerivesTheFields : Prop :=
  ∀ (a : Acc) (n : Nat), n ≤ 64 →
    (a.loadCode n).len.toNat = n
    ∧ (∀ i : Fin 64, (a.loadCode n).accessCode.getLsbD (63 - i.val)
        = (decide (i.val < n) && (a.codeStr[i]).getLsbD 0))
    ∧ (∀ j : Fin 64, (a.loadCode n).mask.getLsbD j.val = decide (64 - n ≤ j.val))
    ∧ (∀ j : Fin 64, (a.loadCode n).invAccessCode.getLsbD j.val
        = !(a.loadCode n).accessCode.getLsbD j.val)
    ∧ (a.loadCode n).flagBit = 0x0000000000000001#64
    ∧ { a.loadCode n with
        len := a.len, accessCode := a.accessCode, mask := a.mask,
        invAccessCode := a.invAccessCode, flagBit := a.flagBit } = a

/-! ### Unit TRL: forecast and processing -/

/-- Derived from 41_timing_recovery.md R125 and 10_state.md R42: the forecast is the exact `ceil(N·omega) + NTAPS + SKIP`, saturated; a
unit that is not `READY` raises `NOT_READY`. -/
def Obligations.TrlForecastIsExactCeiling : Prop :=
  ∀ (s : State) (n : Word),
    (s.trl.mode = .ready → s.trl.ReadyInv →
      exec (.trlForecast n) s = .next { s with
        trl := { s.trl with lastCode := .ok },
        response := some ⟨.ok, BitVec.ofNat 64
          (min (⌈(n.toNat : ℚ) * f32Value s.trl.omega⌉.toNat + Config.ntaps + s.trl.skip.toNat)
            (2 ^ 32 - 1))⟩ })
    ∧ (s.trl.mode ≠ .ready →
      exec (.trlForecast n) s = .next (raised .trl .notReady 0x4#32 s))

/-- Derived from 41_timing_recovery.md R130, 42_access_code_correlator.md R186 and 60_exceptions.md R252,
R259: a `PROCESS` in a mode other than `READY` raises `NOT_READY` and changes nothing else, no buffer
included. -/
def Obligations.ProcessOutsideReadyRaises : Prop :=
  ∀ s : State,
    (s.trl.mode ≠ .ready → exec .trlProcess s = .next (raised .trl .notReady 0x4#32 s))
    ∧ (s.acc.mode ≠ .ready → exec .accProcess s = .next (raised .acc .notReady 0x4#32 s))

/-- Derived from 41_timing_recovery.md R130, R131, R133, R134, R153 and 60_exceptions.md R251: a `READY`
unit with no room for a symbol, or with input no longer than `SKIP + NTAPS`, runs no symbol step,
consumes what `SKIP` still covers, and completes with `OK`. -/
def Obligations.TrlInsufficientInputCompletesOk : Prop :=
  ∀ s : State, s.trl.mode = .ready →
    (s.trl.capSym = 0#32 ∨ s.trl.inCount.toNat ≤ s.trl.skip.toNat + Config.ntaps) →
    exec .trlProcess s = .next { s with
      trl := { s.trl with
        skip := BitVec.ofNat 64 (s.trl.skip.toNat
          - min s.trl.skip.toNat (s.trl.inputLimit binary32 Config.ntaps)),
        consumed := BitVec.ofNat 32
          (min s.trl.skip.toNat (s.trl.inputLimit binary32 Config.ntaps)),
        prodSym := 0#32, prodPass := 0#32, prodOmega := 0#32, prodMu := 0#32, lastCode := .ok },
      response := some ⟨.ok, 0#64⟩ }

/-- Derived from 41_timing_recovery.md R130 to R133, R147 and 60_exceptions.md R257, for any interpolator:
from a `READY` state, the chain of committed symbol steps ends in one of two ways. Where the guard
fails, `TRL.PROCESS` reports the counts and completes with `OK`. Where the guard holds and the step
faults, it commits nothing of that step, reports the counts of the steps before it, leaves
`T.MODE = FAULTED` and raises `NUMERIC_FAULT`. One of the two happens, for every state. -/
def Obligations.TrlProcessRunsItsSymbolSteps : Prop :=
  ∀ (P : Params F32) (s : State), s.trl.mode = .ready →
    ∃ (n : Nat) (k : TrlCall) (t : State),
      SymbolRun P (s.trl.inputLimit binary32 P.ntaps) n
        ⟨s.trl.skip.toNat, 0, 0, 0, 0⟩ s k t
      ∧ ((t.trl.guard P.ntaps (s.trl.inputLimit binary32 P.ntaps) k = false
          ∧ trlProcessWith P s = .next { t with
              trl := { t.trl with
                skip := BitVec.ofNat 64
                  (k.cursor - min k.cursor (s.trl.inputLimit binary32 P.ntaps)),
                consumed := BitVec.ofNat 32
                  (min k.cursor (s.trl.inputLimit binary32 P.ntaps)),
                prodSym := BitVec.ofNat 32 k.kSym, prodPass := BitVec.ofNat 32 k.kPass,
                prodOmega := BitVec.ofNat 32 k.kOmega, prodMu := BitVec.ofNat 32 k.kMu,
                lastCode := .ok },
              response := some ⟨.ok, 0#64⟩ })
        ∨ (t.trl.guard P.ntaps (s.trl.inputLimit binary32 P.ntaps) k = true
          ∧ t.trl.symbolStep binary32 P (t.window k.cursor P.ntaps) = none
          ∧ trlProcessWith P s = .next { t with
              trl := { t.trl with
                skip := BitVec.ofNat 64
                  (k.cursor - min k.cursor (s.trl.inputLimit binary32 P.ntaps)),
                consumed := BitVec.ofNat 32
                  (min k.cursor (s.trl.inputLimit binary32 P.ntaps)),
                prodSym := BitVec.ofNat 32 k.kSym, prodPass := BitVec.ofNat 32 k.kPass,
                prodOmega := BitVec.ofNat 32 k.kOmega, prodMu := BitVec.ofNat 32 k.kMu,
                mode := .faulted, status := t.trl.status ||| 0x8#32, lastCode := .numericFault },
              response := some ⟨.numericFault, 0#64⟩ }))

/-- Derived from 41_timing_recovery.md R130 to R133: `TRL.PROCESS`, from a `READY` state whose committed
symbol steps lead to where the guard fails, completes with `OK` and the counts of those steps: with any
interpolator, and in this hardware with its own. -/
def Obligations.TrlProcessCompletesAfterItsSteps : Prop :=
  ∀ (P : Params F32) (s t : State) (n : Nat) (k : TrlCall), s.trl.mode = .ready →
    SymbolRun P (s.trl.inputLimit binary32 P.ntaps) n ⟨s.trl.skip.toNat, 0, 0, 0, 0⟩ s k t →
    t.trl.guard P.ntaps (s.trl.inputLimit binary32 P.ntaps) k = false →
    let done : State := { t with
      trl := { t.trl with
        skip := BitVec.ofNat 64 (k.cursor - min k.cursor (s.trl.inputLimit binary32 P.ntaps)),
        consumed := BitVec.ofNat 32 (min k.cursor (s.trl.inputLimit binary32 P.ntaps)),
        prodSym := BitVec.ofNat 32 k.kSym, prodPass := BitVec.ofNat 32 k.kPass,
        prodOmega := BitVec.ofNat 32 k.kOmega, prodMu := BitVec.ofNat 32 k.kMu,
        lastCode := .ok },
      response := some ⟨.ok, 0#64⟩ }
    trlProcessWith P s = .next done ∧ (P = Config.params → exec .trlProcess s = .next done)

/-- 41_timing_recovery.md R132: where the guard admits a symbol step, committing it writes the symbol, the
passthrough copy, the rate and the phase, each where it is enabled, and no other byte of a buffer;
it updates the running fields, the counters and the underflow bit, and the call context. -/
def Obligations.CommitWritesOneSymbol : Prop :=
  ∀ (ntaps limit : Nat) (k : TrlCall) (v : SymbolValues F32) (s : State),
    s.trl.guard ntaps limit k = true → limit ≤ s.trl.inCount.toNat → s.bufs.wf = true →
    ∃ (c : TrlCall) (t : State), commitStep binary32Format k v s = .ok (c, t)
      ∧ Memory.readF t.bufs.trlSym k.kSym = v.y
      ∧ (s.trl.passEn = true → ∀ j, j < s.trl.passCount.toNat →
          Memory.readF t.bufs.trlPass (k.kPass + j) = Memory.readF s.bufs.trlIn (k.cursor + j))
      ∧ (s.trl.omegaEn = true → Memory.readF t.bufs.trlOmega k.kOmega = v.omega)
      ∧ (s.trl.muEn = true → Memory.readF t.bufs.trlMu k.kMu = v.mu)
      ∧ (∀ a, a < 4 * k.kSym ∨ 4 * k.kSym + 4 ≤ a →
          Memory.read t.bufs.trlSym a = Memory.read s.bufs.trlSym a)
      ∧ (∀ a, s.trl.passEn = false ∨ a < 4 * k.kPass
            ∨ 4 * (k.kPass + s.trl.passCount.toNat) ≤ a →
          Memory.read t.bufs.trlPass a = Memory.read s.bufs.trlPass a)
      ∧ (∀ a, s.trl.omegaEn = false ∨ a < 4 * k.kOmega ∨ 4 * k.kOmega + 4 ≤ a →
          Memory.read t.bufs.trlOmega a = Memory.read s.bufs.trlOmega a)
      ∧ (∀ a, s.trl.muEn = false ∨ a < 4 * k.kMu ∨ 4 * k.kMu + 4 ≤ a →
          Memory.read t.bufs.trlMu a = Memory.read s.bufs.trlMu a)
      ∧ t.bufs.trlIn = s.bufs.trlIn ∧ t.bufs.accIn = s.bufs.accIn ∧ t.bufs.accOut = s.bufs.accOut
      ∧ t.acc = s.acc ∧ t.response = s.response ∧ t.inputs = s.inputs
      ∧ c.kSym = k.kSym + 1
      ∧ c.kPass = (if s.trl.passEn then k.kPass + s.trl.passCount.toNat else k.kPass)
      ∧ c.kOmega = (if s.trl.omegaEn then k.kOmega + 1 else k.kOmega)
      ∧ c.kMu = (if s.trl.muEn then k.kMu + 1 else k.kMu)
      ∧ (((k.cursor : Int) + v.adv < 0 ∧ c.cursor = 0
          ∧ t.trl = { s.trl with
              omega := v.omega, mu := v.mu, lastSample := v.y,
              symbolCount := s.trl.symbolCount + 1#64,
              underflowCount := s.trl.underflowCount + 1#64,
              status := s.trl.status ||| 0x10#32 })
        ∨ (0 ≤ (k.cursor : Int) + v.adv ∧ (c.cursor : Int) = (k.cursor : Int) + v.adv
          ∧ t.trl = { s.trl with
              omega := v.omega, mu := v.mu, lastSample := v.y,
              symbolCount := s.trl.symbolCount + 1#64 }))

/-- Derived from 41_timing_recovery.md R130, R133, R152: what a `TRL.PROCESS` consumes is at most the forecast for its output
capacity at the start of the call, and at most the input given. -/
def Obligations.TrlConsumesWithinForecast : Prop :=
  ∀ s : State, s.trl.mode = .ready →
    ∃ t, exec .trlProcess s = .next t
      ∧ t.trl.consumed.toNat ≤ s.trl.forecast binary32 Config.ntaps s.trl.capSym.toNat
      ∧ t.trl.consumed.toNat ≤ s.trl.inCount.toNat

/-- Derived from 41_timing_recovery.md R131, R132, R153: what a `TRL.PROCESS` of a `READY` unit produces on
each output stays within its capacity and is `PROD_SYM`, `P·PROD_SYM` or 0 by the enables. -/
def Obligations.TrlProducesWithinCapacity : Prop :=
  ∀ s : State, s.trl.mode = .ready →
    ∃ t, exec .trlProcess s = .next t
      ∧ t.trl.prodSym.toNat ≤ s.trl.capSym.toNat
      ∧ (s.trl.passEn = true →
          t.trl.prodPass.toNat = s.trl.passCount.toNat * t.trl.prodSym.toNat
          ∧ t.trl.prodPass.toNat ≤ s.trl.capPass.toNat)
      ∧ (s.trl.passEn = false → t.trl.prodPass = 0#32)
      ∧ (s.trl.omegaEn = true → t.trl.prodOmega = t.trl.prodSym
          ∧ t.trl.prodOmega.toNat ≤ s.trl.capOmega.toNat)
      ∧ (s.trl.omegaEn = false → t.trl.prodOmega = 0#32)
      ∧ (s.trl.muEn = true → t.trl.prodMu = t.trl.prodSym
          ∧ t.trl.prodMu.toNat ≤ s.trl.capMu.toNat)
      ∧ (s.trl.muEn = false → t.trl.prodMu = 0#32)

/-- 20_memory.md R77, for the `PROCESS` commands of both units: bytes of an output buffer outside the
elements the command reports as produced keep their contents; the input buffers do too. (In a mode
other than `READY` no element is written and the counts are those of an earlier call.) -/
def Obligations.UnproducedElementsKeepTheirContents : Prop :=
  (∀ s t : State, exec .trlProcess s = .next t →
    (∀ a, 4 * t.trl.prodSym.toNat ≤ a → Memory.read t.bufs.trlSym a = Memory.read s.bufs.trlSym a)
    ∧ (∀ a, 4 * t.trl.prodPass.toNat ≤ a →
        Memory.read t.bufs.trlPass a = Memory.read s.bufs.trlPass a)
    ∧ (∀ a, 4 * t.trl.prodOmega.toNat ≤ a →
        Memory.read t.bufs.trlOmega a = Memory.read s.bufs.trlOmega a)
    ∧ (∀ a, 4 * t.trl.prodMu.toNat ≤ a → Memory.read t.bufs.trlMu a = Memory.read s.bufs.trlMu a)
    ∧ t.bufs.trlIn = s.bufs.trlIn ∧ t.bufs.accIn = s.bufs.accIn ∧ t.bufs.accOut = s.bufs.accOut)
  ∧ (∀ s t : State, exec .accProcess s = .next t →
    (∀ a, t.acc.produced.toNat ≤ a → Memory.read t.bufs.accOut a = Memory.read s.bufs.accOut a)
    ∧ t.bufs.accIn = s.bufs.accIn ∧ t.bufs.trlIn = s.bufs.trlIn ∧ t.bufs.trlSym = s.bufs.trlSym
    ∧ t.bufs.trlPass = s.bufs.trlPass ∧ t.bufs.trlOmega = s.bufs.trlOmega
    ∧ t.bufs.trlMu = s.bufs.trlMu)

/-- Derived from 41_timing_recovery.md R124: no command but `TRL.CONFIG` and `TRL.RESET` writes the parameters of
unit TRL. -/
def Obligations.TrlParametersFixedBetweenConstructions : Prop :=
  ∀ (i : Instr) (s t : State), i ≠ .trlConfig → i ≠ .trlReset → exec i s = .next t →
    t.trl.omegaMid = s.trl.omegaMid ∧ t.trl.gainMu = s.trl.gainMu
    ∧ t.trl.gainOmega = s.trl.gainOmega ∧ t.trl.relLimit = s.trl.relLimit
    ∧ t.trl.omegaLim = s.trl.omegaLim ∧ t.trl.passCount = s.trl.passCount

/-- Derived from 41_timing_recovery.md R130 to R134: the frame of `TRL.PROCESS` in unit TRL. Besides the
running fields `MU`, `OMEGA`, `LAST_SAMPLE`, `SKIP`, `MODE`, the counters, `STATUS`, `LAST_CODE` and the
results it changes nothing of the unit, and of `STATUS` it only sets bits 2, 3 and 4. -/
def Obligations.TrlProcessFrame : Prop :=
  ∀ s t : State, exec .trlProcess s = .next t →
    t.trl = { s.trl with
      mu := t.trl.mu, omega := t.trl.omega, lastSample := t.trl.lastSample, skip := t.trl.skip,
      mode := t.trl.mode, symbolCount := t.trl.symbolCount,
      underflowCount := t.trl.underflowCount, status := t.trl.status, lastCode := t.trl.lastCode,
      consumed := t.trl.consumed, prodSym := t.trl.prodSym, prodPass := t.trl.prodPass,
      prodOmega := t.trl.prodOmega, prodMu := t.trl.prodMu }
    ∧ t.trl.status &&& ~~~(0x1C#32) = s.trl.status &&& ~~~(0x1C#32)
    ∧ t.trl.status &&& s.trl.status = s.trl.status
    ∧ t.acc = s.acc ∧ t.inputs = s.inputs

/-- Derived from 70_reset_and_hazards.md R305, for any interpolator: in a `READY` state that meets the
invariant of 10_state.md R42, with the conditions of the rule and a forecast that is not saturated,
the first guard holds; so unless the first step faults, at least one symbol is produced. The rule's
proof takes the forecast unsaturated, so that is a premise here. -/
def Obligations.TrlProcessMakesProgress : Prop :=
  ∀ (P : Params F32) (s : State), s.trl.mode = .ready → s.trl.ReadyInv →
    1 ≤ s.trl.capSym.toNat →
    ⌈(s.trl.capSym.toNat : ℚ) * f32Value s.trl.omega⌉ + (P.ntaps : Int) + (s.trl.skip.toNat : Int)
      ≤ s.trl.inCount.toNat →
    (s.trl.passEn = true → s.trl.passCount.toNat ≤ s.trl.capPass.toNat
      ∧ (s.trl.passCount.toNat : Int)
          ≤ ⌈(s.trl.capSym.toNat : ℚ) * f32Value s.trl.omega⌉ + (P.ntaps : Int)) →
    (s.trl.omegaEn = true → 1 ≤ s.trl.capOmega.toNat) →
    (s.trl.muEn = true → 1 ≤ s.trl.capMu.toNat) →
    s.trl.guard P.ntaps (s.trl.inputLimit binary32 P.ntaps) ⟨s.trl.skip.toNat, 0, 0, 0, 0⟩ = true
    ∧ (s.trl.symbolStep binary32 P (s.window s.trl.skip.toNat P.ntaps) ≠ none →
        ∃ t, trlProcessWith P s = .next t ∧ 1 ≤ t.trl.prodSym.toNat)

/-! ### The numeric format and the symbol step -/

/-- Derived from 00_scope.md R12: `fadd` of finite operands is the finite encoding nearest the exact sum,
a tie going to the even one; and, from the standard's overflow rule, which is presumed (log entry 11), an
infinity when the sum lies half a step or more past the largest finite value. -/
def Obligations.AddRoundsToNearestEven : Prop :=
  ∀ a b : F32, f32IsFinite a = true → f32IsFinite b = true →
    (f32IsFinite (f32Add a b) = true →
      ∀ z : F32, f32IsFinite z = true →
        |f32Value a + f32Value b - f32Value (f32Add a b)|
            ≤ |f32Value a + f32Value b - f32Value z|
        ∧ (|f32Value a + f32Value b - f32Value (f32Add a b)|
              = |f32Value a + f32Value b - f32Value z| →
            f32Value z ≠ f32Value (f32Add a b) → (f32Add a b).getLsbD 0 = false))
    ∧ (f32IsFinite (f32Add a b) = false ↔
        (2 ^ 25 - 1) * 2 ^ 103 ≤ |f32Value a + f32Value b|)

/-- Derived from 00_scope.md R12: the same of `fmul` and the exact product; its overflow clause too is
presumed (log entry 11). -/
def Obligations.MulRoundsToNearestEven : Prop :=
  ∀ a b : F32, f32IsFinite a = true → f32IsFinite b = true →
    (f32IsFinite (f32Mul a b) = true →
      ∀ z : F32, f32IsFinite z = true →
        |f32Value a * f32Value b - f32Value (f32Mul a b)|
            ≤ |f32Value a * f32Value b - f32Value z|
        ∧ (|f32Value a * f32Value b - f32Value (f32Mul a b)|
              = |f32Value a * f32Value b - f32Value z| →
            f32Value z ≠ f32Value (f32Mul a b) → (f32Mul a b).getLsbD 0 = false))
    ∧ (f32IsFinite (f32Mul a b) = false ↔
        (2 ^ 25 - 1) * 2 ^ 103 ≤ |f32Value a * f32Value b|)

/-- Derived from 00_scope.md R12: `ffloor` and `fabs` are exact, `flt` is the comparison of the values and
false when either operand is a NaN. -/
def Obligations.FloorAbsCompareAreExact : Prop :=
  (∀ x : F32, f32IsFinite x = true →
    f32IsFinite (f32Floor x) = true ∧ f32Value (f32Floor x) = (⌊f32Value x⌋ : ℚ)
    ∧ f32FloorInt x = ⌊f32Value x⌋
    ∧ f32IsFinite (f32Abs x) = true ∧ f32Value (f32Abs x) = |f32Value x|)
  ∧ (∀ a b : F32, f32IsFinite a = true → f32IsFinite b = true →
      (f32Lt a b = true ↔ f32Value a < f32Value b))
  ∧ (∀ a b : F32, f32IsNaN a = true ∨ f32IsNaN b = true → f32Lt a b = false)

/-- 00_scope.md R14: `sgn` is -1 exactly below 0, and +1 for both zeros and for a NaN; under
`NUM = Real` too. -/
def Obligations.SgnIsMinusOneExactlyBelowZero : Prop :=
  (∀ x : F32, binary32.sgn x = (if f32Lt x f32Zero then 0xBF800000#32 else 0x3F800000#32))
  ∧ (∀ x : F32, f32IsFinite x = true →
      (binary32.sgn x = 0xBF800000#32 ↔ f32Value x < 0))
  ∧ binary32.sgn 0x00000000#32 = 0x3F800000#32 ∧ binary32.sgn 0x80000000#32 = 0x3F800000#32
  ∧ (∀ x : F32, f32IsNaN x = true → binary32.sgn x = 0x3F800000#32)
  ∧ (∀ (F : Type) [Field F] [LinearOrder F] [FloorRing F] (x : F),
      (exactNum F).sgn x = (if x < 0 then -1 else 1))

/-- Derived from 00_scope.md R15 and 41_timing_recovery.md R140: `rne_int` is the nearest integer with a
tie to the even one, computed on the exact value; and the phase selection, which the spec marks as general
knowledge (log entry 19), is `rne_int` of the exact product `NSTEPS·mu`, a phase from 0 to `NSTEPS` for
`mu` from 0 to 1, in both formats. -/
def Obligations.RneIntIsNearestEven : Prop :=
  (∀ (F : Type) [Field F] [LinearOrder F] [IsStrictOrderedRing F] [FloorRing F] (r : F) (n : Int),
    |r - (rneExact r : F)| ≤ |r - (n : F)|
    ∧ (|r - (rneExact r : F)| = |r - (n : F)| → n ≠ rneExact r → rneExact r % 2 = 0))
  ∧ (∀ (n : Nat) (x : F32), f32RneMul n x = rneExact ((n : ℚ) * f32Value x))
  ∧ (∀ (P : Params F32) (t : Trl F32), 0 ≤ f32Value t.mu → f32Value t.mu ≤ 1 →
      (t.phase binary32 P : Int) = rneExact ((P.nsteps : ℚ) * f32Value t.mu)
      ∧ t.phase binary32 P ≤ P.nsteps)
  ∧ (∀ (F : Type) [Field F] [LinearOrder F] [IsStrictOrderedRing F] [FloorRing F]
      (P : Params F) (t : Trl F), 0 ≤ t.mu → t.mu ≤ 1 →
      (t.phase (exactNum F) P : Int) = rneExact ((P.nsteps : F) * t.mu)
      ∧ t.phase (exactNum F) P ≤ P.nsteps)

/-- Derived from 41_timing_recovery.md R140 to R147 and 00_scope.md R12, R14: what a symbol step computes
and when it faults, in both formats. It commits the values `v` exactly when they are those of the rules,
written out, and none of R147's faults holds: under `NUM = Binary32` every value finite, the advance in
[-2^31, 2^31) and the new rate above 0; under `NUM = Real`, where every value is finite, the last two.
Otherwise it gives no values. The two products of the timing error are exact, so only the difference
rounds; and on the first step after a construction, where `LAST_SAMPLE` is +0.0, the error is the sample
itself, bit for bit. (The spec marks the phase selection, the clip's formula and the association of the
phase sum as general knowledge, log entry 19; the signs of zeros are presumed, log entry 11.) -/
def Obligations.SymbolStepComputesItsValues : Prop :=
  (∀ (P : Params F32) (t : Trl F32) (x : List F32) (v : SymbolValues F32),
    t.symbolStep binary32 P x = some v ↔
      (v.y = P.dot ((List.range P.ntaps).map
          (P.taps (rneExact ((P.nsteps : ℚ) * f32Value t.mu)).toNat)) x
      ∧ v.e = f32Sub
          (f32Mul (if f32Lt t.lastSample 0x00000000#32 then 0xBF800000#32 else 0x3F800000#32) v.y)
          (f32Mul (if f32Lt v.y 0x00000000#32 then 0xBF800000#32 else 0x3F800000#32) t.lastSample)
      ∧ v.uOmega = f32Mul t.gainOmega v.e
      ∧ v.uMu = f32Mul t.gainMu v.e
      ∧ v.omegaT = f32Add t.omega v.uOmega
      ∧ v.d = f32Sub v.omegaT t.omegaMid
      ∧ v.dPlus = f32Add v.d t.omegaLim
      ∧ v.dMinus = f32Sub v.d t.omegaLim
      ∧ v.clipd = f32Mul 0x3F000000#32 (f32Sub (f32Abs v.dPlus) (f32Abs v.dMinus))
      ∧ v.omega = f32Add t.omegaMid v.clipd
      ∧ v.muT = f32Add (f32Add t.mu v.omega) v.uMu
      ∧ v.advF = f32Floor v.muT
      ∧ v.adv = ⌊f32Value v.muT⌋
      ∧ v.mu = f32Sub v.muT v.advF)
      ∧ (∀ z ∈ [v.y, v.e, v.uOmega, v.uMu, v.omegaT, v.d, v.dPlus, v.dMinus, v.clipd, v.omega, v.muT,
          v.mu], f32IsFinite z = true)
      ∧ -2 ^ 31 ≤ v.adv ∧ v.adv < 2 ^ 31 ∧ 0 < f32Value v.omega)
  ∧ (∀ (F : Type) [Field F] [LinearOrder F] [IsStrictOrderedRing F] [FloorRing F]
      (taps : Nat → Nat → F) (t : Trl F) (x : List F) (v : SymbolValues F),
    t.symbolStep (exactNum F) (exactParams taps) x = some v ↔
      (v.y = ∑ k ∈ Finset.range Config.ntaps,
          taps (rneExact ((Config.nsteps : F) * t.mu)).toNat k * x.getD k 0
      ∧ v.e = (if t.lastSample < 0 then -1 else 1) * v.y - (if v.y < 0 then -1 else 1) * t.lastSample
      ∧ v.uOmega = t.gainOmega * v.e
      ∧ v.uMu = t.gainMu * v.e
      ∧ v.omegaT = t.omega + v.uOmega
      ∧ v.d = v.omegaT - t.omegaMid
      ∧ v.dPlus = v.d + t.omegaLim
      ∧ v.dMinus = v.d - t.omegaLim
      ∧ v.clipd = min (max v.d (-t.omegaLim)) t.omegaLim
      ∧ v.omega = t.omegaMid + v.clipd
      ∧ v.muT = t.mu + v.omega + v.uMu
      ∧ v.advF = (⌊v.muT⌋ : F)
      ∧ v.adv = ⌊v.muT⌋
      ∧ v.mu = Int.fract v.muT)
      ∧ -2 ^ 31 ≤ v.adv ∧ v.adv < 2 ^ 31 ∧ 0 < v.omega)
  ∧ (∀ l y : F32, f32IsFinite l = true → f32IsFinite y = true →
    timingError binary32 l y
      = f32Sub (if f32Lt l f32Zero then f32Neg y else y) (if f32Lt y f32Zero then f32Neg l else l))
  ∧ (∀ y : F32, f32IsFinite y = true → timingError binary32 0x00000000#32 y = y)

/-- 41_timing_recovery.md R150: under `NUM = Real` every committed step keeps the rate within the clamp;
under both formats it leaves the rate above 0. -/
def Obligations.RateStaysInTheClamp : Prop :=
  (∀ (F : Type) [Field F] [LinearOrder F] [IsStrictOrderedRing F] [FloorRing F]
      (P : Params F) (t : Trl F) (x : List F) (v : SymbolValues F) (u : Bool),
    1 ≤ t.omegaMid → 0 ≤ t.relLimit → t.relLimit < 1 → t.omegaLim = t.omegaMid * t.relLimit →
    t.symbolStep (exactNum F) P x = some v →
    t.omegaMid - t.omegaLim ≤ (t.commit v u).omega
    ∧ (t.commit v u).omega ≤ t.omegaMid + t.omegaLim
    ∧ 0 < (t.commit v u).omega)
  ∧ (∀ (P : Params F32) (t : Trl F32) (x : List F32) (v : SymbolValues F32) (u : Bool),
    t.symbolStep binary32 P x = some v → 0 < f32Value (t.commit v u).omega)

/-- Derived from 41_timing_recovery.md R146, R151: after a committed step `mu` lies in [0, 1) under
`NUM = Real` and in [0, 1] under `NUM = Binary32`; there it is 1 only after a negative phase sum. -/
def Obligations.PhaseStaysInRange : Prop :=
  (∀ (F : Type) [Field F] [LinearOrder F] [IsStrictOrderedRing F] [FloorRing F]
      (P : Params F) (t : Trl F) (x : List F) (v : SymbolValues F) (u : Bool),
    t.symbolStep (exactNum F) P x = some v →
    0 ≤ (t.commit v u).mu ∧ (t.commit v u).mu < 1)
  ∧ (∀ (P : Params F32) (t : Trl F32) (x : List F32) (v : SymbolValues F32) (u : Bool),
    t.symbolStep binary32 P x = some v →
    0 ≤ f32Value (t.commit v u).mu ∧ f32Value (t.commit v u).mu ≤ 1
    ∧ (f32Value (t.commit v u).mu = 1 → f32Value v.muT < 0))

/-! ### Unit ACC: the bit step and processing -/

/-- 42_access_code_correlator.md R201: the two distances count the differing bits under the mask; each is
at most `LEN`, and together they are `LEN`. -/
def Obligations.HammingDistancesAddUpToLength : Prop :=
  ∀ a : Acc,
    a.wrong = (Finset.univ.filter fun j : Fin 64 =>
      a.mask.getLsbD j.val = true ∧ a.dataReg.getLsbD j.val ≠
        (if a.invert then a.invAccessCode else a.accessCode).getLsbD j.val).card
    ∧ a.wrongInv = (Finset.univ.filter fun j : Fin 64 =>
      a.mask.getLsbD j.val = true ∧ a.dataReg.getLsbD j.val ≠
        (if a.invert then a.accessCode else a.invAccessCode).getLsbD j.val).card
    ∧ (a.CodeInv → a.wrong ≤ a.len.toNat ∧ a.wrongInv ≤ a.len.toNat
        ∧ a.wrong + a.wrongInv = a.len.toNat)

/-- Derived from 42_access_code_correlator.md R191, R202, R214: `match` holds exactly when the register
differs from the active pattern in at most `THRESHOLD` places under the mask; `match_inv` needs
detection; a threshold of `LEN` or more, and so an empty code, matches every window. -/
def Obligations.MatchIsWithinThreshold : Prop :=
  ∀ a : Acc,
    (a.isMatch = true ↔ (Finset.univ.filter fun j : Fin 64 =>
      a.mask.getLsbD j.val = true ∧ a.dataReg.getLsbD j.val ≠ a.activeCode.getLsbD j.val).card
        ≤ a.threshold.toNat)
    ∧ (a.isMatchInv = true ↔ a.detectInv = true ∧ (Finset.univ.filter fun j : Fin 64 =>
      a.mask.getLsbD j.val = true ∧ a.dataReg.getLsbD j.val ≠ a.compCode.getLsbD j.val).card
        ≤ a.threshold.toNat)
    ∧ (a.CodeInv → a.len.toNat ≤ a.threshold.toNat →
        a.isMatch = true ∧ a.isMatchInv = a.detectInv)

/-- Derived from 42_access_code_correlator.md R203: the polarity state machine, case by case. -/
def Obligations.PolarityStateMachine : Prop :=
  ∀ (a : Acc) (b : Bool),
    (a.isMatch = true → a.isMatchInv = true → (a.bitStep b).invert = a.invert)
    ∧ (a.isMatch = true → a.isMatchInv = false → (a.bitStep b).invert = false)
    ∧ (a.isMatch = false → a.isMatchInv = true → (a.bitStep b).invert = true)
    ∧ (a.isMatch = false → a.isMatchInv = false → (a.bitStep b).invert = a.invert)

/-- Derived from 42_access_code_correlator.md R204 to R206 and its frame: the ambiguity diagnostic, the
three registers bit by bit, and the bit counter; a bit step changes nothing else of the unit. -/
def Obligations.BitStepEffects : Prop :=
  ∀ (a : Acc) (b : Bool), a.flagBit = 1#64 →
    (a.bitStep b).dataReg.getLsbD 0 = (b != (a.bitStep b).invert)
    ∧ (a.bitStep b).flagReg.getLsbD 0 = (a.isMatch || a.isMatchInv)
    ∧ (a.bitStep b).invertReg.getLsbD 0 = a.isMatchInv
    ∧ (∀ j, j < 63 → (a.bitStep b).dataReg.getLsbD (j + 1) = a.dataReg.getLsbD j
        ∧ (a.bitStep b).flagReg.getLsbD (j + 1) = a.flagReg.getLsbD j
        ∧ (a.bitStep b).invertReg.getLsbD (j + 1) = a.invertReg.getLsbD j)
    ∧ (a.bitStep b).bitCount = a.bitCount + 1#64
    ∧ (a.isMatch = true ∧ a.isMatchInv = true →
        (a.bitStep b).ambigCount = a.ambigCount + 1#64 ∧ (a.bitStep b).lastAmbigBit = a.bitCount
        ∧ (a.bitStep b).status = a.status ||| 0x20#32)
    ∧ (¬ (a.isMatch = true ∧ a.isMatchInv = true) →
        (a.bitStep b).ambigCount = a.ambigCount ∧ (a.bitStep b).lastAmbigBit = a.lastAmbigBit
        ∧ (a.bitStep b).status = a.status)
    ∧ { a.bitStep b with
        dataReg := a.dataReg, flagReg := a.flagReg, invertReg := a.invertReg, invert := a.invert,
        bitCount := a.bitCount, ambigCount := a.ambigCount, lastAmbigBit := a.lastAmbigBit,
        status := a.status } = a

/-- 42_access_code_correlator.md R210: after a stream of bit steps from empty registers, bit `j` of
`DATA_REG` is the raw bit of the step `j` before the last, exclusive-or the polarity after that
step's resolver; bits no step has reached are 0. -/
def Obligations.DataRegisterHoldsTheLastBits : Prop :=
  ∀ (a : Acc) (bits : List Bool) (j : Nat), a.dataReg = 0#64 → j < 64 →
    (∀ h : j < bits.length,
      (a.run bits).dataReg.getLsbD j
        = (bits[bits.length - 1 - j] != (a.run (bits.take (bits.length - j))).invert))
    ∧ (bits.length ≤ j → (a.run bits).dataReg.getLsbD j = false)

/-- Derived from 42_access_code_correlator.md R200, R205, R211: the data bit and the flags a bit step puts into the registers are
those of the output unit 64 bit steps later. -/
def Obligations.FlagsAppearAfterSixtyFourSteps : Prop :=
  ∀ (a : Acc) (pre : List Bool) (b : Bool) (mid : List Bool), a.flagBit = 1#64 →
    mid.length = 63 →
    ((a.run (pre ++ b :: mid)).output.getLsbD 0 = (b != (a.run (pre ++ [b])).invert))
    ∧ ((a.run (pre ++ b :: mid)).output.getLsbD 1
        = ((a.run pre).isMatch || (a.run pre).isMatchInv))
    ∧ ((a.run (pre ++ b :: mid)).output.getLsbD 2 = (a.run pre).isMatchInv)
    ∧ (∀ j, 3 ≤ j → (a.run (pre ++ b :: mid)).output.getLsbD j = false)

/-- Derived from 42_access_code_correlator.md R186: `ACC.PROCESS` of a `READY` unit runs one bit step for each input
bit up to both counts, writes one output unit for each, reports the count twice, completes with
`OK`, and changes nothing else. -/
def Obligations.AccProcessRunsItsBits : Prop :=
  ∀ s : State, s.acc.mode = .ready → s.bufs.wf = true →
    let n := min s.acc.inCount.toNat s.acc.capOut.toNat
    ∃ m : Memory,
      exec .accProcess s = .next { s with
        acc := { s.acc.run (s.inputBits n) with
          consumed := BitVec.ofNat 32 n, produced := BitVec.ofNat 32 n, lastCode := .ok },
        bufs := { s.bufs with accOut := m },
        response := some ⟨.ok, 0#64⟩ }
      ∧ ((List.range n).map fun i => Memory.read m i) = s.acc.outputs (s.inputBits n)
      ∧ ∀ a, n ≤ a → Memory.read m a = Memory.read s.bufs.accOut a

/-- Derived from 42_access_code_correlator.md R213: two calls over the parts of a stream leave the registers, the
polarity and the counters of one call over the whole, and give its outputs. The second call starts
from what the first left, with the counts and the input set for the rest. -/
def Obligations.SplittingTheStreamChangesNothing : Prop :=
  ∀ (n m : Nat) (s s1 s2 t t1 t2 : State), n + m < 2 ^ 32 →
    s.acc.mode = .ready → s.bufs.wf = true → s1.bufs.wf = true → s2.bufs.wf = true →
    s.acc.inCount = BitVec.ofNat 32 (n + m) → s.acc.capOut = BitVec.ofNat 32 (n + m) →
    s1.acc = { s.acc with inCount := BitVec.ofNat 32 n, capOut := BitVec.ofNat 32 n } →
    s1.inputBits n = (s.inputBits (n + m)).take n →
    exec .accProcess s = .next t → exec .accProcess s1 = .next t1 →
    s2.acc = { t1.acc with inCount := BitVec.ofNat 32 m, capOut := BitVec.ofNat 32 m } →
    s2.inputBits m = (s.inputBits (n + m)).drop n →
    exec .accProcess s2 = .next t2 →
    { t2.acc with inCount := t.acc.inCount, capOut := t.acc.capOut,
                  consumed := t.acc.consumed, produced := t.acc.produced } = t.acc
    ∧ t.outputUnits (n + m) = t1.outputUnits n ++ t2.outputUnits m

/-! ### Units, interrupt lines -/

/-- Derived from 30_encoding.md R93 and 20_memory.md R79, R82: a command leaves the other unit and its buffers as they
are, and what it does to its own unit, its buffers and the response depends on these alone. -/
def Obligations.CommandsTouchOnlyTheirUnit : Prop :=
  ∀ (i : Instr) (s1 s2 t1 t2 : State), exec i s1 = .next t1 → exec i s2 = .next t2 →
    AgreeOn (otherUnit i.unit) s1 t1 ∧ t1.inputs = s1.inputs
    ∧ (AgreeOn i.unit s1 s2 → AgreeOn i.unit t1 t2 ∧ t1.response = t2.response)

/-- Derived from 20_memory.md R82, for two commands of different units: in either order they leave the same units
and buffers. -/
def Obligations.CommandsOfDifferentUnitsCommute : Prop :=
  ∀ (i j : Instr) (s : State), i.unit ≠ j.unit →
    ∃ s1 s12 s2 s21, exec i s = .next s1 ∧ exec j s1 = .next s12
      ∧ exec j s = .next s2 ∧ exec i s2 = .next s21
      ∧ s12.trl = s21.trl ∧ s12.acc = s21.acc ∧ s12.bufs = s21.bufs
      ∧ s12.response = s2.response ∧ s21.response = s1.response

/-- Derived from 60_exceptions.md R252, R265, R267: raising a code whose enable bit is set asserts the
unit's line; clearing every enabled bit of `STATUS`, or every enable, deasserts it. -/
def Obligations.InterruptLinesFollowStatus : Prop :=
  (∀ (s : State) (c : Code), c ≠ .ok →
    (s.trl.irqEn &&& c.statusMask ≠ 0#32 → irqTrl (raise binary32Format .trl c s) = true)
    ∧ (s.acc.irqEn &&& c.statusMask ≠ 0#32 → irqAcc (raise binary32Format .acc c s) = true))
  ∧ (∀ (s : State) (d : DWord),
    (s.trl.status &&& s.trl.irqEn &&& ~~~(d.setWidth 32) = 0#32 →
      ∃ t, exec (.trlCsrw 0x002#12 d) s = .next t ∧ irqTrl t = false)
    ∧ (s.acc.status &&& s.acc.irqEn &&& ~~~(d.setWidth 32) = 0#32 →
      ∃ t, exec (.accCsrw 0x002#12 d) s = .next t ∧ irqAcc t = false)
    ∧ (s.trl.status &&& d.setWidth 32 &&& 0x1F#32 = 0#32 →
      ∃ t, exec (.trlCsrw 0x003#12 d) s = .next t ∧ irqTrl t = false)
    ∧ (s.acc.status &&& d.setWidth 32 &&& 0x27#32 = 0#32 →
      ∃ t, exec (.accCsrw 0x003#12 d) s = .next t ∧ irqAcc t = false))

/-! ### Invariants -/

/-- Derived from 10_state.md R24, R25, R42, R43: the machine after reset meets every invariant below. -/
def Obligations.ResetMeetsTheInvariants : Prop :=
  State.reset.trl.ReadyInv ∧ State.reset.acc.CodeInv ∧ State.reset.ReservedZero
  ∧ State.reset.bufs.wf = true ∧ State.reset.trl.skip.toNat < 2 ^ 31

/-- Derived from 10_state.md R42, for `NUM = Binary32`: every step keeps what `T.MODE = READY` implies. -/
def Obligations.StepKeepsReadyInvariant : Prop :=
  ∀ s t : State, s.trl.ReadyInv → step s = .next t → t.trl.ReadyInv

/-- Derived from 10_state.md R43: every step keeps the code fields' invariant. -/
def Obligations.StepKeepsCodeInvariant : Prop :=
  ∀ s t : State, s.acc.CodeInv → step s = .next t → t.acc.CodeInv

/-- Derived from 10_state.md R24, R25: every step keeps the reserved bits at 0. -/
def Obligations.StepKeepsReservedBitsZero : Prop :=
  ∀ s t : State, s.ReservedZero → step s = .next t → t.ReservedZero

/-- Derived from 20_memory.md R71 through the model's layout (log entries 6 and 7): every step keeps the
buffers in canonical form, so that equal contents are equal data. -/
def Obligations.StepKeepsBuffersCanonical : Prop :=
  ∀ s t : State, s.bufs.wf = true → step s = .next t → t.bufs.wf = true

/-- Derived from 41_timing_recovery.md R133, R147 and 10_state.md R31: the carried skip count stays below
2^31, the bound of one advance. -/
def Obligations.StepKeepsSkipBelowAdvanceBound : Prop :=
  ∀ s t : State, s.trl.skip.toNat < 2 ^ 31 → step s = .next t → t.trl.skip.toNat < 2 ^ 31
end

