-- ==== Sys2Proof/Laws/Memory.lean ====
section
/-!
SUPPORT. The laws of sparse cells, of a stream buffer's bytes and of its elements: a read after a write,
and the canonical form kept by every operation.
-/

namespace Sys2Proof.Machine

section cells
variable {α : Type} {z : α}

/-- An address below every entry reads as unlisted. -/
theorem Cells.read_below {m : List (Nat × α)} {a : Nat} (h : ∀ p ∈ m, a < p.1) :
    Cells.read z m a = z := by
  induction m with
  | nil => rfl
  | cons c m ih =>
    obtain ⟨b, w⟩ := c
    have hb : a < b := h (b, w) (List.mem_cons_self ..)
    simp only [Cells.read, if_neg (Nat.ne_of_lt hb)]
    exact ih fun p hp => h p (List.mem_cons_of_mem _ hp)

variable [DecidableEq α]

/-- The canonical form, by its first entry. -/
theorem Cells.wf_cons (a : Nat) (v : α) (m : List (Nat × α)) :
    Cells.wf z ((a, v) :: m) = true ↔
      v ≠ z ∧ (∀ p ∈ m, a < p.1) ∧ Cells.wf z m = true := by
  induction m generalizing a v with
  | nil => simp [Cells.wf]
  | cons c m ih =>
    obtain ⟨b, w⟩ := c
    simp only [Cells.wf, Bool.and_eq_true, decide_eq_true_eq, List.forall_mem_cons]
    constructor
    · rintro ⟨⟨hv, hab⟩, hwf⟩
      exact ⟨hv, ⟨hab, fun p hp => lt_trans hab (((ih b w).1 hwf).2.1 p hp)⟩, hwf⟩
    · rintro ⟨hv, ⟨hab, -⟩, hwf⟩
      exact ⟨⟨hv, hab⟩, hwf⟩

/-- A write changes no address but its own. -/
theorem Cells.read_write_other {m : List (Nat × α)} {a b : Nat} (v : α) (h : b ≠ a) :
    Cells.read z (Cells.write z m a v) b = Cells.read z m b := by
  induction m with
  | nil => by_cases hv : v = z <;> simp [Cells.write, Cells.read, hv, h]
  | cons c m ih =>
    obtain ⟨d, w⟩ := c
    simp only [Cells.write]
    split
    · split <;> simp [Cells.read, h]
    · split
      · subst d
        split <;> simp [Cells.read, h]
      · simp [Cells.read, ih]

/-- A cell reads back as written. -/
theorem Cells.read_write_same {m : List (Nat × α)} (a : Nat) (v : α) (hm : Cells.wf z m = true) :
    Cells.read z (Cells.write z m a v) a = v := by
  induction m with
  | nil => by_cases hv : v = z <;> simp [Cells.write, Cells.read, hv]
  | cons c m ih =>
    obtain ⟨d, w⟩ := c
    obtain ⟨-, hlt, hwf⟩ := (Cells.wf_cons d w m).1 hm
    simp only [Cells.write]
    split
    · rename_i had
      split
      · rename_i hv
        rw [hv]
        exact Cells.read_below fun p hp => by
          rcases List.mem_cons.1 hp with rfl | hp
          · exact had
          · exact lt_trans had (hlt p hp)
      · simp [Cells.read]
    · split
      · subst d
        split
        · rename_i hv
          rw [hv]
          exact Cells.read_below hlt
        · simp [Cells.read]
      · rename_i had
        simp [Cells.read, had, ih hwf]

/-- Every entry after a write is an old one or the written address. -/
theorem Cells.mem_write {m : List (Nat × α)} {a : Nat} {v : α} {p : Nat × α}
    (h : p ∈ Cells.write z m a v) : p ∈ m ∨ p.1 = a := by
  induction m with
  | nil =>
    simp only [Cells.write] at h
    split at h <;> simp_all
  | cons c m ih =>
    obtain ⟨d, w⟩ := c
    simp only [Cells.write] at h
    split at h
    · split at h
      · exact .inl h
      · rcases List.mem_cons.1 h with rfl | h
        · exact .inr rfl
        · exact .inl h
    · split at h
      · subst d
        split at h
        · exact .inl (List.mem_cons_of_mem _ h)
        · rcases List.mem_cons.1 h with rfl | h
          · exact .inr rfl
          · exact .inl (List.mem_cons_of_mem _ h)
      · rcases List.mem_cons.1 h with rfl | h
        · exact .inl (List.mem_cons_self ..)
        · exact (ih h).imp_left (List.mem_cons_of_mem _)

/-- A write keeps the canonical form. -/
theorem Cells.wf_write {m : List (Nat × α)} (a : Nat) (v : α) (hm : Cells.wf z m = true) :
    Cells.wf z (Cells.write z m a v) = true := by
  induction m with
  | nil =>
    by_cases hv : v = z
    · simp [Cells.write, hv, Cells.wf]
    · simp [Cells.write, hv, Cells.wf]
  | cons c m ih =>
    obtain ⟨d, w⟩ := c
    obtain ⟨hw, hlt, hwf⟩ := (Cells.wf_cons d w m).1 hm
    simp only [Cells.write]
    split
    · rename_i had
      split
      · exact hm
      · rename_i hv
        refine (Cells.wf_cons a v _).2 ⟨hv, fun p hp => ?_, hm⟩
        rcases List.mem_cons.1 hp with rfl | hp
        · exact had
        · exact lt_trans had (hlt p hp)
    · split
      · split
        · exact hwf
        · rename_i hv
          exact (Cells.wf_cons d v m).2 ⟨hv, hlt, hwf⟩
      · rename_i h1 h2
        refine (Cells.wf_cons d w _).2 ⟨hw, fun p hp => ?_, ih hwf⟩
        rcases Cells.mem_write hp with hp | hp
        · exact hlt p hp
        · omega

end cells

/-- A write changes no byte but its own. -/
theorem Memory.read_write_other {m : Memory} {a b : Nat} (v : Byte) (h : b ≠ a) :
    Memory.read (Memory.write m a v) b = Memory.read m b := Cells.read_write_other v h

/-- A byte reads back as written. -/
theorem Memory.read_write_same {m : Memory} (a : Nat) (v : Byte) (hm : Memory.wf m = true) :
    Memory.read (Memory.write m a v) a = v := Cells.read_write_same a v hm

/-- A byte write keeps the canonical form. -/
theorem Memory.wf_write {m : Memory} (a : Nat) (v : Byte) (hm : Memory.wf m = true) :
    Memory.wf (Memory.write m a v) = true := Cells.wf_write a v hm

/-- An element write keeps the canonical form. -/
theorem Memory.wf_writeF {m : Memory} (i : Nat) (v : F32) (hm : Memory.wf m = true) :
    Memory.wf (Memory.writeF m i v) = true :=
  Memory.wf_write _ _ (Memory.wf_write _ _ (Memory.wf_write _ _ (Memory.wf_write _ _ hm)))

/-- An element write changes no byte outside the element's four. -/
theorem Memory.read_writeF_other {m : Memory} {i a : Nat} (v : F32)
    (h : a < 4 * i ∨ 4 * i + 4 ≤ a) : Memory.read (Memory.writeF m i v) a = Memory.read m a := by
  unfold Memory.writeF
  rw [Memory.read_write_other _ (by omega), Memory.read_write_other _ (by omega),
    Memory.read_write_other _ (by omega), Memory.read_write_other _ (by omega)]

/-- An element write leaves every other element. -/
theorem Memory.readF_writeF_other {m : Memory} {i j : Nat} (v : F32) (h : j ≠ i) :
    Memory.readF (Memory.writeF m i v) j = Memory.readF m j := by
  unfold Memory.readF
  rw [Memory.read_writeF_other _ (by omega), Memory.read_writeF_other _ (by omega),
    Memory.read_writeF_other _ (by omega), Memory.read_writeF_other _ (by omega)]

/-- The four bytes of a word, joined again. -/
theorem bytes_join (v : F32) :
    v.extractLsb' 24 8 ++ v.extractLsb' 16 8 ++ v.extractLsb' 8 8 ++ v.extractLsb' 0 8 = v := by
  apply BitVec.eq_of_getLsbD_eq
  intro i hi
  simp only [BitVec.getLsbD_append, BitVec.getLsbD_extractLsb']
  split
  · simp [*]
  · split
    · rename_i h1 h2
      simp only [show i - 8 < 8 by omega, decide_true, Bool.true_and]
      congr 1; omega
    · split
      · rename_i h1 h2 h3
        simp only [show i - 8 - 8 < 8 by omega, decide_true, Bool.true_and]
        congr 1; omega
      · simp only [show i - 8 - 8 - 8 < 8 by omega, decide_true, Bool.true_and]
        congr 1; omega

/-- An element reads back as written. -/
theorem Memory.readF_writeF_same {m : Memory} (i : Nat) (v : F32) (hm : Memory.wf m = true) :
    Memory.readF (Memory.writeF m i v) i = v := by
  have w0 := Memory.wf_write (4 * i) (v.extractLsb' 0 8) hm
  have w1 := Memory.wf_write (4 * i + 1) (v.extractLsb' 8 8) w0
  have w2 := Memory.wf_write (4 * i + 2) (v.extractLsb' 16 8) w1
  unfold Memory.readF Memory.writeF
  rw [Memory.read_write_same _ _ w2,
    Memory.read_write_other (b := 4 * i + 2) _ (by omega), Memory.read_write_same _ _ w1,
    Memory.read_write_other (b := 4 * i + 1) _ (by omega),
    Memory.read_write_other (b := 4 * i + 1) _ (by omega), Memory.read_write_same _ _ w0,
    Memory.read_write_other (b := 4 * i) _ (by omega),
    Memory.read_write_other (b := 4 * i) _ (by omega),
    Memory.read_write_other (b := 4 * i) _ (by omega), Memory.read_write_same _ _ hm]
  exact bytes_join v

section buffers
variable {S : Type} (s : BuffersOf S)

@[simp] theorem BuffersOf.trlBuf_setTrlBuf_same (b : TrlBuffer) (m : S) :
    (s.setTrlBuf b m).trlBuf b = m := by cases b <;> rfl

@[simp] theorem BuffersOf.trlBuf_setTrlBuf_other {b c : TrlBuffer} (m : S) (h : c ≠ b) :
    (s.setTrlBuf b m).trlBuf c = s.trlBuf c := by
  cases b <;> cases c <;> first | rfl | exact absurd rfl h

@[simp] theorem BuffersOf.accBuf_setTrlBuf (b : TrlBuffer) (c : AccBuffer) (m : S) :
    (s.setTrlBuf b m).accBuf c = s.accBuf c := by cases b <;> cases c <;> rfl

@[simp] theorem BuffersOf.accBuf_setAccBuf_same (b : AccBuffer) (m : Memory) :
    (s.setAccBuf b m).accBuf b = m := by cases b <;> rfl

@[simp] theorem BuffersOf.accBuf_setAccBuf_other {b c : AccBuffer} (m : Memory) (h : c ≠ b) :
    (s.setAccBuf b m).accBuf c = s.accBuf c := by
  cases b <;> cases c <;> first | rfl | exact absurd rfl h

@[simp] theorem BuffersOf.trlBuf_setAccBuf (b : AccBuffer) (c : TrlBuffer) (m : Memory) :
    (s.setAccBuf b m).trlBuf c = s.trlBuf c := by cases b <;> cases c <;> rfl

end buffers

/-- Each buffer of a canonical set of buffers is canonical. -/
theorem BuffersOf.wf_get {s : Buffers} (h : s.wf = true) (b : BufferId) : Memory.wf (s.get b) = true := by
  simp only [BuffersOf.wf, Bool.and_eq_true] at h
  obtain ⟨⟨⟨⟨⟨⟨h1, h2⟩, h3⟩, h4⟩, h5⟩, h6⟩, h7⟩ := h
  rcases b with b | b <;> cases b <;> assumption

/-- Replacing one buffer of unit TRL by a canonical one keeps the buffers canonical. -/
theorem BuffersOf.wf_setTrlBuf {s : Buffers} {b : TrlBuffer} {m : Memory} (h : s.wf = true)
    (hm : Memory.wf m = true) : (s.setTrlBuf b m).wf = true := by
  simp only [BuffersOf.wf, Bool.and_eq_true] at h ⊢
  obtain ⟨⟨⟨⟨⟨⟨h1, h2⟩, h3⟩, h4⟩, h5⟩, h6⟩, h7⟩ := h
  cases b <;> simp [BuffersOf.setTrlBuf, *]

/-- Replacing one buffer of unit ACC by a canonical one keeps the buffers canonical. -/
theorem BuffersOf.wf_setAccBuf {s : Buffers} {b : AccBuffer} {m : Memory} (h : s.wf = true)
    (hm : Memory.wf m = true) : (s.setAccBuf b m).wf = true := by
  simp only [BuffersOf.wf, Bool.and_eq_true] at h ⊢
  obtain ⟨⟨⟨⟨⟨⟨h1, h2⟩, h3⟩, h4⟩, h5⟩, h6⟩, h7⟩ := h
  cases b <;> simp [BuffersOf.setAccBuf, *]

end Sys2Proof.Machine
end

