-- ==== Sys2Proof/Laws/State.lean ====
section
/-!
SUPPORT. One lemma per field per update of State, and what the two ways a command ends leave in each
field, so that no proof unfolds a record update.
-/

namespace Sys2Proof.Machine

variable {F S D : Type} (N : Format F S D) (s : State.Of F S D)

@[simp] theorem State.Of.setTrl_trl (t : Trl F) : (s.setTrl t).trl = t := rfl

@[simp] theorem State.Of.setTrl_acc (t : Trl F) : (s.setTrl t).acc = s.acc := rfl

@[simp] theorem State.Of.setTrl_bufs (t : Trl F) : (s.setTrl t).bufs = s.bufs := rfl

@[simp] theorem State.Of.setTrl_response (t : Trl F) : (s.setTrl t).response = s.response := rfl

@[simp] theorem State.Of.setTrl_inputs (t : Trl F) : (s.setTrl t).inputs = s.inputs := rfl


@[simp] theorem State.Of.setAcc_trl (a : Acc) : (s.setAcc a).trl = s.trl := rfl

@[simp] theorem State.Of.setAcc_acc (a : Acc) : (s.setAcc a).acc = a := rfl

@[simp] theorem State.Of.setAcc_bufs (a : Acc) : (s.setAcc a).bufs = s.bufs := rfl

@[simp] theorem State.Of.setAcc_response (a : Acc) : (s.setAcc a).response = s.response := rfl

@[simp] theorem State.Of.setAcc_inputs (a : Acc) : (s.setAcc a).inputs = s.inputs := rfl


@[simp] theorem State.Of.setBufs_trl (b : BuffersOf S) : (s.setBufs b).trl = s.trl := rfl

@[simp] theorem State.Of.setBufs_acc (b : BuffersOf S) : (s.setBufs b).acc = s.acc := rfl

@[simp] theorem State.Of.setBufs_bufs (b : BuffersOf S) : (s.setBufs b).bufs = b := rfl

@[simp] theorem State.Of.setBufs_response (b : BuffersOf S) : (s.setBufs b).response = s.response := rfl

@[simp] theorem State.Of.setBufs_inputs (b : BuffersOf S) : (s.setBufs b).inputs = s.inputs := rfl


@[simp] theorem State.Of.respond_trl (c : Code) (r : D) : (s.respond c r).trl = s.trl := rfl

@[simp] theorem State.Of.respond_acc (c : Code) (r : D) : (s.respond c r).acc = s.acc := rfl

@[simp] theorem State.Of.respond_bufs (c : Code) (r : D) : (s.respond c r).bufs = s.bufs := rfl

@[simp] theorem State.Of.respond_response (c : Code) (r : D) : (s.respond c r).response = some ⟨c, r⟩ := rfl

@[simp] theorem State.Of.respond_inputs (c : Code) (r : D) : (s.respond c r).inputs = s.inputs := rfl


@[simp] theorem complete_trl_trl (r : D) : (complete .trl r s).trl = { s.trl with lastCode := .ok } := rfl

@[simp] theorem complete_trl_acc (r : D) : (complete .trl r s).acc = s.acc := rfl

@[simp] theorem complete_trl_bufs (r : D) : (complete .trl r s).bufs = s.bufs := rfl

@[simp] theorem complete_trl_response (r : D) : (complete .trl r s).response = some ⟨.ok, r⟩ := rfl

@[simp] theorem complete_trl_inputs (r : D) : (complete .trl r s).inputs = s.inputs := rfl

@[simp] theorem complete_acc_trl (r : D) : (complete .acc r s).trl = s.trl := rfl

@[simp] theorem complete_acc_acc (r : D) : (complete .acc r s).acc = { s.acc with lastCode := .ok } := rfl

@[simp] theorem complete_acc_bufs (r : D) : (complete .acc r s).bufs = s.bufs := rfl

@[simp] theorem complete_acc_response (r : D) : (complete .acc r s).response = some ⟨.ok, r⟩ := rfl

@[simp] theorem complete_acc_inputs (r : D) : (complete .acc r s).inputs = s.inputs := rfl

@[simp] theorem raise_trl_trl (c : Code) :
    (raise N .trl c s).trl = { s.trl with status := s.trl.status ||| c.statusMask, lastCode := c } := rfl

@[simp] theorem raise_trl_acc (c : Code) :
    (raise N .trl c s).acc = s.acc := rfl

@[simp] theorem raise_trl_bufs (c : Code) :
    (raise N .trl c s).bufs = s.bufs := rfl

@[simp] theorem raise_trl_response (c : Code) :
    (raise N .trl c s).response = some ⟨c, N.ofBits 0⟩ := rfl

@[simp] theorem raise_trl_inputs (c : Code) :
    (raise N .trl c s).inputs = s.inputs := rfl

@[simp] theorem raise_acc_trl (c : Code) :
    (raise N .acc c s).trl = s.trl := rfl

@[simp] theorem raise_acc_acc (c : Code) :
    (raise N .acc c s).acc = { s.acc with status := s.acc.status ||| c.statusMask, lastCode := c } := rfl

@[simp] theorem raise_acc_bufs (c : Code) :
    (raise N .acc c s).bufs = s.bufs := rfl

@[simp] theorem raise_acc_response (c : Code) :
    (raise N .acc c s).response = some ⟨c, N.ofBits 0⟩ := rfl

@[simp] theorem raise_acc_inputs (c : Code) :
    (raise N .acc c s).inputs = s.inputs := rfl

/-- The length of a buffer hangs on the units' CSRs only. -/
theorem State.Of.bufLen_congr {s t : State.Of F S D} (ht : s.trl.inCount = t.trl.inCount)
    (h1 : s.trl.capSym = t.trl.capSym) (h2 : s.trl.capPass = t.trl.capPass)
    (h3 : s.trl.capOmega = t.trl.capOmega) (h4 : s.trl.capMu = t.trl.capMu)
    (h5 : s.acc.inCount = t.acc.inCount) (h6 : s.acc.capOut = t.acc.capOut) (b : BufferId) :
    s.bufLen b = t.bufLen b := by
  rcases b with b | b <;> cases b <;> simp [State.Of.bufLen, *]

@[simp] theorem State.Of.setBufs_bufLen (m : BuffersOf S) (b : BufferId) :
    (s.setBufs m).bufLen b = s.bufLen b := by
  rcases b with b | b <;> cases b <;> rfl

@[simp] theorem presentCommand_inputs (c : CommandOf D) :
    (presentCommand c s).inputs = .issue c :: s.inputs := rfl

@[simp] theorem takeInput_presentCommand (c : CommandOf D) :
    takeInput (presentCommand c s) = some (.issue c, s) := rfl

/-! ### The binary32 case of the format, field by field -/

@[simp] theorem binary32Format_num : binary32Format.num = binary32 := rfl

@[simp] theorem binary32Format_empty : binary32Format.empty = [] := rfl

@[simp] theorem binary32Format_readElem : binary32Format.readElem = Memory.readF := rfl

@[simp] theorem binary32Format_writeElem : binary32Format.writeElem = Memory.writeF := rfl

@[simp] theorem binary32Format_valueOf (d : DWord) :
    binary32Format.valueOf d = d.extractLsb' 0 32 := rfl

@[simp] theorem binary32Format_bitsOf (d : DWord) : binary32Format.bitsOf d = d := rfl

@[simp] theorem binary32Format_ofValue (v : F32) : binary32Format.ofValue v = v.setWidth 64 := rfl

@[simp] theorem binary32Format_ofBits (d : DWord) : binary32Format.ofBits d = d := rfl

end Sys2Proof.Machine
end

