-- ==== Sys2Proof/Laws/Ops.lean ====
section
/-!
SUPPORT. What the shared operations can do. A buffer access succeeds exactly inside the buffer's length
and changes nothing but the element written; a command of a unit but `PROCESS` either completes with one
update of its unit, or raises one code.
-/

namespace Sys2Proof.Machine

variable {F S D : Type} {N : Format F S D} {s s' : State.Of F S D}

/-- `MemRead` inside the buffer. -/
theorem memReadF_inside {b : TrlBuffer} {i : Nat} (h : i < s.bufLen (.trl b)) :
    memReadF N s b i = .ok (N.readElem (s.bufs.trlBuf b) i) := if_pos h

/-- `MemWrite` inside the buffer. -/
theorem memWriteF_inside {b : TrlBuffer} {i : Nat} (v : F) (h : i < s.bufLen (.trl b)) :
    memWriteF N s b i v
      = .ok (s.setBufs (s.bufs.setTrlBuf b (N.writeElem (s.bufs.trlBuf b) i v))) := if_pos h

/-- `MemRead` of a unit inside the buffer. -/
theorem memReadUnit_inside {b : AccBuffer} {i : Nat} (h : i < s.bufLen (.acc b)) :
    memReadUnit s b i = .ok (Memory.read (s.bufs.accBuf b) i) := if_pos h

/-- `MemWrite` of a unit inside the buffer. -/
theorem memWriteUnit_inside {b : AccBuffer} {i : Nat} (v : Byte) (h : i < s.bufLen (.acc b)) :
    memWriteUnit s b i v
      = .ok (s.setBufs (s.bufs.setAccBuf b (Memory.write (s.bufs.accBuf b) i v))) := if_pos h

/-- All a `MemWrite` that answers can do. -/
theorem memWriteF_ok {b : TrlBuffer} {i : Nat} {v : F} (h : memWriteF N s b i v = .ok s') :
    i < s.bufLen (.trl b)
      ∧ s' = s.setBufs (s.bufs.setTrlBuf b (N.writeElem (s.bufs.trlBuf b) i v)) := by
  unfold memWriteF at h
  split at h
  · exact ⟨‹_›, (Except.ok.inj h).symm⟩
  · cases h

/-- All a `MemWrite` of a unit that answers can do. -/
theorem memWriteUnit_ok {b : AccBuffer} {i : Nat} {v : Byte} (h : memWriteUnit s b i v = .ok s') :
    i < s.bufLen (.acc b)
      ∧ s' = s.setBufs (s.bufs.setAccBuf b (Memory.write (s.bufs.accBuf b) i v)) := by
  unfold memWriteUnit at h
  split at h
  · exact ⟨‹_›, (Except.ok.inj h).symm⟩
  · cases h

/-- A run of reads inside the buffer gives its elements in order. -/
theorem memReadRun_inside {b : TrlBuffer} {i n : Nat} (h : i + n ≤ s.bufLen (.trl b)) :
    memReadRun N s b i n =
      .ok ((List.range n).map fun j => N.readElem (s.bufs.trlBuf b) (i + j)) := by
  induction n generalizing i with
  | zero => rfl
  | succ n ih =>
    simp only [memReadRun, memReadF_inside (show i < s.bufLen (.trl b) by omega),
      ih (show i + 1 + n ≤ s.bufLen (.trl b) by omega), List.range_succ_eq_map, List.map_cons,
      List.map_map, Nat.add_zero]
    congr 2
    apply List.map_congr_left
    intro j _
    simp only [Function.comp, Nat.succ_eq_add_one]
    congr 1; omega

/-- The window of a symbol step inside `TRL_IN` (41_timing_recovery.md R141). -/
theorem memReadRun_window {c n : Nat} (h : c + n ≤ s.trl.inCount.toNat) :
    memReadRun N s .trlIn c n = .ok (s.windowOf N c n) :=
  memReadRun_inside (b := .trlIn) h

/-! ### The commands but `PROCESS` -/

variable (N : Format F S D) (P : Params F) (s : State.Of F S D)

/-- `TRL.RESET` completes. -/
@[simp] theorem trlReset_eq :
    trlReset N s = complete .trl (N.ofBits 0) (s.setTrl (Trl.reset N.num.zero)) := rfl

/-- A command of unit ACC that only updates it completes. -/
@[simp] theorem accUpdate_eq (a : Acc) :
    accUpdate N a s = complete .acc (N.ofBits 0) (s.setAcc a) := rfl

/-- All `TRL.CONFIG` can do (41_timing_recovery.md R122, R123). -/
theorem trlConfig_cases :
    (s.trl.configOk N.num = true
      ∧ trlConfig N s = complete .trl (N.ofBits 0) (s.setTrl (s.trl.configure N.num)))
    ∨ (s.trl.configOk N.num = false ∧ trlConfig N s = raise N .trl .invalidParam s) := by
  unfold trlConfig
  cases s.trl.configOk N.num
  · exact .inr ⟨rfl, rfl⟩
  · exact .inl ⟨rfl, rfl⟩

/-- All `TRL.FORECAST` can do (41_timing_recovery.md R125). -/
theorem trlForecast_cases (n : Word) :
    (s.trl.mode = .ready ∧ trlForecast N P n s = complete .trl
        (N.ofBits (BitVec.ofNat 64 (s.trl.forecast N.num P.ntaps n.toNat))) s)
    ∨ (s.trl.mode ≠ .ready ∧ trlForecast N P n s = raise N .trl .notReady s) := by
  unfold trlForecast
  split
  · exact .inl ⟨‹_›, rfl⟩
  · exact .inr ⟨‹_›, rfl⟩

/-- All `ACC.CONFIG` and `ACC.SET_CODE` can do (42_access_code_correlator.md R182, R183). -/
theorem accLoad_cases (a : Acc) :
    (s.acc.codeLen.toNat ≤ 64 ∧ accLoad N a s = complete .acc (N.ofBits 0) (s.setAcc a))
    ∨ (64 < s.acc.codeLen.toNat ∧ accLoad N a s = raise N .acc .invalidParam s) := by
  unfold accLoad
  split
  · exact .inr ⟨‹_›, rfl⟩
  · exact .inl ⟨by omega, rfl⟩

/-- All `TRL.CSRR` can do (43_csr_access.md R230, R232). -/
theorem trlCsrr_cases (csr : BitVec 12) :
    (∃ r, trlCsrOf csr = some r ∧ trlCsrr N P csr s = complete .trl (trlCsrRead N P s.trl r.csr) s)
    ∨ (trlCsrOf csr = none ∧ trlCsrr N P csr s = raise N .trl .illegalCmd s) := by
  unfold trlCsrr
  cases trlCsrOf csr with
  | none => exact .inr ⟨rfl, rfl⟩
  | some r => exact .inl ⟨r, rfl, rfl⟩

/-- All `TRL.CSRW` can do (43_csr_access.md R231 to R235). -/
theorem trlCsrw_cases (csr : BitVec 12) (d : D) :
    (∃ r, trlCsrOf csr = some r ∧ r.access ≠ .ro
      ∧ trlCsrw N csr d s = complete .trl (N.ofBits 0) (s.setTrl (trlCsrStore N s.trl r.csr d)))
    ∨ ((∀ r, trlCsrOf csr = some r → r.access = .ro)
      ∧ trlCsrw N csr d s = raise N .trl .illegalCmd s) := by
  unfold trlCsrw
  cases trlCsrOf csr with
  | none => exact .inr ⟨fun r h => (Option.some_ne_none r h.symm).elim, rfl⟩
  | some r =>
    by_cases h : r.access = .ro
    · exact .inr ⟨fun q hq => by cases hq; exact h, if_pos h⟩
    · exact .inl ⟨r, rfl, h, if_neg h⟩

/-- All `ACC.CSRR` can do (43_csr_access.md R230, R232). -/
theorem accCsrr_cases (csr : BitVec 12) :
    (∃ r, accCsrOf csr = some r
      ∧ accCsrr N csr s = complete .acc (N.ofBits (accCsrRead s.acc r.csr)) s)
    ∨ (accCsrOf csr = none ∧ accCsrr N csr s = raise N .acc .illegalCmd s) := by
  unfold accCsrr
  cases accCsrOf csr with
  | none => exact .inr ⟨rfl, rfl⟩
  | some r => exact .inl ⟨r, rfl, rfl⟩

/-- All `ACC.CSRW` can do (43_csr_access.md R231 to R235). -/
theorem accCsrw_cases (csr : BitVec 12) (d : DWord) :
    (∃ r, accCsrOf csr = some r ∧ r.access ≠ .ro
      ∧ accCsrw N csr d s = complete .acc (N.ofBits 0) (s.setAcc (accCsrStore s.acc r.csr d)))
    ∨ ((∀ r, accCsrOf csr = some r → r.access = .ro)
      ∧ accCsrw N csr d s = raise N .acc .illegalCmd s) := by
  unfold accCsrw
  cases accCsrOf csr with
  | none => exact .inr ⟨fun r h => (Option.some_ne_none r h.symm).elim, rfl⟩
  | some r =>
    by_cases h : r.access = .ro
    · exact .inr ⟨fun q hq => by cases hq; exact h, if_pos h⟩
    · exact .inl ⟨r, rfl, h, if_neg h⟩

end Sys2Proof.Machine
end

