-- ==== Sys2Proof/Laws/Acc.lean ====
section
/-!
SUPPORT. The bit step of unit ACC: the fields it leaves, the registers it writes, and all that the loop
of `ACC.PROCESS` does inside its buffers.
-/

namespace Sys2Proof.Machine

section fields
variable (a : Acc) (b : Bool)

/-- The ambiguity diagnostic writes its two fields and one `STATUS` bit, and nothing else. -/
theorem Acc.diagnose_eq : a.diagnose = { a with
    ambigCount := if a.isMatch && a.isMatchInv then a.ambigCount + 1 else a.ambigCount,
    lastAmbigBit := if a.isMatch && a.isMatchInv then a.bitCount else a.lastAmbigBit,
    status := if a.isMatch && a.isMatchInv then a.status ||| ambiguousMatchMask else a.status } := by
  unfold Acc.diagnose
  split <;> rfl

@[simp] theorem Acc.bitStep_invert : (a.bitStep b).invert = a.resolve := rfl
@[simp] theorem Acc.bitStep_dataReg : (a.bitStep b).dataReg
    = a.dataReg <<< 1 ||| (BitVec.ofBool (b != a.resolve)).setWidth 64 := by
  simp [Acc.bitStep, Acc.shiftIn, Acc.diagnose_eq]
@[simp] theorem Acc.bitStep_flagReg : (a.bitStep b).flagReg
    = a.flagReg <<< 1 ||| (if a.isMatch || a.isMatchInv then a.flagBit else 0) := by
  simp [Acc.bitStep, Acc.shiftIn, Acc.diagnose_eq]
@[simp] theorem Acc.bitStep_invertReg : (a.bitStep b).invertReg
    = a.invertReg <<< 1 ||| (if a.isMatchInv then a.flagBit else 0) := by
  simp [Acc.bitStep, Acc.shiftIn, Acc.diagnose_eq]
@[simp] theorem Acc.bitStep_bitCount : (a.bitStep b).bitCount = a.bitCount + 1 := by
  simp [Acc.bitStep, Acc.shiftIn, Acc.diagnose_eq]
@[simp] theorem Acc.bitStep_ambigCount : (a.bitStep b).ambigCount
    = if a.isMatch && a.isMatchInv then a.ambigCount + 1 else a.ambigCount := by
  simp [Acc.bitStep, Acc.shiftIn, Acc.diagnose_eq]
@[simp] theorem Acc.bitStep_lastAmbigBit : (a.bitStep b).lastAmbigBit
    = if a.isMatch && a.isMatchInv then a.bitCount else a.lastAmbigBit := by
  simp [Acc.bitStep, Acc.shiftIn, Acc.diagnose_eq]
@[simp] theorem Acc.bitStep_status : (a.bitStep b).status
    = if a.isMatch && a.isMatchInv then a.status ||| ambiguousMatchMask else a.status := by
  simp [Acc.bitStep, Acc.shiftIn, Acc.diagnose_eq]
@[simp] theorem Acc.bitStep_accessCode : (a.bitStep b).accessCode = a.accessCode := by
  simp [Acc.bitStep, Acc.shiftIn, Acc.diagnose_eq]
@[simp] theorem Acc.bitStep_invAccessCode : (a.bitStep b).invAccessCode = a.invAccessCode := by
  simp [Acc.bitStep, Acc.shiftIn, Acc.diagnose_eq]
@[simp] theorem Acc.bitStep_mask : (a.bitStep b).mask = a.mask := by
  simp [Acc.bitStep, Acc.shiftIn, Acc.diagnose_eq]
@[simp] theorem Acc.bitStep_flagBit : (a.bitStep b).flagBit = a.flagBit := by
  simp [Acc.bitStep, Acc.shiftIn, Acc.diagnose_eq]
@[simp] theorem Acc.bitStep_len : (a.bitStep b).len = a.len := by
  simp [Acc.bitStep, Acc.shiftIn, Acc.diagnose_eq]
@[simp] theorem Acc.bitStep_threshold : (a.bitStep b).threshold = a.threshold := by
  simp [Acc.bitStep, Acc.shiftIn, Acc.diagnose_eq]
@[simp] theorem Acc.bitStep_detectInv : (a.bitStep b).detectInv = a.detectInv := by
  simp [Acc.bitStep, Acc.shiftIn, Acc.diagnose_eq]
@[simp] theorem Acc.bitStep_mode : (a.bitStep b).mode = a.mode := by
  simp [Acc.bitStep, Acc.shiftIn, Acc.diagnose_eq]
@[simp] theorem Acc.bitStep_irqEn : (a.bitStep b).irqEn = a.irqEn := by
  simp [Acc.bitStep, Acc.shiftIn, Acc.diagnose_eq]
@[simp] theorem Acc.bitStep_lastCode : (a.bitStep b).lastCode = a.lastCode := by
  simp [Acc.bitStep, Acc.shiftIn, Acc.diagnose_eq]
@[simp] theorem Acc.bitStep_cfgThreshold : (a.bitStep b).cfgThreshold = a.cfgThreshold := by
  simp [Acc.bitStep, Acc.shiftIn, Acc.diagnose_eq]
@[simp] theorem Acc.bitStep_cfgDetectInv : (a.bitStep b).cfgDetectInv = a.cfgDetectInv := by
  simp [Acc.bitStep, Acc.shiftIn, Acc.diagnose_eq]
@[simp] theorem Acc.bitStep_codeLen : (a.bitStep b).codeLen = a.codeLen := by
  simp [Acc.bitStep, Acc.shiftIn, Acc.diagnose_eq]
@[simp] theorem Acc.bitStep_codeStr : (a.bitStep b).codeStr = a.codeStr := by
  simp [Acc.bitStep, Acc.shiftIn, Acc.diagnose_eq]
@[simp] theorem Acc.bitStep_inCount : (a.bitStep b).inCount = a.inCount := by
  simp [Acc.bitStep, Acc.shiftIn, Acc.diagnose_eq]
@[simp] theorem Acc.bitStep_capOut : (a.bitStep b).capOut = a.capOut := by
  simp [Acc.bitStep, Acc.shiftIn, Acc.diagnose_eq]
@[simp] theorem Acc.bitStep_consumed : (a.bitStep b).consumed = a.consumed := by
  simp [Acc.bitStep, Acc.shiftIn, Acc.diagnose_eq]
@[simp] theorem Acc.bitStep_produced : (a.bitStep b).produced = a.produced := by
  simp [Acc.bitStep, Acc.shiftIn, Acc.diagnose_eq]

@[simp] theorem Acc.run_nil : a.run [] = a := rfl
@[simp] theorem Acc.run_cons (bs : List Bool) : a.run (b :: bs) = (a.bitStep b).run bs := rfl
@[simp] theorem Acc.outputs_nil : a.outputs [] = [] := rfl
@[simp] theorem Acc.outputs_cons (bs : List Bool) :
    a.outputs (b :: bs) = a.output :: (a.bitStep b).outputs bs := rfl

end fields

section loop
variable {F S D : Type}

/-- The input bits of `n` units from unit `i` on. -/
def State.Of.bitsFrom (s : State.Of F S D) (i n : Nat) : List Bool :=
  (List.range n).map fun j => (Memory.read s.bufs.accIn (i + j)).getLsbD 0

/-- All that `n` bit steps from unit `i` on do, inside both buffers: the unit runs the bits, the output
units go to `ACC_OUT` from element `i` on, and nothing else changes. -/
theorem accLoop_inside {n i : Nat} {s : State.Of F S D} (hi : i + n ≤ s.acc.inCount.toNat)
    (ho : i + n ≤ s.acc.capOut.toNat) :
    ∃ m : Memory, accLoop n i s = .ok { s with
        acc := s.acc.run (s.bitsFrom i n), bufs := { s.bufs with accOut := m } }
      ∧ (Memory.wf s.bufs.accOut = true → Memory.wf m = true)
      ∧ (∀ a, a < i ∨ i + n ≤ a → Memory.read m a = Memory.read s.bufs.accOut a)
      ∧ (Memory.wf s.bufs.accOut = true →
          (List.range n).map (fun j => Memory.read m (i + j)) = s.acc.outputs (s.bitsFrom i n)) := by
  induction n generalizing i s with
  | zero => exact ⟨s.bufs.accOut, rfl, id, fun _ _ => rfl, fun _ => rfl⟩
  | succ n ih =>
    have h1 : i < s.bufLen (.acc .accIn) := by simp only [State.Of.bufLen]; omega
    generalize hb : (Memory.read (s.bufs.accBuf .accIn) i).getLsbD 0 = b
    have h2 : i < (s.setAcc (s.acc.bitStep b)).bufLen (.acc .accOut) := by
      simp only [State.Of.bufLen, State.Of.setAcc_acc, Acc.bitStep_capOut]; omega
    have hbits : s.bitsFrom i (n + 1) = b :: s.bitsFrom (i + 1) n := by
      simp only [State.Of.bitsFrom, List.range_succ_eq_map, List.map_cons, List.map_map]
      refine congrArg₂ _ hb (List.map_congr_left fun j _ => ?_)
      simp only [Function.comp]
      congr 2; omega
    simp only [accLoop, memReadUnit_inside h1, hb, memWriteUnit_inside _ h2]
    obtain ⟨m, hm, hwf, hout, hin⟩ := ih (i := i + 1)
      (s := (s.setAcc (s.acc.bitStep b)).setBufs (s.bufs.setAccBuf .accOut
        (Memory.write s.bufs.accOut i s.acc.output)))
      (by simp only [State.Of.setBufs_acc, State.Of.setAcc_acc, Acc.bitStep_inCount]; omega)
      (by simp only [State.Of.setBufs_acc, State.Of.setAcc_acc, Acc.bitStep_capOut]; omega)
    rw [hbits]
    refine ⟨m, hm, fun hw => hwf (Memory.wf_write _ _ hw), fun a ha => ?_, fun hw => ?_⟩
    · rw [hout a (by omega)]
      exact Memory.read_write_other _ (by omega)
    · have h0 : Memory.read m i = s.acc.output :=
        (hout i (.inl (Nat.lt_succ_self i))).trans (Memory.read_write_same _ _ hw)
      rw [List.range_succ_eq_map, List.map_cons, List.map_map, Acc.outputs_cons]
      refine congrArg₂ _ h0 (Eq.trans (List.map_congr_left fun j _ => ?_) (hin (Memory.wf_write _ _ hw)))
      simp only [Function.comp]
      congr 1; omega

end loop

end Sys2Proof.Machine
end

