-- ==== Sys2Proof/Laws/AnyNum.lean ====
section
/-!
SUPPORT. The machine with `NUM` as an argument: this machine is its `NUM = Binary32` case. And what the
machine does not have (60_exceptions.md rule R260): after reset it waits, and after an error it goes on
with the host's next action; there is no address to go to.
-/

namespace Sys2Proof.Machine

/-- The data word of a decoded `TRL.CSRW` is the command's. -/
theorem decode_trlCsrw_data {c : Command} {csr : BitVec 12} {d : DWord}
    (h : decode c = .instr (.trlCsrw csr d)) : d = c.d := by
  unfold decode at h
  split at h
  · split at h
    · unfold decodeTrl at h
      split at h <;> first
        | (simp only [plainCommand] at h; split at h <;> simp at h)
        | (simp only [Decoded.instr.injEq, Instr.trlCsrw.injEq] at h; exact h.2.symm)
        | simp at h
    · cases h
  · split at h
    · split at h
      · unfold decodeAcc at h
        split at h <;> first
          | (simp only [plainCommand] at h; split at h <;> simp at h)
          | simp at h
      · cases h
    · cases h

/-- A decoded command does in this machine what it does in the machine of any format, taken at
`NUM = Binary32`. -/
theorem exec_eq_execOf {c : Command} {i : Instr} (h : decode c = .instr i) (s : State) :
    exec i s = execOf binary32Format Config.params i c.d s := by
  cases i with
  | trlCsrw csr d => rw [decode_trlCsrw_data h]; rfl
  | _ => rfl

/-- This machine is the machine of any format, taken at `NUM = Binary32` (00_scope.md R7). -/
theorem step_is_binary32_machine (s : State) :
    step s = (machine binary32Format Config.params).step s := by
  show stepOf _ _ s = stepOf _ _ s
  unfold stepOf
  split
  · rfl
  · rename_i h s' _
    cases h with
    | issue c =>
      simp only [runInputOf, runCommandOf, binary32Format_bitsOf]
      split
      · exact exec_eq_execOf ‹_› s'
      · rfl
      · rfl
    | fill b i v => rfl
    | powerOn => rfl

/-- Both start from the same state. -/
theorem reset_is_binary32_machine :
    State.reset = (machine binary32Format Config.params).reset := rfl

/-- No reset vector (60_exceptions.md R260): after reset the machine waits for the host. -/
theorem reset_waits : step State.reset = .next State.reset := rfl

/-- No vector table (60_exceptions.md R260): an error leaves the host's next action the next one. -/
theorem raise_leaves_the_next_action {F S D : Type} (N : Format F S D) (u : UnitId) (c : Code)
    (s : State.Of F S D) :
    (takeInput (raise N u c s)).map Prod.fst = (takeInput s).map Prod.fst := by
  have h : (raise N u c s).inputs = s.inputs := by cases u <;> simp
  unfold takeInput
  rw [h]
  cases s.inputs <;> rfl

end Sys2Proof.Machine
end

