-- ==== Sys2Proof/Laws/Decode.lean ====
section
/-!
SUPPORT. The fields of a format C word, and the classes of a command word by its number.
-/

namespace Sys2Proof

variable (u o : BitVec 4) (c : BitVec 12)

@[simp] theorem unitField_formatC : unitField (formatC u o c) = u := by
  apply BitVec.eq_of_getLsbD_eq
  intro i hi
  simp only [unitField, formatC, BitVec.getLsbD_extractLsb', BitVec.getLsbD_append, hi, decide_true,
    Bool.true_and, show ¬ 28 + i < 12 by omega, show ¬ 28 + i - 12 < 12 by omega,
    show ¬ 28 + i - 12 - 12 < 4 by omega, if_false]
  congr 1; omega

@[simp] theorem opField_formatC : opField (formatC u o c) = o := by
  apply BitVec.eq_of_getLsbD_eq
  intro i hi
  simp only [opField, formatC, BitVec.getLsbD_extractLsb', BitVec.getLsbD_append, hi, decide_true,
    Bool.true_and, show ¬ 24 + i < 12 by omega, show ¬ 24 + i - 12 < 12 by omega,
    show 24 + i - 12 - 12 < 4 by omega, if_true, if_false]
  congr 1; omega

@[simp] theorem csrField_formatC : csrField (formatC u o c) = c := by
  apply BitVec.eq_of_getLsbD_eq
  intro i hi
  simp only [csrField, formatC, BitVec.getLsbD_extractLsb', BitVec.getLsbD_append, hi, decide_true,
    Bool.true_and, show ¬ 12 + i < 12 by omega, show 12 + i - 12 < 12 by omega, if_true, if_false]
  congr 1; omega

@[simp] theorem zeroField_formatC : zeroField (formatC u o c) = 0#12 := by
  apply BitVec.eq_of_getLsbD_eq
  intro i hi
  simp only [zeroField, formatC, BitVec.getLsbD_extractLsb', BitVec.getLsbD_append, hi, decide_true,
    Bool.true_and, Nat.zero_add, if_true]

/-- The four fields as numbers: they are the digits of the word (30_encoding.md R92). -/
theorem fields_toNat (w : Word) :
    (unitField w).toNat = w.toNat / 2 ^ 28 ∧ (opField w).toNat = w.toNat / 2 ^ 24 % 16
      ∧ (csrField w).toNat = w.toNat / 2 ^ 12 % 2 ^ 12 ∧ (zeroField w).toNat = w.toNat % 2 ^ 12 := by
  have := w.isLt
  simp only [unitField, opField, csrField, zeroField, BitVec.extractLsb'_toNat,
    Nat.shiftRight_eq_div_pow, pow_zero, Nat.div_one]
  refine ⟨?_, ?_, ?_, ?_⟩ <;> norm_num <;> omega

/-- A word whose `ZERO` field is 0 is the format C word of its other three fields. -/
theorem formatC_fields {w : Word} (h : zeroField w = 0#12) :
    formatC (unitField w) (opField w) (csrField w) = w := by
  apply BitVec.eq_of_getLsbD_eq
  intro i hi
  have hz : ∀ j, j < 12 → w.getLsbD j = false := by
    intro j hj
    have := congrArg (fun z => z.getLsbD j) h
    simpa [zeroField, hj] using this
  simp only [formatC, unitField, opField, csrField, BitVec.getLsbD_append,
    BitVec.getLsbD_extractLsb']
  split
  · rw [hz i ‹_›]; simp
  · split
    · rename_i h2
      simp only [h2, decide_true, Bool.true_and]; congr 1; omega
    · split
      · rename_i h3
        simp only [h3, decide_true, Bool.true_and]; congr 1; omega
      · simp only [show i - 12 - 12 - 4 < 4 by omega, decide_true, Bool.true_and]; congr 1; omega

end Sys2Proof
end

