-- ==== Sys2Proof/Laws/Float.lean ====
section
/-!
SUPPORT. Binary32 rounding: what `roundHalfEven` gives, the fields of a packed encoding, and that the
magnitude of a rounded result is its rounded count of units.
-/

namespace Sys2Proof.Machine

/-- Rounding to nearest, ties to even: the error is at most half, and a tie gives an even result. -/
theorem roundHalfEven_spec (m s : Nat) :
    2 * m ≤ 2 * (roundHalfEven m s * 2 ^ s) + 2 ^ s
      ∧ 2 * (roundHalfEven m s * 2 ^ s) ≤ 2 * m + 2 ^ s
      ∧ ((2 * m = 2 * (roundHalfEven m s * 2 ^ s) + 2 ^ s
          ∨ 2 * (roundHalfEven m s * 2 ^ s) = 2 * m + 2 ^ s) → roundHalfEven m s % 2 = 0) := by
  have hp : 0 < 2 ^ s := Nat.two_pow_pos s
  have hdm : m / 2 ^ s * 2 ^ s + m % 2 ^ s = m := Nat.div_add_mod' m (2 ^ s)
  have hlt := Nat.mod_lt m hp
  simp only [roundHalfEven]
  split
  · rename_i h
    rw [Nat.add_mul, Nat.one_mul]
    refine ⟨by omega, by omega, fun ht => ?_⟩
    rcases h with h | ⟨h, hodd⟩
    · omega
    · omega
  · rename_i h
    refine ⟨by omega, by omega, fun ht => ?_⟩
    have : 2 * (m % 2 ^ s) = 2 ^ s := by omega
    omega

/-- Rounding a multiple of the step is exact. -/
theorem roundHalfEven_exact {m s : Nat} (h : m % 2 ^ s = 0) : roundHalfEven m s = m / 2 ^ s := by
  have hp : 0 < 2 ^ s := Nat.two_pow_pos s
  simp only [roundHalfEven, h]
  rw [if_neg (by omega)]

/-- A packed encoding as a number. -/
theorem f32Pack_toNat {neg : Bool} {mag : Nat} (h : mag < 2 ^ 31) :
    (f32Pack neg mag).toNat = (if neg then 2 ^ 31 else 0) + mag := by
  cases neg <;> (simp only [f32Pack, BitVec.toNat_ofNat]; norm_num; omega)

/-- The sign of a packed encoding. -/
theorem f32Sign_pack {neg : Bool} {mag : Nat} (h : mag < 2 ^ 31) : f32Sign (f32Pack neg mag) = neg := by
  have ht := f32Pack_toNat (neg := neg) h
  simp only [f32Sign, BitVec.getLsbD, Nat.testBit_eq_decide_div_mod_eq, ht]
  cases neg
  · simp only [Bool.false_eq_true, if_false]
    rw [decide_eq_false]; omega
  · simp only [if_true]
    rw [decide_eq_true]; omega

/-- The exponent of a packed encoding. -/
theorem f32Exp_pack {neg : Bool} {mag : Nat} (h : mag < 2 ^ 31) :
    f32Exp (f32Pack neg mag) = mag / 2 ^ 23 := by
  have ht := f32Pack_toNat (neg := neg) h
  simp only [f32Exp, ht]
  cases neg <;> (simp; omega)

/-- The fraction of a packed encoding. -/
theorem f32Frac_pack {neg : Bool} {mag : Nat} (h : mag < 2 ^ 31) :
    f32Frac (f32Pack neg mag) = mag % 2 ^ 23 := by
  have ht := f32Pack_toNat (neg := neg) h
  simp only [f32Frac, ht]
  cases neg with
  | false => simp
  | true => simp; omega

/-- A packed encoding is finite below the infinity's fields. -/
theorem f32IsFinite_pack {neg : Bool} {mag : Nat} (h : mag ≤ 0x7F800000) :
    f32IsFinite (f32Pack neg mag) = decide (mag < 0x7F800000) := by
  rw [f32IsFinite, f32Exp_pack (by omega)]
  by_cases hm : mag < 0x7F800000
  · rw [decide_eq_true hm]; simp only [bne_iff_ne, ne_eq]; omega
  · rw [decide_eq_false hm]; simp only [bne_eq_false_iff_eq]; omega

/-- The number of significant bits rounding keeps is at most 24. -/
theorem roundHalfEven_le (m d : Nat) : roundHalfEven m (f32Drop m d) ≤ 2 ^ 24 := by
  have hlog : m < 2 ^ (m.log2 + 1) := Nat.lt_log2_self
  have hs : m.log2 + 1 ≤ 24 + f32Drop m d := by simp only [f32Drop]; omega
  have hm : m < 2 ^ 24 * 2 ^ f32Drop m d := by
    calc m < 2 ^ (m.log2 + 1) := hlog
      _ ≤ 2 ^ (24 + f32Drop m d) := Nat.pow_le_pow_right (by norm_num) hs
      _ = 2 ^ 24 * 2 ^ f32Drop m d := by rw [pow_add]
  have hq : m / 2 ^ f32Drop m d < 2 ^ 24 := Nat.div_lt_of_lt_mul (by rw [Nat.mul_comm]; exact hm)
  simp only [roundHalfEven]
  split <;> omega

/-- Where rounding drops more than `d` bits the result has its leading bit at place 23. -/
theorem roundHalfEven_ge {m d : Nat} (h : d < f32Drop m d) :
    2 ^ 23 ≤ roundHalfEven m (f32Drop m d) := by
  have hs : f32Drop m d = m.log2 - 23 := by simp only [f32Drop] at h ⊢; omega
  have h23 : 23 < m.log2 := by simp only [f32Drop] at h; omega
  have hm0 : m ≠ 0 := by rintro rfl; simp at h23
  have hlog : 2 ^ m.log2 ≤ m := Nat.log2_self_le hm0
  have hq : 2 ^ 23 ≤ m / 2 ^ f32Drop m d := by
    rw [Nat.le_div_iff_mul_le (Nat.two_pow_pos _), ← pow_add, hs]
    convert hlog using 2; omega
  simp only [roundHalfEven]
  split <;> omega

/-- The magnitude of a rounded finite result, in units of 2^-149. -/
theorem f32Mag_round {neg : Bool} {m d : Nat} (h : f32RoundMag m d < 0x7F800000) :
    f32Mag (f32Pack neg (f32RoundMag m d))
      = roundHalfEven m (f32Drop m d) * 2 ^ (f32Drop m d - d) := by
  have hr := roundHalfEven_le m d
  have hge : d < f32Drop m d → 2 ^ 23 ≤ roundHalfEven m (f32Drop m d) := roundHalfEven_ge
  have hd : d ≤ f32Drop m d := le_max_left ..
  have hmag : f32RoundMag m d
      = (f32Drop m d - d) * 2 ^ 23 + roundHalfEven m (f32Drop m d) := by
    simp only [f32RoundMag] at h ⊢; omega
  rw [f32Mag, f32Exp_pack (by omega), f32Frac_pack (by omega), hmag]
  generalize hk : f32Drop m d - d = k at *
  generalize roundHalfEven m (f32Drop m d) = r at *
  rcases Nat.lt_or_ge r (2 ^ 23) with hlt | hge'
  · have hk0 : k = 0 := by
      by_contra hne
      have := hge (by omega)
      omega
    subst hk0
    simp only [Nat.zero_mul, Nat.zero_add, Nat.div_eq_of_lt hlt, if_true, Nat.mod_eq_of_lt hlt,
      pow_zero, Nat.mul_one]
  · rcases Nat.lt_or_ge r (2 ^ 24) with hlt | hge24
    · have he : (k * 2 ^ 23 + r) / 2 ^ 23 = k + 1 := by omega
      have hf : (k * 2 ^ 23 + r) % 2 ^ 23 = r - 2 ^ 23 := by omega
      rw [he, hf, if_neg (by omega), Nat.add_sub_cancel, Nat.add_sub_cancel' hge']
    · have hr24 : r = 2 ^ 24 := by omega
      have he : (k * 2 ^ 23 + r) / 2 ^ 23 = k + 2 := by omega
      have hf : (k * 2 ^ 23 + r) % 2 ^ 23 = 0 := by omega
      rw [he, hf, if_neg (by omega), hr24, show k + 2 - 1 = k + 1 by omega, pow_succ]
      ring

/-- An encoding is its sign and its low 31 bits. -/
theorem f32_eq_pack (x : F32) : x = f32Pack (f32Sign x) (x.toNat % 2 ^ 31) := by
  apply BitVec.eq_of_toNat_eq
  rw [f32Pack_toNat (Nat.mod_lt _ (by norm_num))]
  have hx := x.isLt
  simp only [f32Sign, BitVec.getLsbD, Nat.testBit_eq_decide_div_mod_eq]
  split
  · rename_i h
    have := of_decide_eq_true h
    omega
  · rename_i h
    have : ¬ x.toNat / 2 ^ 31 % 2 = 1 := fun hh => h (decide_eq_true hh)
    omega

end Sys2Proof.Machine
end

