-- ==== Sys2Proof/Laws/PerInstr.lean ====
section
/-!
SUPPORT. Statements made per instruction: the encoded word passes the four checks of 30_encoding.md
rule R96.
-/

namespace Sys2Proof.Laws

/-- The command of an instruction is well formed (30_encoding.md R96). -/
def EncodedWord.Statement (i : Instr) : Prop := (encode i).wellFormed = true

/-- The checks of a format C word, by its fields. -/
theorem wellFormed_formatC {u o : BitVec 4} {c : BitVec 12} {d : DWord}
    (hu : u.toNat = 1 ∨ u.toNat = 2) (ho : o.toNat ≤ if u.toNat = 1 then 5 else 7)
    (hc : u.toNat * 16 + o.toNat ∈ [0x14, 0x15, 0x26, 0x27] ∨ c = 0#12) :
    (⟨formatC u o c, d⟩ : Command).wellFormed = true := by
  obtain ⟨h1, h2, h3, h4⟩ := fields_toNat (formatC u o c)
  simp only [unitField_formatC, opField_formatC, csrField_formatC, zeroField_formatC] at h1 h2 h3 h4
  have h0 : (formatC u o c).toNat % 2 ^ 12 = 0 := h4.symm
  have hlt := o.isLt
  have h16 : (u.toNat * 16 + o.toNat) % 16 = o.toNat := by omega
  have h24 : (formatC u o c).toNat / 2 ^ 24 = u.toNat * 16 + o.toNat := by omega
  simp only [CommandOf.wellFormed, CommandOf.unitOk, CommandOf.opOk, CommandOf.zeroOk, CommandOf.csrOk,
    Bool.and_eq_true, Bool.or_eq_true, beq_iff_eq, List.contains_iff_mem, ← h1, ← h3, h0, h24, h16]
  refine ⟨⟨⟨hu, ?_⟩, trivial⟩, hc.imp_right fun h => by rw [h]; rfl⟩
  split at ho
  · rename_i h; rw [h, if_pos rfl]; exact decide_eq_true ho
  · rename_i h; rw [if_neg (by simpa using h)]; exact decide_eq_true ho

theorem EncodedWord.trlReset : EncodedWord.Statement .trlReset :=
  wellFormed_formatC (by decide) (by decide) (by decide)
theorem EncodedWord.trlConfig : EncodedWord.Statement .trlConfig :=
  wellFormed_formatC (by decide) (by decide) (by decide)
theorem EncodedWord.trlForecast (n : Word) : EncodedWord.Statement (.trlForecast n) :=
  wellFormed_formatC (by decide) (by decide) (by decide)
theorem EncodedWord.trlProcess : EncodedWord.Statement .trlProcess :=
  wellFormed_formatC (by decide) (by decide) (by decide)
theorem EncodedWord.trlCsrr (csr : BitVec 12) : EncodedWord.Statement (.trlCsrr csr) :=
  wellFormed_formatC (by decide) (by decide) (.inl (by decide))
theorem EncodedWord.trlCsrw (csr : BitVec 12) (d : DWord) :
    EncodedWord.Statement (.trlCsrw csr d) :=
  wellFormed_formatC (by decide) (by decide) (.inl (by decide))
theorem EncodedWord.accReset : EncodedWord.Statement .accReset :=
  wellFormed_formatC (by decide) (by decide) (by decide)
theorem EncodedWord.accConfig : EncodedWord.Statement .accConfig :=
  wellFormed_formatC (by decide) (by decide) (by decide)
theorem EncodedWord.accSetCode : EncodedWord.Statement .accSetCode :=
  wellFormed_formatC (by decide) (by decide) (by decide)
theorem EncodedWord.accSetThreshold (t : Word) : EncodedWord.Statement (.accSetThreshold t) :=
  wellFormed_formatC (by decide) (by decide) (by decide)
theorem EncodedWord.accSetDetectInv (b : Bool) : EncodedWord.Statement (.accSetDetectInv b) :=
  wellFormed_formatC (by decide) (by decide) (by decide)
theorem EncodedWord.accProcess : EncodedWord.Statement .accProcess :=
  wellFormed_formatC (by decide) (by decide) (by decide)
theorem EncodedWord.accCsrr (csr : BitVec 12) : EncodedWord.Statement (.accCsrr csr) :=
  wellFormed_formatC (by decide) (by decide) (.inl (by decide))
theorem EncodedWord.accCsrw (csr : BitVec 12) (d : DWord) :
    EncodedWord.Statement (.accCsrw csr d) :=
  wellFormed_formatC (by decide) (by decide) (.inl (by decide))

end Sys2Proof.Laws
end

