-- ==== Sys2Proof/Laws/Trl.lean ====
section
/-!
SUPPORT. The operations of unit TRL: what the passthrough copy does, the fields each update of the unit
leaves, and the equations of the process loop.
-/

namespace Sys2Proof.Machine

/-- The guard of `TRL.PROCESS`, test by test (41_timing_recovery.md R131). -/
theorem Trl.guard_iff {F : Type} {ntaps limit : Nat} {t : Trl F} {k : TrlCall} :
    t.guard ntaps limit k = true ↔
      k.kSym < t.capSym.toNat ∧ k.cursor + ntaps < limit
      ∧ (t.passEn = true → k.kPass + t.passCount.toNat ≤ t.capPass.toNat
          ∧ k.cursor + t.passCount.toNat ≤ limit)
      ∧ (t.omegaEn = true → k.kOmega < t.capOmega.toNat)
      ∧ (t.muEn = true → k.kMu < t.capMu.toNat) := by
  unfold Trl.guard
  cases t.passEn <;> cases t.omegaEn <;> cases t.muEn <;> simp [and_assoc]

section format
variable {F S D : Type} {N : Format F S D}

/-- The output buffer `o` after `n` elements of the input buffer `i`, from `src` on, were copied to it,
from `dst` on. -/
def copied (N : Format F S D) (src dst : Nat) : Nat → S → S → S
  | 0, _, o => o
  | n + 1, i, o => copied N (src + 1) (dst + 1) n i (N.writeElem o dst (N.readElem i src))

/-- The passthrough copy inside both buffers changes `TRL_PASS` and nothing else. -/
theorem copyPass_inside {n src dst : Nat} {s : State.Of F S D} (hi : src + n ≤ s.trl.inCount.toNat)
    (ho : dst + n ≤ s.trl.capPass.toNat) :
    copyPass N src dst n s = .ok (s.setBufs
      { s.bufs with trlPass := copied N src dst n s.bufs.trlIn s.bufs.trlPass }) := by
  induction n generalizing src dst s with
  | zero => rfl
  | succ n ih =>
    have h1 : src < s.bufLen (.trl .trlIn) := by simp only [State.Of.bufLen]; omega
    have h2 : dst < s.bufLen (.trl .trlPass) := by simp only [State.Of.bufLen]; omega
    simp only [copyPass, memReadF_inside h1, memWriteF_inside _ h2]
    exact ih (by simp only [State.Of.setBufs_trl]; omega) (by simp only [State.Of.setBufs_trl]; omega)

/-- An enabled output inside its buffer; a disabled one is not written. -/
theorem writeIf_inside {en : Bool} {b : TrlBuffer} {i : Nat} {v : F} {s : State.Of F S D}
    (h : en = true → i < s.bufLen (.trl b)) :
    writeIf N en b i v s = .ok (if en then
      s.setBufs (s.bufs.setTrlBuf b (N.writeElem (s.bufs.trlBuf b) i v)) else s) := by
  cases en
  · rfl
  · simp [writeIf, memWriteF_inside v (h rfl)]

/-- All that committing a symbol step does where the guard admits it (41_timing_recovery.md R132): the
call context and unit TRL as the two functions give them, each enabled output's element, the
passthrough copy in `TRL_PASS`, and nothing else. -/
theorem commitStep_eq {ntaps limit : Nat} {k : TrlCall} {v : SymbolValues F} {s : State.Of F S D}
    (hg : s.trl.guard ntaps limit k = true) (hl : limit ≤ s.trl.inCount.toNat) :
    commitStep N k v s = .ok (k.next s.trl v, { s with
      trl := s.trl.commit v (advanceCursor k.cursor v.adv).2,
      bufs := { s.bufs with
        trlSym := N.writeElem s.bufs.trlSym k.kSym v.y,
        trlPass := if s.trl.passEn then
            copied N k.cursor k.kPass s.trl.passCount.toNat s.bufs.trlIn s.bufs.trlPass
          else s.bufs.trlPass,
        trlOmega := if s.trl.omegaEn then N.writeElem s.bufs.trlOmega k.kOmega v.omega
          else s.bufs.trlOmega,
        trlMu := if s.trl.muEn then N.writeElem s.bufs.trlMu k.kMu v.mu else s.bufs.trlMu } }) := by
  obtain ⟨h1, -, h3, h4, h5⟩ := Trl.guard_iff.1 hg
  unfold commitStep writeOutputs
  rw [memWriteF_inside (b := .trlSym) _ h1]
  simp only
  by_cases hp : s.trl.passEn = true
  · obtain ⟨h31, h32⟩ := h3 hp
    rw [if_pos hp, copyPass_inside (by simp only [State.Of.setBufs_trl]; omega)
      (by simp only [State.Of.setBufs_trl]; omega)]
    simp only
    rw [writeIf_inside fun he => h4 he]
    simp only
    rw [writeIf_inside fun he => by cases s.trl.omegaEn <;> exact h5 he, if_pos hp]
    cases s.trl.omegaEn <;> cases s.trl.muEn <;> rfl
  · rw [if_neg hp]
    simp only
    rw [writeIf_inside fun he => h4 he]
    simp only
    rw [writeIf_inside fun he => by cases s.trl.omegaEn <;> exact h5 he, if_neg hp]
    cases s.trl.omegaEn <;> cases s.trl.muEn <;> rfl

end format

/-! ### The copied bytes, under `NUM = Binary32` -/

/-- A copy keeps the canonical form. -/
theorem wf_copied {n src dst : Nat} {i o : Memory} (h : Memory.wf o = true) :
    Memory.wf (copied binary32Format src dst n i o) = true := by
  induction n generalizing src dst o with
  | zero => exact h
  | succ n ih => exact ih (Memory.wf_writeF _ _ h)

/-- A copy changes no byte outside the elements it writes. -/
theorem read_copied_other {n src dst a : Nat} {i o : Memory} (h : a < 4 * dst ∨ 4 * (dst + n) ≤ a) :
    Memory.read (copied binary32Format src dst n i o) a = Memory.read o a := by
  induction n generalizing src dst o with
  | zero => rfl
  | succ n ih => exact (ih (by omega)).trans (Memory.read_writeF_other _ (by omega))

/-- A copy leaves every element outside those it writes. -/
theorem readF_copied_other {n src dst j : Nat} {i o : Memory} (h : j < dst ∨ dst + n ≤ j) :
    Memory.readF (copied binary32Format src dst n i o) j = Memory.readF o j := by
  unfold Memory.readF
  rw [read_copied_other (by omega), read_copied_other (by omega), read_copied_other (by omega),
    read_copied_other (by omega)]

/-- A copied element is the sample, unchanged. -/
theorem readF_copied {n src dst j : Nat} {i o : Memory} (h : Memory.wf o = true) (hj : j < n) :
    Memory.readF (copied binary32Format src dst n i o) (dst + j) = Memory.readF i (src + j) := by
  induction n generalizing src dst o j with
  | zero => exact absurd hj (Nat.not_lt_zero j)
  | succ n ih =>
    cases j with
    | zero =>
      exact (readF_copied_other (.inl (Nat.lt_succ_self _))).trans (Memory.readF_writeF_same _ _ h)
    | succ j =>
      have := ih (src := src + 1) (dst := dst + 1) (j := j) (Memory.wf_writeF dst (Memory.readF i src) h)
        (by omega)
      rw [show dst + (j + 1) = dst + 1 + j by omega, show src + (j + 1) = src + 1 + j by omega]
      exact this

/-- The same, with what the passthrough copy leaves in the bytes and elements of `TRL_PASS`. -/
theorem commitStep_inside {ntaps limit : Nat} {k : TrlCall} {v : SymbolValues F32} {s : State}
    (hg : s.trl.guard ntaps limit k = true) (hl : limit ≤ s.trl.inCount.toNat) :
    ∃ m : Memory, commitStep binary32Format k v s = .ok (k.next s.trl v, { s with
        trl := s.trl.commit v (advanceCursor k.cursor v.adv).2,
        bufs := { s.bufs with
          trlSym := Memory.writeF s.bufs.trlSym k.kSym v.y,
          trlPass := m,
          trlOmega := if s.trl.omegaEn then Memory.writeF s.bufs.trlOmega k.kOmega v.omega
            else s.bufs.trlOmega,
          trlMu := if s.trl.muEn then Memory.writeF s.bufs.trlMu k.kMu v.mu else s.bufs.trlMu } })
      ∧ (Memory.wf s.bufs.trlPass = true → Memory.wf m = true)
      ∧ (s.trl.passEn = false → m = s.bufs.trlPass)
      ∧ (∀ a, a < 4 * k.kPass ∨ 4 * (k.kPass + s.trl.passCount.toNat) ≤ a →
          Memory.read m a = Memory.read s.bufs.trlPass a)
      ∧ (s.trl.passEn = true → Memory.wf s.bufs.trlPass = true → ∀ j, j < s.trl.passCount.toNat →
          Memory.readF m (k.kPass + j) = Memory.readF s.bufs.trlIn (k.cursor + j)) := by
  refine ⟨_, commitStep_eq hg hl, fun hw => ?_, fun hp => if_neg (by simp [hp]), fun a ha => ?_,
    fun hp hw j hj => ?_⟩
  · split
    · exact wf_copied hw
    · exact hw
  · split
    · exact read_copied_other ha
    · rfl
  · rw [if_pos hp]
    exact readF_copied hw hj

/-! ### The loop, in any format -/

section loop
variable {F S D : Type} {N : Format F S D} {P : Params F} {limit fuel : Nat} {k k' : TrlCall}
  {s s' : State.Of F S D} {x : List F} {v : SymbolValues F}

/-- A pass ends the loop where the guard fails. -/
theorem processPass_stop (h : s.trl.guard P.ntaps limit k = false) :
    processPass N P limit k s = .ok (.halt s .ok) :=
  if_neg (by rw [h]; exact Bool.false_ne_true)

/-- A pass whose guard holds runs the symbol step on the window at the cursor; the limit of a call
never exceeds `IN_COUNT`. -/
theorem processPass_guard (h : s.trl.guard P.ntaps limit k = true)
    (hl : limit ≤ s.trl.inCount.toNat) :
    processPass N P limit k s = stepPass N P k (s.windowOf N k.cursor P.ntaps) s := by
  have hc := (Trl.guard_iff.1 h).2.1
  rw [processPass, if_pos h, memReadRun_window (by omega)]

/-- A symbol step that faults ends the loop: nothing of it is committed (41_timing_recovery.md R147). -/
theorem stepPass_none (h : s.trl.symbolStep N.num P x = none) :
    stepPass N P k x s = .ok (.halt (s.setTrl { s.trl with mode := .faulted }) .numericFault) := by
  unfold stepPass
  generalize s.trl.symbolStep N.num P x = o at h
  subst h
  rfl

/-- A symbol step that commits lets the loop go on. -/
theorem stepPass_some (h : s.trl.symbolStep N.num P x = some v)
    (hc : commitStep N k v s = .ok (k', s')) : stepPass N P k x s = .ok (.go k' s') := by
  unfold stepPass
  generalize s.trl.symbolStep N.num P x = o at h
  subst h
  simp only [hc]

/-- The loop stops where the guard fails. -/
theorem processLoop_stop (h : s.trl.guard P.ntaps limit k = false) :
    processLoop N P limit fuel k s = .ok (k, s, .ok) := by
  cases fuel with
  | zero => rfl
  | succ n => rw [processLoop, processPass_stop h]

/-- The loop ends with a pass that halts. -/
theorem processLoop_halt {c : Code} (h : processPass N P limit k s = .ok (.halt s' c)) :
    processLoop N P limit (fuel + 1) k s = .ok (k, s', c) := by
  rw [processLoop, h]

/-- The loop goes on after a pass that commits. -/
theorem processLoop_go (h : processPass N P limit k s = .ok (.go k' s')) :
    processLoop N P limit (fuel + 1) k s = processLoop N P limit fuel k' s' := by
  rw [processLoop, h]

/-- `TRL.PROCESS` of a `READY` unit whose loop ends ends with its results. -/
theorem trlProcess_ready {c : Code} (hm : s.trl.mode = .ready)
    (h : processLoop N P (s.trl.inputLimit N.num P.ntaps) s.trl.capSym.toNat s.trl.callStart s
      = .ok (k, s', c)) :
    trlProcess N P s = .next (finishProcess N (s.trl.inputLimit N.num P.ntaps) k c s') := by
  rw [trlProcess, if_pos hm]
  simp only [h]

/-- `TRL.PROCESS` of a unit that is not `READY` raises `NOT_READY`. -/
theorem trlProcess_notReady (hm : s.trl.mode ≠ .ready) :
    trlProcess N P s = .next (raise N .trl .notReady s) := if_neg hm

end loop

/-- All a symbol step that answers says: its values, and that none of them faults. -/
theorem Trl.symbolStep_some {F : Type} {K : Num F} {P : Params F} {t : Trl F} {x : List F}
    {v : SymbolValues F} (h : t.symbolStep K P x = some v) :
    v = t.loopValues K (t.interpolate K P x) ∧ v.fault K = false := by
  simp only [Trl.symbolStep] at h
  split at h
  · cases h
  · obtain rfl := Option.some.inj h
    exact ⟨rfl, Bool.eq_false_iff.2 ‹_›⟩

/-- What a fault-free step knows of its values (41_timing_recovery.md R147). -/
theorem SymbolValues.fault_false {F : Type} {K : Num F} {v : SymbolValues F}
    (h : v.fault K = false) :
    (K.isfinite v.y = true ∧ K.isfinite v.omega = true ∧ K.isfinite v.muT = true
      ∧ K.isfinite v.mu = true)
    ∧ -2 ^ 31 ≤ v.adv ∧ v.adv < 2 ^ 31 ∧ K.flt K.zero v.omega = true := by
  simp only [SymbolValues.fault, Bool.or_eq_false_iff, Bool.not_eq_false', Bool.and_eq_true,
    decide_eq_false_iff_not, not_lt, not_le] at h
  tauto

section fields
variable {F : Type} (t : Trl F) (v : SymbolValues F) (u : Bool) (limit : Nat) (k : TrlCall)

@[simp] theorem Trl.commit_omega : (t.commit v u).omega = v.omega := rfl
@[simp] theorem Trl.commit_mu : (t.commit v u).mu = v.mu := rfl
@[simp] theorem Trl.commit_lastSample : (t.commit v u).lastSample = v.y := rfl
@[simp] theorem Trl.commit_omegaMid : (t.commit v u).omegaMid = t.omegaMid := rfl
@[simp] theorem Trl.commit_omegaLim : (t.commit v u).omegaLim = t.omegaLim := rfl
@[simp] theorem Trl.commit_gainMu : (t.commit v u).gainMu = t.gainMu := rfl
@[simp] theorem Trl.commit_gainOmega : (t.commit v u).gainOmega = t.gainOmega := rfl
@[simp] theorem Trl.commit_relLimit : (t.commit v u).relLimit = t.relLimit := rfl
@[simp] theorem Trl.commit_passCount : (t.commit v u).passCount = t.passCount := rfl
@[simp] theorem Trl.commit_skip : (t.commit v u).skip = t.skip := rfl
@[simp] theorem Trl.commit_mode : (t.commit v u).mode = t.mode := rfl
@[simp] theorem Trl.commit_ctrl : (t.commit v u).ctrl = t.ctrl := rfl
@[simp] theorem Trl.commit_irqEn : (t.commit v u).irqEn = t.irqEn := rfl
@[simp] theorem Trl.commit_inCount : (t.commit v u).inCount = t.inCount := rfl
@[simp] theorem Trl.commit_capSym : (t.commit v u).capSym = t.capSym := rfl
@[simp] theorem Trl.commit_capPass : (t.commit v u).capPass = t.capPass := rfl
@[simp] theorem Trl.commit_capOmega : (t.commit v u).capOmega = t.capOmega := rfl
@[simp] theorem Trl.commit_capMu : (t.commit v u).capMu = t.capMu := rfl

@[simp] theorem Trl.finish_mode : (t.finish limit k).mode = t.mode := rfl
@[simp] theorem Trl.finish_status : (t.finish limit k).status = t.status := rfl
@[simp] theorem Trl.finish_irqEn : (t.finish limit k).irqEn = t.irqEn := rfl
@[simp] theorem Trl.finish_ctrl : (t.finish limit k).ctrl = t.ctrl := rfl
@[simp] theorem Trl.finish_omega : (t.finish limit k).omega = t.omega := rfl
@[simp] theorem Trl.finish_mu : (t.finish limit k).mu = t.mu := rfl

end fields

end Sys2Proof.Machine
end

