-- ==== Sys2Proof/Tests/Slice0.lean ====
section
/-!
SUPPORT. The model's own tests. Expected values come from 95_test_vectors.md (V-T and V-A vectors, the
encoding and interrupt tables) and 30_encoding.md, never from the model. First the smoke test of
WellFormed and the decoding of every command; then one small step for each command; then, for every
statement with hypotheses, a witness that meets them together.
-/

namespace Sys2Proof.Tests

open Sys2Proof.Machine

-- One theorem after the other: theorems elaborated side by side wait for each other in the kernel,
-- each in a thread of its own.
set_option Elab.async false

/-! ### WellFormed and decoding -/

theorem test_unit_check_refuses : (⟨0x30000000#32, 0⟩ : Command).unitOk = false
    ∧ (⟨0x30000000#32, 0⟩ : Command).wellFormed = false := by decide
theorem test_op_check_refuses : (⟨0x16000000#32, 0⟩ : Command).opOk = false
    ∧ (⟨0x28000000#32, 0⟩ : Command).wellFormed = false := by decide
theorem test_zero_check_refuses : (⟨0x13000001#32, 0⟩ : Command).zeroOk = false
    ∧ (⟨0x13000001#32, 0⟩ : Command).wellFormed = false := by decide
theorem test_csr_check_refuses : (⟨0x11005000#32, 0⟩ : Command).csrOk = false
    ∧ (⟨0x11005000#32, 0⟩ : Command).wellFormed = false := by decide

/- The words below are written bit by bit: UNIT, OP, CSR, ZERO (30_encoding.md R92, R94). -/

theorem test_decode_trlReset :
    decode ⟨0b0001_0000_000000000000_000000000000#32, 0#64⟩ = .instr .trlReset := by decide
theorem test_decode_trlConfig :
    decode ⟨0b0001_0001_000000000000_000000000000#32, 0#64⟩ = .instr .trlConfig := by decide
theorem test_decode_trlForecast :
    decode ⟨0b0001_0010_000000000000_000000000000#32, 0x0000000100000003#64⟩
      = .instr (.trlForecast 3#32) := by decide
theorem test_decode_trlProcess :
    decode ⟨0b0001_0011_000000000000_000000000000#32, 7#64⟩ = .instr .trlProcess := by decide
theorem test_decode_trlCsrr :
    decode ⟨0b0001_0100_000000100000_000000000000#32, 0#64⟩ = .instr (.trlCsrr 0x020#12) := by decide
theorem test_decode_trlCsrw :
    decode ⟨0b0001_0101_000000000100_000000000000#32, 7#64⟩ = .instr (.trlCsrw 0x004#12 7#64) := by
  decide
theorem test_decode_accReset :
    decode ⟨0b0010_0000_000000000000_000000000000#32, 0#64⟩ = .instr .accReset := by decide
theorem test_decode_accConfig :
    decode ⟨0b0010_0001_000000000000_000000000000#32, 0#64⟩ = .instr .accConfig := by decide
theorem test_decode_accSetCode :
    decode ⟨0b0010_0010_000000000000_000000000000#32, 0#64⟩ = .instr .accSetCode := by decide
theorem test_decode_accSetThreshold :
    decode ⟨0b0010_0011_000000000000_000000000000#32, 4#64⟩ = .instr (.accSetThreshold 4#32) := by
  decide
theorem test_decode_accSetDetectInv :
    decode ⟨0b0010_0100_000000000000_000000000000#32, 0xFFFFFFFFFFFFFFFF#64⟩
      = .instr (.accSetDetectInv true) := by decide
theorem test_decode_accProcess :
    decode ⟨0b0010_0101_000000000000_000000000000#32, 0#64⟩ = .instr .accProcess := by decide
theorem test_decode_accCsrr :
    decode ⟨0b0010_0110_000100000000_000000000000#32, 0#64⟩ = .instr (.accCsrr 0x100#12) := by decide
theorem test_decode_accCsrw :
    decode ⟨0b0010_0111_000100000011_000000000000#32, 0x31#64⟩
      = .instr (.accCsrw 0x103#12 0x31#64) := by decide
/-- The table numbers bit 0 of `W` first; `D` follows as bits 95 to 32. -/
theorem test_decodeTableWord : decodeTableWord 32 0x13000000 = some .trlProcess
    ∧ decodeTableWord 32 0x30000000 = none
    ∧ decodeTableWord 96 (0xA * 2 ^ 32 + 0x12000000) = some (.trlForecast 10#32) := by decide

/-! ### States for the tests -/

/-- The next state of an outcome, or the reset state. -/
def after (o : Host.Outcome State Fault Refusal) : State :=
  match o with
  | .next t => t
  | .fault _ => State.reset
  | .refused _ => State.reset

/-- Whether an outcome is a next state. -/
def isNext (o : Host.Outcome State Fault Refusal) : Bool :=
  match o with
  | .next _ => true
  | .fault _ => false
  | .refused _ => false

theorem next_after {o : Host.Outcome State Fault Refusal} (h : isNext o = true) :
    o = .next (after o) := by
  cases o <;> first | rfl | cases h

/-- One coefficient of the parameters TC1 of 95_test_vectors.md: linear interpolation at quarters. -/
def tc1Tap (p k : Nat) : F32 :=
  if k = 1 ∧ p = 0 ∨ k = 2 ∧ p = 4 then 0x3F800000#32
  else if k = 1 ∧ p = 1 ∨ k = 2 ∧ p = 3 then 0x3F400000#32
  else if (k = 1 ∨ k = 2) ∧ p = 2 then 0x3F000000#32
  else if k = 1 ∧ p = 3 ∨ k = 2 ∧ p = 1 then 0x3E800000#32
  else 0#32

/-- The test configuration TC1 of 95_test_vectors.md. -/
def tc1 : Params F32 :=
  { ntaps := 4, nsteps := 4, taps := tc1Tap,
    dot := fun h x => (List.zipWith f32Mul h x).foldl f32Add 0#32 }

/-- Unit TRL with its staging CSRs set: `omega0`, `gain_mu`, `gain_omega`, `rel_limit`, `mu0`. -/
def staged (o gm go rl m0 : F32) : State :=
  State.reset.setTrl { State.reset.trl with
    cfgOmega0 := o, cfgGainMu := gm, cfgGainOmega := go, cfgRelLimit := rl, cfgMu0 := m0 }

/-- Unit TRL configured, with its counts, capacities and `CTRL`, and the input samples `x`. -/
def called (o gm go rl m0 : F32) (n cs : Word) (ctrl : Word) (x : List F32) : State :=
  let s := after (exec .trlConfig (staged o gm go rl m0))
  x.zipIdx.foldl (fun s p => hostFill binary32Format (.trl .trlIn) p.2 (p.1.setWidth 64) s)
    (s.setTrl { s.trl with inCount := n, capSym := cs, capPass := cs, capOmega := cs, capMu := cs,
                           ctrl := ctrl })

/-- V-T10: cfg(1, 8, 0, 0, 0), input 0, 1, 0, 0, 0, 0, one symbol. -/
def vt10 : State :=
  called 0x3F800000#32 0x41000000#32 0#32 0#32 0#32 6#32 1#32 0#32
    [0#32, 0x3F800000#32, 0#32, 0#32, 0#32, 0#32]

/-- V-T13: a NaN in the first window. -/
def vt13 : State :=
  called 0x3F800000#32 0#32 0#32 0#32 0#32 5#32 1#32 0#32 [0#32, 0x7FC00000#32, 0#32, 0#32, 0#32]

/-- V-T11: the phase rounds to 1.0. -/
def vt11 : State :=
  called 0x3F800000#32 0x34440000#32 0x3F7FFFFD#32 0x3F7FFFFF#32 0#32 5#32 1#32 0#32
    [0#32, 0xBF800000#32, 0#32, 0#32, 0#32]

/-- Unit ACC with the code string, the threshold and the detection enable staged. -/
def accStaged (code : List Byte) (t : Word) (inv : Bool) : State :=
  State.reset.setAcc { State.reset.acc with
    codeLen := BitVec.ofNat 32 code.length,
    codeStr := Vector.ofFn fun i => code.getD i.val 0#8, cfgThreshold := t, cfgDetectInv := inv }

/-- Unit ACC configured, with `n` input units and `cap` output units, and the input `x`. -/
def accCalled (code : List Byte) (t : Word) (inv : Bool) (n cap : Word) (x : List Word) : State :=
  let s := after (exec .accConfig (accStaged code t inv))
  x.zipIdx.foldl (fun s p => hostFill binary32Format (.acc .accIn) p.2 (p.1.setWidth 64) s)
    (s.setAcc { s.acc with inCount := n, capOut := cap })

/-- V-A9: setup("1", 0, 1), the registers set, one input bit 0. -/
def va9 : State :=
  let s := accCalled [0x31#8] 0#32 true 1#32 1#32 []
  s.setAcc { s.acc with dataReg := 0x8000000000000000#64, flagReg := 0x8000000000000000#64 }

/-- V-A5: setup("", 0, 1), input 1, 0, 1. -/
def va5 : State := accCalled [] 0#32 true 3#32 3#32 [1#32, 0#32, 1#32]

/-! ### One step of each command -/

/-- V-T18, 70_reset_and_hazards.md R290. -/
theorem test_trlReset : (after (exec .trlReset vt10)).trl = State.reset.trl
    ∧ (after (exec .trlReset vt10)).bufs = vt10.bufs := by decide +kernel
/-- V-T1: rel_limit 0.99999994 gives OMEGA_LIM 0x3FFFFFFF; P is 2. -/
theorem test_trlConfig_ok :
    (after (exec .trlConfig (staged 0x40000000#32 0#32 0#32 0x3F7FFFFF#32 0#32))).trl.omegaLim
      = 0x3FFFFFFF#32
    ∧ (after (exec .trlConfig (staged 0x40000000#32 0#32 0#32 0x3F7FFFFF#32 0#32))).trl.passCount
      = 2#32 := by decide +kernel
/-- V-T1: omega0 just below 1, and mu0 a negative subnormal. -/
theorem test_trlConfig_invalid :
    (after (exec .trlConfig (staged 0x3F7FFFFF#32 0#32 0#32 0#32 0#32))).response
      = some ⟨.invalidParam, 0#64⟩
    ∧ (after (exec .trlConfig (staged 0x40000000#32 0#32 0#32 0#32 0x80000001#32))).trl.status
      = 0x2#32 := by decide +kernel
/-- V-T14: NOT_READY after reset. -/
theorem test_trlForecast_notReady :
    (after (exec (.trlForecast 1#32) State.reset)).response = some ⟨.notReady, 0#64⟩
    ∧ (after (exec (.trlForecast 1#32) State.reset)).trl.status = 0x4#32 := by decide +kernel
/-- V-T3: OMEGA 2.5 and N 3 give 12; V-T10's state and N 0xFFFFFFFF saturate. -/
theorem test_trlForecast_value :
    (trlForecastWith tc1 3#32 (called 0x40200000#32 0#32 0#32 0#32 0#32 0#32 0#32 0#32 [])).response
      = some ⟨.ok, 12#64⟩
    ∧ (trlForecastWith tc1 0xFFFFFFFF#32 vt10).response = some ⟨.ok, 0xFFFFFFFF#64⟩ := by
  decide +kernel
/-- V-T10: CONSUMED 5 and SKIP 4. -/
theorem test_trlProcess_skip :
    (after (trlProcessWith tc1 vt10)).trl.consumed = 5#32
    ∧ (after (trlProcessWith tc1 vt10)).trl.skip = 4#64
    ∧ Memory.readF (after (trlProcessWith tc1 vt10)).bufs.trlSym 0 = 0x3F800000#32 := by
  decide +kernel
/-- V-T13: NUMERIC_FAULT, FAULTED, STATUS 0x8, nothing committed. -/
theorem test_trlProcess_fault :
    (after (trlProcessWith tc1 vt13)).response = some ⟨.numericFault, 0#64⟩
    ∧ (after (trlProcessWith tc1 vt13)).trl.mode = .faulted
    ∧ (after (trlProcessWith tc1 vt13)).trl.status = 0x8#32
    ∧ (after (trlProcessWith tc1 vt13)).trl.symbolCount = 0#64 := by decide +kernel
/-- 95_test_vectors.md section 4: 0x14020000 reads OMEGA, 0x14050000 reads no CSR. -/
theorem test_trlCsrr :
    (after (runCommand ⟨0x14020000#32, 0#64⟩ vt10)).response = some ⟨.ok, 0x3F800000#64⟩
    ∧ (after (runCommand ⟨0x14050000#32, 0#64⟩ vt10)).response = some ⟨.illegalCmd, 0#64⟩ := by
  decide +kernel
/-- 95_test_vectors.md section 5: STATUS 0x13 written 0x2 leaves 0x11; NTAPS is read-only. -/
theorem test_trlCsrw :
    (after (runCommand ⟨0x15002000#32, 0x2#64⟩
      (vt10.setTrl { vt10.trl with status := 0x13#32 }))).trl.status = 0x11#32
    ∧ (after (runCommand ⟨0x15000000#32, 0#64⟩ vt10)).response = some ⟨.illegalCmd, 0#64⟩ := by
  decide +kernel
/-- 70_reset_and_hazards.md R290: INV_ACCESS_CODE after reset. -/
theorem test_accReset :
    (after (exec .accReset va9)).acc.invAccessCode = 0xFFFFFFFFFFFFFFFF#64
    ∧ (after (exec .accReset va9)).acc.mode = .unconfigured := by decide +kernel
/-- V-A2: "1010". -/
theorem test_accConfig_code :
    (after (exec .accConfig (accStaged [0x31#8, 0x30#8, 0x31#8, 0x30#8] 0#32 false))).acc.accessCode
      = 0xA000000000000000#64
    ∧ (after (exec .accConfig (accStaged [0x31#8, 0x30#8, 0x31#8, 0x30#8] 0#32 false))).acc.mask
      = 0xF000000000000000#64 := by decide +kernel
/-- V-A10: CODE_LEN 65. -/
theorem test_accConfig_invalid :
    (after (exec .accConfig (va9.setAcc { va9.acc with codeLen := 65#32 }))).acc
      = { va9.acc with codeLen := 65#32, status := 0x2#32, lastCode := .invalidParam } := by
  decide +kernel
/-- V-A2, V-A6: "ab", and the registers kept. -/
theorem test_accSetCode :
    let s := (accStaged [0x61#8, 0x62#8] 0#32 false)
    (after (exec .accSetCode (s.setAcc { s.acc with dataReg := 0xA#64 }))).acc.invAccessCode
      = 0x7FFFFFFFFFFFFFFF#64
    ∧ (after (exec .accSetCode (s.setAcc { s.acc with dataReg := 0xA#64 }))).acc.dataReg
      = 0xA#64 := by decide +kernel
/-- V-A12: `acc.set_threshold 4`. -/
theorem test_accSetThreshold :
    (after (runCommand ⟨0x23000000#32, 4#64⟩ va9)).acc.threshold = 4#32 := by decide +kernel
/-- V-A12: `acc.set_detect_inv 0` keeps INVERT. -/
theorem test_accSetDetectInv :
    (after (runCommand ⟨0x24000000#32, 0#64⟩ (va9.setAcc { va9.acc with invert := true }))).acc
      = { va9.acc with invert := true, detectInv := false, lastCode := .ok } := by decide +kernel
/-- V-A9: output 0x03 and the new registers. -/
theorem test_accProcess_step :
    Memory.read (after (exec .accProcess va9)).bufs.accOut 0 = 0x03#8
    ∧ (after (exec .accProcess va9)).acc.dataReg = 0#64
    ∧ (after (exec .accProcess va9)).acc.flagReg = 0x1#64
    ∧ (after (exec .accProcess va9)).acc.invertReg = 0#64 := by decide +kernel
/-- V-A5: the empty code is ambiguous at every step. -/
theorem test_accProcess_empty :
    (after (exec .accProcess va5)).acc.dataReg = 0x5#64
    ∧ (after (exec .accProcess va5)).acc.invertReg = 0x7#64
    ∧ (after (exec .accProcess va5)).acc.ambigCount = 3#64
    ∧ (after (exec .accProcess va5)).acc.lastAmbigBit = 2#64
    ∧ (after (exec .accProcess va5)).acc.status = 0x20#32 := by decide +kernel
/-- 95_test_vectors.md section 4: 0x26004000 reads no CSR of ACC. -/
theorem test_accCsrr :
    (after (runCommand ⟨0x26100000#32, 0#64⟩ va9)).response = some ⟨.ok, 0x31#64⟩
    ∧ (after (runCommand ⟨0x26004000#32, 0#64⟩ va9)).response = some ⟨.illegalCmd, 0#64⟩ := by
  decide +kernel
/-- 30_encoding.md R101: CODESTR[3] takes 0x31. -/
theorem test_accCsrw :
    (after (runCommand ⟨0x27103000#32, 0x31#64⟩ State.reset)).acc.codeStr[3] = 0x31#8 := by
  decide +kernel
/-- The step after `withFetchWord` runs that instruction. -/
theorem test_withFetchWord :
    (after (step (State.reset.withFetchWord 32 0x13000000))).response = some ⟨.notReady, 0#64⟩
    ∧ (after (step (State.reset.withFetchWord 32 0x13000000))).inputs = [] := by decide +kernel

/-! ### `NUM = Real` -/

/-- A state of the machine over the rationals. -/
abbrev RationalState := State.Of ℚ (List (Nat × ℚ)) (RealWord ℚ)

/-- The state after commands that only change it. -/
def rationalRun (s : RationalState) (l : List (RationalState → RationalState)) : RationalState :=
  l.foldl (fun s f => f s) s

/-- V-T9 under `NUM = Real`: cfg(1, 0, 1, 0.125, 0), input 0, 1e8, 0, 0, 0, one symbol, up to its
`TRL.PROCESS`. -/
def vt9Real : RationalState :=
  let w (n : BitVec 12) (d : RealWord ℚ) : RationalState → RationalState := trlCsrw (exactFormat ℚ) n d
  rationalRun (resetOf (exactFormat ℚ))
    [w 0x010#12 ⟨0, 1⟩, w 0x012#12 ⟨0, 1⟩, w 0x013#12 ⟨0, 1 / 8⟩, trlConfig (exactFormat ℚ),
     w 0x030#12 ⟨5, 0⟩, w 0x031#12 ⟨1, 0⟩,
     hostFill (exactFormat ℚ) (.trl .trlIn) 1 ⟨0, 100000000⟩]

/-- An interpolator over the rationals that gives the window's second sample, as TC1 does at phase 0. -/
def secondSample : Params ℚ :=
  { ntaps := 4, nsteps := 4, taps := fun _ k => if k = 1 then 1 else 0, dot := exactDot }

/-- V-T9 after its `TRL.PROCESS`. -/
def vt9RealDone : RationalState :=
  match trlProcess (exactFormat ℚ) secondSample vt9Real with
  | .next t => t
  | .fault _ => vt9Real
  | .refused _ => vt9Real

/-- V-T9: the exact clip keeps the limit 0.125, so the rate is 1.125; the symbol is 1e8. -/
theorem test_trlProcess_real :
    vt9Real.trl.mode = .ready ∧ vt9Real.trl.omegaLim = 1 / 8
    ∧ vt9RealDone.trl.omega = 9 / 8 ∧ vt9RealDone.bufs.trlSym = [(0, 100000000)]
    ∧ (trlCsrr (exactFormat ℚ) secondSample 0x020#12 vt9RealDone).response
        = some ⟨.ok, ⟨0, 9 / 8⟩⟩ := by decide +kernel

/-! ### Witnesses: every statement's hypotheses are met together -/

/-- The reset machine with these host actions listed. -/
def fed (l : List HostInput) : State := { State.reset with inputs := l }

theorem witness_DecodedCommandHasOneWord :
    decode ⟨0x12000000#32, 0xFFFFFFFFFFFFFFFF#64⟩ = .instr (.trlForecast 0xFFFFFFFF#32)
    ∧ decode ⟨0x23000000#32, 0xFFFFFFFFFFFFFFFF#64⟩ = .instr (.accSetThreshold 0xFFFFFFFF#32)
    ∧ decode ⟨0x24000000#32, 0xFFFFFFFFFFFFFFFF#64⟩ = .instr (.accSetDetectInv true)
    ∧ decode ⟨0x15FFF000#32, 0xFFFFFFFFFFFFFFFF#64⟩
        = .instr (.trlCsrw 0xFFF#12 0xFFFFFFFFFFFFFFFF#64)
    ∧ decode ⟨0x27000000#32, 0xFFFFFFFFFFFFFFFF#64⟩
        = .instr (.accCsrw 0x000#12 0xFFFFFFFFFFFFFFFF#64)
    ∧ decode ⟨0x13000000#32, 0xFFFFFFFFFFFFFFFF#64⟩ = .instr .trlProcess := by decide

theorem witness_StepRunsDecodedCommand :
    (fed [.issue ⟨0x25000000#32, 0#64⟩]).inputs = .issue ⟨0x25000000#32, 0#64⟩ :: []
    ∧ decode ⟨0x25000000#32, 0#64⟩ = .instr .accProcess := by decide

theorem witness_BadUnitOnlyResponds :
    (fed [.issue ⟨0x30000000#32, 0#64⟩]).inputs = .issue ⟨0x30000000#32, 0#64⟩ :: []
    ∧ (0x30000000#32).toNat / 2 ^ 28 ≠ 1 ∧ (0x30000000#32).toNat / 2 ^ 28 ≠ 2
    ∧ (0x00000000#32).toNat / 2 ^ 28 ≠ 1 ∧ (0x00000000#32).toNat / 2 ^ 28 ≠ 2 := by decide

/-- The first reserved `OP` of each unit. -/
theorem witness_IllegalCommandRaisesInItsUnit :
    (fed [.issue ⟨0x16000000#32, 0#64⟩]).inputs = .issue ⟨0x16000000#32, 0#64⟩ :: []
    ∧ ((⟨0x16000000#32, 0⟩ : Command).opOk && (⟨0x16000000#32, 0⟩ : Command).zeroOk
        && (⟨0x16000000#32, 0⟩ : Command).csrOk) = false
    ∧ (0x16000000#32).toNat / 2 ^ 28 = 1
    ∧ ((⟨0x28000000#32, 0⟩ : Command).opOk && (⟨0x28000000#32, 0⟩ : Command).zeroOk
        && (⟨0x28000000#32, 0⟩ : Command).csrOk) = false
    ∧ (0x28000000#32).toNat / 2 ^ 28 = 2 := by decide

theorem witness_WaitsOrResetsAsTheHostActs :
    State.reset.inputs = [] ∧ (fed [.powerOn]).inputs = .powerOn :: [] := by decide

theorem witness_HostFillWritesOneElement :
    (fed [.fill (.trl .trlIn) 0 7#64]).inputs = .fill (.trl .trlIn) 0 7#64 :: []
    ∧ (fed [.fill (.trl .trlIn) 0 7#64]).bufs.wf = true
    ∧ BufferId.elemBytes (.trl .trlIn) = 4 ∧ BufferId.elemBytes (.acc .accIn) = 1 := by decide

theorem witness_UnknownCsrRaisesIllegal :
    (0x007#12).toNat ∉ trlNumbers ∧ (0xFFF#12).toNat ∉ trlNumbers
    ∧ (0x000#12).toNat ∉ accNumbers ∧ (0x000#12).toNat < 0x100
    ∧ (0x140#12).toNat ∉ accNumbers ∧ 0x13F < (0x140#12).toNat := by decide

theorem witness_ReadOnlyWriteRaisesIllegal :
    (0x000#12).toNat ∈ trlReadOnlyNumbers ∧ (0x041#12).toNat ∈ trlReadOnlyNumbers
    ∧ (0x005#12).toNat ∈ accReadOnlyNumbers ∧ (0x042#12).toNat ∈ accReadOnlyNumbers := by decide

theorem witness_StatusIsWriteOneToClear : State.reset.ReservedZero := by decide

/-- `omega0` is exactly 1, the least value the test takes. -/
theorem witness_TrlConfigConstructs :
    trlConfigTest (staged 0x3F800000#32 0#32 0#32 0#32 0#32).trl := by decide +kernel

/-- `rel_limit` is exactly 1, the least value the test turns away. -/
theorem witness_TrlConfigRejectsBadParameters :
    ¬ trlConfigTest (staged 0x40000000#32 0#32 0#32 0x3F800000#32 0#32).trl
    ∧ trlConfigTest (staged 0x40000000#32 0#32 0#32 0x3F7FFFFF#32 0#32).trl := by decide +kernel

theorem witness_AccConfigAndSetCodeLoadTheCode :
    (State.reset.setAcc { State.reset.acc with codeLen := 64#32 }).acc.codeLen.toNat ≤ 64
    ∧ 64 < (State.reset.setAcc { State.reset.acc with codeLen := 65#32 }).acc.codeLen.toNat := by
  decide

theorem witness_AccSettersStoreTheirOperand :
    (fed [.issue ⟨0x23000000#32, 4#64⟩]).inputs = .issue ⟨0x23000000#32, 4#64⟩ :: []
    ∧ (fed [.issue ⟨0x24000000#32, 1#64⟩]).inputs = .issue ⟨0x24000000#32, 1#64⟩ :: [] := by decide

theorem witness_LoadCodeDerivesTheFields : (0 : Nat) ≤ 64 ∧ (64 : Nat) ≤ 64 := by decide

theorem witness_TrlForecastIsExactCeiling :
    vt10.trl.mode = .ready ∧ vt10.trl.ReadyInv ∧ State.reset.trl.mode ≠ .ready := by decide +kernel

theorem witness_ProcessOutsideReadyRaises :
    State.reset.trl.mode ≠ .ready ∧ State.reset.acc.mode ≠ .ready := by decide

/-- V-T10's state with no room for a symbol. -/
def noRoom : State := vt10.setTrl { vt10.trl with capSym := 0#32 }

/-- V-T10's state with four samples (V-T16, second row). -/
def fourSamples : State := vt10.setTrl { vt10.trl with inCount := 4#32 }

theorem witness_TrlInsufficientInputCompletesOk :
    (noRoom.trl.mode = .ready ∧ noRoom.trl.capSym = 0#32)
    ∧ fourSamples.trl.mode = .ready
    ∧ fourSamples.trl.inCount.toNat ≤ fourSamples.trl.skip.toNat + Config.ntaps := by
  have h : fourSamples.trl.inCount.toNat = 4 := by decide +kernel
  refine ⟨by decide +kernel, by decide +kernel, ?_⟩
  rw [h, Config.ntaps]
  omega

/-- Any `READY` state; with TC1 one step commits in V-T10 and the first step faults in V-T13. -/
theorem witness_TrlProcessRunsItsSymbolSteps :
    vt10.trl.mode = .ready ∧ vt13.trl.mode = .ready
    ∧ (vt10.trl.symbolStep binary32 tc1 (vt10.window 0 4)).isSome = true
    ∧ vt13.trl.symbolStep binary32 tc1 (vt13.window 0 4) = none := by decide +kernel

theorem guard_noRoom (limit : Nat) :
    noRoom.trl.guard Config.ntaps limit ⟨noRoom.trl.skip.toNat, 0, 0, 0, 0⟩ = false := by
  have h : noRoom.trl.capSym = 0#32 := by decide +kernel
  simp [Trl.guard, h]

/-- The values of V-T10's one symbol step. -/
def vt10Values : SymbolValues F32 := vt10.trl.loopValues binary32 0x3F800000#32

/-- What committing V-T10's symbol step leaves. -/
def vt10Committed : TrlCall × State :=
  match commitStep binary32Format ⟨0, 0, 0, 0, 0⟩ vt10Values vt10 with
  | .ok r => r
  | .error _ => (⟨0, 0, 0, 0, 0⟩, vt10)

/-- A run of no step with this hardware's own interpolator, and V-T10's run of one step with TC1. -/
theorem witness_TrlProcessCompletesAfterItsSteps :
    (noRoom.trl.mode = .ready
      ∧ SymbolRun Config.params (noRoom.trl.inputLimit binary32 Config.ntaps) 0
          ⟨noRoom.trl.skip.toNat, 0, 0, 0, 0⟩ noRoom ⟨noRoom.trl.skip.toNat, 0, 0, 0, 0⟩ noRoom
      ∧ noRoom.trl.guard Config.ntaps (noRoom.trl.inputLimit binary32 Config.ntaps)
          ⟨noRoom.trl.skip.toNat, 0, 0, 0, 0⟩ = false)
    ∧ vt10.trl.mode = .ready
    ∧ SymbolRun tc1 (vt10.trl.inputLimit binary32 4) 1 ⟨vt10.trl.skip.toNat, 0, 0, 0, 0⟩ vt10
        vt10Committed.1 vt10Committed.2
    ∧ vt10Committed.2.trl.guard 4 (vt10.trl.inputLimit binary32 4) vt10Committed.1 = false :=
  ⟨⟨by decide +kernel, .stay _ _, guard_noRoom _⟩, by decide +kernel,
    .step (by decide +kernel) (v := vt10Values) (by decide +kernel) (by decide +kernel) (.stay _ _),
    by decide +kernel⟩

/-- V-T10's state with all three auxiliary outputs enabled. -/
def allOutputs : State := vt10.setTrl { vt10.trl with ctrl := 0x7#32 }

/-- With every output enabled, and with none; at the last window the limit 5 admits. -/
theorem witness_CommitWritesOneSymbol :
    allOutputs.trl.guard 4 5 ⟨0, 0, 0, 0, 0⟩ = true ∧ vt10.trl.guard 4 5 ⟨0, 0, 0, 0, 0⟩ = true
    ∧ 5 ≤ allOutputs.trl.inCount.toNat ∧ allOutputs.bufs.wf = true
    ∧ allOutputs.trl.passEn = true ∧ allOutputs.trl.omegaEn = true ∧ allOutputs.trl.muEn = true
    ∧ 0 < allOutputs.trl.passCount.toNat ∧ vt10.trl.passEn = false := by decide +kernel

theorem witness_TrlConsumesWithinForecast : vt10.trl.mode = .ready := by decide +kernel

theorem witness_TrlProducesWithinCapacity :
    allOutputs.trl.mode = .ready ∧ allOutputs.trl.passEn = true ∧ allOutputs.trl.omegaEn = true
    ∧ allOutputs.trl.muEn = true ∧ vt10.trl.mode = .ready ∧ vt10.trl.passEn = false
    ∧ vt10.trl.omegaEn = false ∧ vt10.trl.muEn = false := by decide +kernel

/-- A `READY` unit answers `TRL.PROCESS` with a next state. -/
theorem process_noRoom : ∃ t, exec .trlProcess noRoom = .next t := by
  have h : noRoom.trl.mode = .ready := by decide +kernel
  have hl : processLoop binary32Format Config.params (noRoom.trl.inputLimit binary32 Config.params.ntaps)
      noRoom.trl.capSym.toNat noRoom.trl.callStart noRoom = .ok (noRoom.trl.callStart, noRoom, .ok) :=
    processLoop_stop (guard_noRoom _)
  exact ⟨_, trlProcess_ready h hl⟩

theorem witness_UnproducedElementsKeepTheirContents :
    (∃ t, exec .trlProcess noRoom = .next t) ∧ (∃ t, exec .trlProcess State.reset = .next t)
    ∧ exec .accProcess va5 = .next (after (exec .accProcess va5)) :=
  ⟨process_noRoom, ⟨_, rfl⟩, next_after (by decide +kernel)⟩

theorem witness_TrlParametersFixedBetweenConstructions :
    Instr.trlProcess ≠ .trlConfig ∧ Instr.trlProcess ≠ .trlReset
    ∧ ∃ t, exec .trlProcess noRoom = .next t :=
  ⟨by decide, by decide, process_noRoom⟩

theorem witness_TrlProcessFrame : ∃ t, exec .trlProcess noRoom = .next t := process_noRoom

theorem witness_TrlProcessMakesProgress :
    allOutputs.trl.mode = .ready ∧ allOutputs.trl.ReadyInv ∧ 1 ≤ allOutputs.trl.capSym.toNat
    ∧ ⌈(allOutputs.trl.capSym.toNat : ℚ) * f32Value allOutputs.trl.omega⌉ + (tc1.ntaps : Int)
        + (allOutputs.trl.skip.toNat : Int) ≤ allOutputs.trl.inCount.toNat
    ∧ allOutputs.trl.passCount.toNat ≤ allOutputs.trl.capPass.toNat
    ∧ (allOutputs.trl.passCount.toNat : Int)
        ≤ ⌈(allOutputs.trl.capSym.toNat : ℚ) * f32Value allOutputs.trl.omega⌉ + (tc1.ntaps : Int)
    ∧ 1 ≤ allOutputs.trl.capOmega.toNat ∧ 1 ≤ allOutputs.trl.capMu.toNat
    ∧ allOutputs.trl.symbolStep binary32 tc1 (allOutputs.window allOutputs.trl.skip.toNat tc1.ntaps)
        ≠ none := by decide +kernel

/-- A finite sum with a finite candidate, and the least sum that overflows:
`0x7F7FFFFF + 0x73000000` is the largest finite value and half its last step. -/
theorem witness_AddRoundsToNearestEven :
    f32IsFinite 0x3F800000#32 = true ∧ f32IsFinite 0x33800000#32 = true
    ∧ f32IsFinite (f32Add 0x3F800000#32 0x33800000#32) = true
    ∧ f32IsFinite 0x7F7FFFFF#32 = true ∧ f32IsFinite 0x73000000#32 = true
    ∧ f32IsFinite (f32Add 0x7F7FFFFF#32 0x73000000#32) = false
    ∧ f32IsFinite (f32Add 0x7F7FFFFF#32 0x72FFFFFF#32) = true := by decide +kernel

theorem witness_MulRoundsToNearestEven :
    f32IsFinite 0x3FFFFFFF#32 = true ∧ f32IsFinite (f32Mul 0x3FFFFFFF#32 0x3FFFFFFF#32) = true
    ∧ f32IsFinite 0x7F7FFFFF#32 = true
    ∧ f32IsFinite (f32Mul 0x7F7FFFFF#32 0x40000000#32) = false := by decide +kernel

theorem witness_FloorAbsCompareAreExact :
    f32IsFinite 0x80000001#32 = true ∧ f32IsFinite 0x7F7FFFFF#32 = true
    ∧ f32IsNaN 0x7FC00000#32 = true := by decide

theorem witness_SgnIsMinusOneExactlyBelowZero :
    f32IsFinite 0x80000001#32 = true ∧ f32IsNaN 0x7F800001#32 = true := by decide

/-- A tie: 1/2 lies as far from 1 as from the even 0. The phase at `mu` 0 and 1 is 0 and `NSTEPS`. -/
theorem witness_RneIntIsNearestEven :
    |(1 / 2 : ℚ) - ((rneExact (1 / 2 : ℚ) : Int) : ℚ)| = |(1 / 2 : ℚ) - ((1 : Int) : ℚ)|
    ∧ (1 : Int) ≠ rneExact (1 / 2 : ℚ)
    ∧ f32Value vt10.trl.mu = 0 ∧ vt10.trl.phase binary32 tc1 = 0
    ∧ f32Value (after (trlProcessWith tc1 vt11)).trl.mu = 1
    ∧ (after (trlProcessWith tc1 vt11)).trl.phase binary32 tc1 = tc1.nsteps := by decide +kernel

/-- V-T10 commits and V-T13 faults; V-T5: last -0.5 and y 2.0. -/
theorem witness_SymbolStepComputesItsValues :
    (vt10.trl.symbolStep binary32 tc1 (vt10.window 0 4)).isSome = true
    ∧ vt13.trl.symbolStep binary32 tc1 (vt13.window 0 4) = none
    ∧ f32IsFinite 0xBF000000#32 = true ∧ f32IsFinite 0x40000000#32 = true
    ∧ timingError binary32 0xBF000000#32 0x40000000#32 = 0xBFC00000#32 := by decide +kernel

/-- A unit over the rationals: `omega_mid` 2, limit 1/2, a loop gain of 1. -/
def exactTrl : Trl ℚ :=
  { Trl.reset (0 : ℚ) with
    omega := 2, omegaMid := 2, omegaLim := 1, relLimit := 1 / 2, gainOmega := 1, gainMu := 1,
    mode := .ready }

theorem witness_RateStaysInTheClamp :
    (1 ≤ exactTrl.omegaMid ∧ 0 ≤ exactTrl.relLimit ∧ exactTrl.relLimit < 1
      ∧ exactTrl.omegaLim = exactTrl.omegaMid * exactTrl.relLimit)
    ∧ (exactTrl.symbolStep (exactNum ℚ) secondSample [0, 4, 0, 0]).isSome = true
    ∧ (vt11.trl.symbolStep binary32 tc1 (vt11.window 0 4)).isSome = true := by decide +kernel

/-- V-T11: the phase sum is negative and the phase rounds to 1.0. -/
theorem witness_PhaseStaysInRange :
    (exactTrl.symbolStep (exactNum ℚ) secondSample [0, 4, 0, 0]).isSome = true
    ∧ (vt11.trl.symbolStep binary32 tc1 (vt11.window 0 4)).map (fun v => (v.mu, v.muT))
        = some (0x3F800000#32, 0xB1800000#32)
    ∧ f32Value 0x3F800000#32 = 1 := by decide +kernel

/-- An empty code and a code of 64 characters. -/
theorem witness_HammingDistancesAddUpToLength :
    (State.reset.acc.loadCode 0).CodeInv
    ∧ ({ State.reset.acc with codeStr := Vector.replicate 64 0x31#8 }.loadCode 64).CodeInv := by
  decide +kernel

theorem witness_MatchIsWithinThreshold :
    va5.acc.CodeInv ∧ va5.acc.len.toNat ≤ va5.acc.threshold.toNat := by decide +kernel

/-- The four cases of the polarity state machine: both (V-A5), `match` alone (V-A9), neither and
`match_inv` alone (a one-bit code 1 that meets a window of 0, detection off and on). -/
theorem witness_PolarityStateMachine :
    (va5.acc.isMatch = true ∧ va5.acc.isMatchInv = true)
    ∧ (va9.acc.isMatch = true ∧ va9.acc.isMatchInv = false)
    ∧ (let a := { va9.acc with dataReg := 0#64, detectInv := false }
       a.isMatch = false ∧ a.isMatchInv = false)
    ∧ (let a := { va9.acc with dataReg := 0#64 }
       a.isMatch = false ∧ a.isMatchInv = true) := by decide +kernel

theorem witness_BitStepEffects :
    va5.acc.flagBit = 1#64 ∧ (va5.acc.isMatch = true ∧ va5.acc.isMatchInv = true)
    ∧ va9.acc.flagBit = 1#64 ∧ ¬ (va9.acc.isMatch = true ∧ va9.acc.isMatchInv = true) := by
  decide +kernel

theorem witness_DataRegisterHoldsTheLastBits :
    va5.acc.dataReg = 0#64 ∧ 1 < [true, false].length ∧ [true, false].length ≤ 2 ∧ 63 < 64 := by
  decide +kernel

theorem witness_FlagsAppearAfterSixtyFourSteps :
    va5.acc.flagBit = 1#64 ∧ (List.replicate 63 false).length = 63 := by decide +kernel

theorem witness_AccProcessRunsItsBits :
    va5.acc.mode = .ready ∧ va5.bufs.wf = true := by decide +kernel

/-- The input 1, 0 in one call; then 1 in a first call and 0 in a second. -/
def whole : State := accCalled [0x31#8] 0#32 true 2#32 2#32 [1#32, 0#32]
def firstPart : State := whole.setAcc { whole.acc with inCount := 1#32, capOut := 1#32 }
def secondPart : State :=
  let t := after (exec .accProcess firstPart)
  (t.setAcc { t.acc with inCount := 1#32, capOut := 1#32 }).setBufs { t.bufs with accIn := [] }

theorem witness_SplittingTheStreamChangesNothing :
    1 + 1 < 2 ^ 32 ∧ whole.acc.mode = .ready ∧ whole.bufs.wf = true ∧ firstPart.bufs.wf = true
    ∧ secondPart.bufs.wf = true
    ∧ whole.acc.inCount = BitVec.ofNat 32 (1 + 1) ∧ whole.acc.capOut = BitVec.ofNat 32 (1 + 1)
    ∧ firstPart.acc
        = { whole.acc with inCount := BitVec.ofNat 32 1, capOut := BitVec.ofNat 32 1 }
    ∧ firstPart.inputBits 1 = (whole.inputBits (1 + 1)).take 1
    ∧ exec .accProcess whole = .next (after (exec .accProcess whole))
    ∧ exec .accProcess firstPart = .next (after (exec .accProcess firstPart))
    ∧ secondPart.acc = { (after (exec .accProcess firstPart)).acc with
        inCount := BitVec.ofNat 32 1, capOut := BitVec.ofNat 32 1 }
    ∧ secondPart.inputBits 1 = (whole.inputBits (1 + 1)).drop 1
    ∧ exec .accProcess secondPart = .next (after (exec .accProcess secondPart)) :=
  ⟨by decide, by decide +kernel, by decide +kernel, by decide +kernel, by decide +kernel,
    by decide +kernel, by decide +kernel, by decide +kernel, by decide +kernel,
    next_after (by decide +kernel), next_after (by decide +kernel), by decide +kernel,
    by decide +kernel, next_after (by decide +kernel)⟩

/-- Two states that agree on unit ACC and not on unit TRL. -/
theorem witness_CommandsTouchOnlyTheirUnit :
    exec .accProcess va5 = .next (after (exec .accProcess va5))
    ∧ exec .accProcess { va5 with trl := vt10.trl }
        = .next (after (exec .accProcess { va5 with trl := vt10.trl }))
    ∧ AgreeOn (Instr.unit .accProcess) va5 { va5 with trl := vt10.trl } :=
  ⟨next_after (by decide +kernel), next_after (by decide +kernel), rfl, rfl, rfl⟩

theorem witness_CommandsOfDifferentUnitsCommute :
    Instr.unit .trlConfig ≠ Instr.unit .accConfig := by decide

/-- 95_test_vectors.md section 5, among them STATUS 0x08 and IRQ_EN 0x08 with 0x8 written. -/
theorem witness_InterruptLinesFollowStatus :
    Code.numericFault ≠ .ok
    ∧ (State.reset.setTrl { State.reset.trl with irqEn := 0x8#32 }).trl.irqEn
        &&& Code.numericFault.statusMask ≠ 0#32
    ∧ Code.illegalCmd ≠ .ok
    ∧ (State.reset.setAcc { State.reset.acc with irqEn := 0x1#32 }).acc.irqEn
        &&& Code.illegalCmd.statusMask ≠ 0#32
    ∧ (0x08#32 &&& 0x08#32 &&& ~~~((0x8#64).setWidth 32) : Word) = 0#32
    ∧ (0x10#32 &&& (0#64).setWidth 32 &&& 0x1F#32 : Word) = 0#32
    ∧ (0x20#32 &&& (0#64).setWidth 32 &&& 0x27#32 : Word) = 0#32 := by decide

/-- The step that issues `ACC.PROCESS` in V-A5's state, whose unit TRL is V-T10's. -/
def busy : State :=
  { va5 with trl := vt10.trl, inputs := [.issue ⟨0x25000000#32, 0#64⟩] }

theorem busy_steps : step busy = .next (after (step busy)) := next_after (by decide +kernel)

theorem witness_StepKeepsReadyInvariant :
    busy.trl.mode = .ready ∧ busy.trl.ReadyInv ∧ step busy = .next (after (step busy)) :=
  ⟨by decide +kernel, by decide +kernel, busy_steps⟩

theorem witness_StepKeepsCodeInvariant :
    busy.acc.CodeInv ∧ step busy = .next (after (step busy)) := ⟨by decide +kernel, busy_steps⟩

theorem witness_StepKeepsReservedBitsZero :
    busy.ReservedZero ∧ step busy = .next (after (step busy)) := ⟨by decide +kernel, busy_steps⟩

theorem witness_StepKeepsBuffersCanonical :
    busy.bufs.wf = true ∧ step busy = .next (after (step busy)) := ⟨by decide +kernel, busy_steps⟩

/-- The carried skip at its greatest allowed value. -/
theorem witness_StepKeepsSkipBelowAdvanceBound :
    (2147483647#64).toNat < 2 ^ 31
    ∧ step (busy.setTrl { busy.trl with skip := 2147483647#64 })
        = .next (after (step (busy.setTrl { busy.trl with skip := 2147483647#64 }))) :=
  ⟨by decide, next_after (by decide +kernel)⟩

end Sys2Proof.Tests
end

section
/-!
SUPPORT. No loop of the machine leaves its buffers: with the limit of a call no more than `IN_COUNT`, every
pass of `TRL.PROCESS` ends the loop or commits inside the buffers, and `ACC.PROCESS` runs inside both of
its buffers; so every instruction answers a next state.
-/

namespace Sys2Proof.Machine

variable {F S D : Type} {N : Format F S D} {P : Params F}

/-- The limit of a call is at most `IN_COUNT` (41_timing_recovery.md R130). -/
theorem Trl.inputLimit_le (K : Num F) (ntaps : Nat) (t : Trl F) :
    t.inputLimit K ntaps ≤ t.inCount.toNat := Nat.min_le_left _ _

/-- All one pass of the loop of `TRL.PROCESS` can do (41_timing_recovery.md R130): end the loop, or go on
from a state with the same `IN_COUNT`. It leaves no buffer. -/
theorem processPass_cases {limit : Nat} {s : State.Of F S D} (k : TrlCall)
    (hl : limit ≤ s.trl.inCount.toNat) :
    (∃ s' code, processPass N P limit k s = .ok (.halt s' code))
    ∨ (∃ k' s', processPass N P limit k s = .ok (.go k' s') ∧ s'.trl.inCount = s.trl.inCount) := by
  cases hg : s.trl.guard P.ntaps limit k with
  | false => exact .inl ⟨s, .ok, processPass_stop hg⟩
  | true =>
    rw [processPass_guard hg hl]
    cases hv : s.trl.symbolStep N.num P (s.windowOf N k.cursor P.ntaps) with
    | none => exact .inl ⟨_, _, stepPass_none hv⟩
    | some v => exact .inr ⟨_, _, stepPass_some hv (commitStep_eq hg hl), rfl⟩

/-- The loop of `TRL.PROCESS` never leaves a buffer. -/
theorem processLoop_ok {limit fuel : Nat} {s : State.Of F S D} (k : TrlCall)
    (hl : limit ≤ s.trl.inCount.toNat) : ∃ r, processLoop N P limit fuel k s = .ok r := by
  induction fuel generalizing k s with
  | zero => exact ⟨_, rfl⟩
  | succ n ih =>
    rcases processPass_cases k hl with ⟨s', code, h⟩ | ⟨k', s', h, hin⟩
    · exact ⟨_, processLoop_halt h⟩
    · rw [processLoop_go h]
      exact ih k' (hin ▸ hl)

/-- `TRL.PROCESS` answers a next state. -/
theorem trlProcess_next (s : State.Of F S D) : ∃ t, trlProcess N P s = .next t := by
  by_cases hm : s.trl.mode = .ready
  · obtain ⟨⟨k, s', c⟩, h⟩ := processLoop_ok (N := N) (P := P) (fuel := s.trl.capSym.toNat)
      s.trl.callStart (s.trl.inputLimit_le N.num P.ntaps)
    exact ⟨_, trlProcess_ready hm h⟩
  · exact ⟨_, trlProcess_notReady hm⟩

/-- `ACC.PROCESS` answers a next state: its count keeps every access inside both buffers
(42_access_code_correlator.md R186). -/
theorem accProcess_next (s : State.Of F S D) : ∃ t, accProcess N s = .next t := by
  unfold accProcess
  split
  · obtain ⟨m, hm, -⟩ := accLoop_inside (n := s.acc.callCount) (i := 0) (s := s)
      (by simp [Acc.callCount]) (by simp [Acc.callCount])
    rw [hm]
    exact ⟨_, rfl⟩
  · exact ⟨_, rfl⟩

/-- Every instruction answers a next state, in any format. -/
theorem execOf_next (i : Instr) (d : D) (s : State.Of F S D) : ∃ t, execOf N P i d s = .next t := by
  cases i with
  | trlProcess => exact trlProcess_next s
  | accProcess => exact accProcess_next s
  | _ => exact ⟨_, rfl⟩

/-- A command at the port answers a next state where every instruction does. -/
theorem runCommandOf_next {run : Run F S D} (h : ∀ i d s, ∃ t, run i d s = .next t)
    (c : CommandOf D) (s : State.Of F S D) : ∃ t, runCommandOf N run c s = .next t := by
  unfold runCommandOf
  split
  · exact h _ _ _
  · exact ⟨_, rfl⟩
  · exact ⟨_, rfl⟩

/-- A step answers a next state where every instruction does. -/
theorem stepOf_next {run : Run F S D} (h : ∀ i d s, ∃ t, run i d s = .next t)
    (s : State.Of F S D) : ∃ t, stepOf N run s = .next t := by
  unfold stepOf
  split
  · exact ⟨_, rfl⟩
  · rename_i input s' _
    cases input with
    | issue c => exact runCommandOf_next h c s'
    | fill b i v => exact ⟨_, rfl⟩
    | powerOn => exact ⟨_, rfl⟩

end Sys2Proof.Machine

namespace Sys2Proof.Proofs
open Sys2Proof.Machine

/-- Settles O10: every loop stays inside its buffers, and this machine is the machine of any format, taken
at `NUM = Binary32`. -/
theorem everyStepAnswersNext : Obligations.EveryStepAnswersNext := by
  have any : ∀ (F S D : Type) (N : Format F S D) (P : Params F) (s : State.Of F S D),
      ∃ t, stepOf N (execOf N P) s = .next t := fun _ _ _ _ _ s => stepOf_next execOf_next s
  refine ⟨fun s => ?_, any⟩
  rw [step_is_binary32_machine]
  exact any _ _ _ binary32Format Config.params s

end Sys2Proof.Proofs
end

section
/-!
SUPPORT. `TRL.CSRR` and `TRL.CSRW` by the rows of the CSR map (10_state.md R23): a row's number names its
register, so a statement made row by row is one about the rows of `trlCsrMap`.
-/

namespace Sys2Proof.Machine

/-- The number of a row, as a command carries it. -/
def CsrRow.field {Csr : Type} (r : CsrRow Csr) : BitVec 12 := BitVec.ofNat 12 r.num

/-- The number of a row of the map of unit TRL names that row: no number is listed twice. -/
theorem trlCsrOf_field : ∀ r ∈ trlCsrMap, trlCsrOf r.field = some r := by decide

/-- The rows of the map of unit TRL that hold a value of `F`: 0x010 to 0x014 and 0x020 to 0x027
(10_state.md R23). -/
def trlValueRows : List (CsrRow TrlCsr) :=
  trlCsrMap.filter fun r => decide (0x010 ≤ r.num ∧ r.num ≤ 0x027)

/-- The read-write rows of the map of unit TRL (10_state.md R23). -/
def trlReadWriteRows : List (CsrRow TrlCsr) := trlCsrMap.filter fun r => decide (r.access = .rw)

section rows
variable {F S D : Type} (N : Format F S D) (P : Params F) (s : State.Of F S D)
  {r : CsrRow TrlCsr}

/-- `TRL.CSRR` of a row of the map completes with the register's value (43_csr_access.md R230). -/
theorem trlCsrr_row (h : r ∈ trlCsrMap) :
    trlCsrr N P r.field s = complete .trl (trlCsrRead N P s.trl r.csr) s := by
  simp only [trlCsrr, trlCsrOf_field r h]

/-- `TRL.CSRW` of a read-write row of the map stores into its register and completes
(43_csr_access.md R231). -/
theorem trlCsrw_row (h : r ∈ trlReadWriteRows) (d : D) :
    trlCsrw N r.field d s = complete .trl (N.ofBits 0) (s.setTrl (trlCsrStore N s.trl r.csr d)) := by
  obtain ⟨hmap, hrw⟩ := List.mem_filter.1 h
  have hro : r.access ≠ .ro := by rw [of_decide_eq_true hrw]; decide
  simp only [trlCsrw, trlCsrOf_field r hmap, if_neg hro]

end rows

/-- The low word of a data word is its truncation (00_scope.md R10). -/
theorem low_word_eq_truncate (d : DWord) : d.extractLsb' 0 32 = d.setWidth 32 :=
  (BitVec.setWidth_eq_extractLsb' (by decide)).symm

end Sys2Proof.Machine

namespace Sys2Proof.Proofs
open Sys2Proof.Machine

/-- Settles O12: the rows of the statement are those of the map, each with what a read gives. -/
theorem trlCsrrReadsTheMap : Obligations.TrlCsrrReadsTheMap := by
  refine ⟨fun s row hrow => ?_, fun F _ _ _ taps d s row hrow => ?_⟩
  · obtain ⟨r, hr, rfl⟩ : ∃ r ∈ trlCsrMap,
        (r.field, trlCsrRead binary32Format Config.params s.trl r.csr) = row := by
      rw [← List.mem_map]
      convert hrow using 1
      simp only [trlCsrMap, List.map, trlCsrRead]
      cases s.trl.mode <;> cases s.trl.lastCode <;> rfl
    exact congrArg _ (trlCsrr_row _ _ s hr)
  · obtain ⟨r, hr, rfl⟩ : ∃ r ∈ trlValueRows,
        (r.field, (trlCsrRead (exactFormat F) (exactParams taps) s.trl r.csr).value) = row := by
      rw [← List.mem_map]
      exact hrow
    exact ⟨_, rfl, congrArg _ (trlCsrr_row _ _ s (List.mem_of_mem_filter hr))⟩

/-- Settles O16: the rows of the statement are the read-write rows of the map, each with what a write
stores. -/
theorem trlCsrwStoresTruncated : Obligations.TrlCsrwStoresTruncated := by
  refine ⟨fun s d row hrow => ?_, fun F _ _ _ taps d s row hrow => ?_⟩
  · simp only [← low_word_eq_truncate] at hrow
    obtain ⟨r, hr, rfl⟩ : ∃ r ∈ trlReadWriteRows,
        (r.field, trlCsrStore binary32Format s.trl r.csr d) = row := List.mem_map.1 hrow
    exact congrArg _ (trlCsrw_row _ s hr d)
  · simp only [← low_word_eq_truncate] at hrow
    obtain ⟨r, hr, rfl⟩ : ∃ r ∈ trlReadWriteRows,
        (r.field, trlCsrStore (exactFormat F) s.trl r.csr d) = row := List.mem_map.1 hrow
    exact ⟨_, rfl, congrArg _ (trlCsrw_row _ s hr d)⟩

end Sys2Proof.Proofs
end

section
/-!
SUPPORT. The values of binary32 encodings: signs, comparisons, floors, and which counts of units are
magnitudes of finite encodings.
-/

namespace Sys2Proof.Machine

/-! ### Values, signs and comparisons -/

/-- The value of an encoding is its units over 2^149, so values compare as the units do. -/
theorem f32Value_lt_iff (a b : F32) : f32Value a < f32Value b ↔ f32Units a < f32Units b := by
  unfold f32Value
  rw [div_lt_div_iff_of_pos_right (by positivity), Int.cast_lt]

@[simp] theorem f32Value_zero : f32Value f32Zero = 0 := by
  simp [f32Value, show f32Units f32Zero = 0 by decide]

/-- A finite encoding is no NaN. -/
theorem f32IsNaN_of_finite {x : F32} (h : f32IsFinite x = true) : f32IsNaN x = false := by
  have : f32Exp x ≠ 255 := by simpa [f32IsFinite] using h
  simp [f32IsNaN, this]

/-- `flt` of two finite encodings is the comparison of their values (00_scope.md R12). -/
theorem f32Lt_iff {a b : F32} (ha : f32IsFinite a = true) (hb : f32IsFinite b = true) :
    f32Lt a b = true ↔ f32Value a < f32Value b := by
  simp [f32Lt, f32IsNaN_of_finite ha, f32IsNaN_of_finite hb, f32Value_lt_iff]

/-- `flt` is false when either operand is a NaN (00_scope.md R12). -/
theorem f32Lt_nan {a b : F32} (h : f32IsNaN a = true ∨ f32IsNaN b = true) : f32Lt a b = false := by
  rcases h with h | h <;> simp [f32Lt, h]

/-- The sign of an encoding as a factor: -1 where the sign bit is set. -/
def signFactor (neg : Bool) : Int := if neg then -1 else 1

theorem signFactor_mul_self (neg : Bool) : signFactor neg * signFactor neg = 1 := by
  cases neg <;> rfl

theorem natAbs_signFactor_mul (neg : Bool) (n : Int) : (signFactor neg * n).natAbs = n.natAbs := by
  cases neg <;> simp [signFactor]

theorem signFactor_bne (p q : Bool) : signFactor (p != q) = signFactor p * signFactor q := by
  cases p <;> cases q <;> rfl

/-- An integer is its sign times its magnitude. -/
theorem signFactor_mul_natAbs (n : Int) : signFactor (decide (n < 0)) * (n.natAbs : Int) = n := by
  unfold signFactor
  by_cases h : n < 0
  · simp only [h, decide_true, if_true]; omega
  · simp only [h, decide_false, Bool.false_eq_true, if_false]; omega

/-- The units of an encoding are its sign times its magnitude. -/
theorem f32Units_eq (x : F32) : f32Units x = signFactor (f32Sign x) * (f32Mag x : Int) := by
  cases h : f32Sign x <;> simp [f32Units, signFactor, h]

theorem natAbs_f32Units (x : F32) : (f32Units x).natAbs = f32Mag x := by
  rw [f32Units_eq, natAbs_signFactor_mul, Int.natAbs_natCast]

/-- The integer floor of an encoding is the floor of its value. -/
theorem f32FloorInt_eq (x : F32) : f32FloorInt x = ⌊f32Value x⌋ := by
  have h := Rat.floor_intCast_div_natCast (f32Units x) (2 ^ 149)
  push_cast at h
  exact h.symm

/-- `fabs` clears the sign bit and leaves the other fields (00_scope.md R12). -/
theorem f32Abs_eq (x : F32) : f32Abs x = f32Pack false (x.toNat % 2 ^ 31) := by
  apply BitVec.eq_of_toNat_eq
  rw [f32Pack_toNat (Nat.mod_lt _ (by norm_num)), f32Abs, BitVec.toNat_and]
  simpa using Nat.and_two_pow_sub_one_eq_mod x.toNat 31

/-- The magnitude hangs on the low 31 bits only. -/
theorem f32Mag_pack_low (neg : Bool) (x : F32) :
    f32Mag (f32Pack neg (x.toNat % 2 ^ 31)) = f32Mag x := by
  have hlt : x.toNat % 2 ^ 31 < 2 ^ 31 := Nat.mod_lt _ (by norm_num)
  have he : x.toNat % 2 ^ 31 / 2 ^ 23 = f32Exp x := by unfold f32Exp; omega
  have hf : x.toNat % 2 ^ 31 % 2 ^ 23 = f32Frac x := by unfold f32Frac; omega
  simp only [f32Mag, f32Exp_pack hlt, f32Frac_pack hlt, he, hf]

/-! ### The magnitudes of finite encodings -/

/-- A count of units that is the magnitude of a finite encoding: 24 significant bits at one of the places
the exponent field can give. -/
def IsF32Mag (w : Nat) : Prop := ∃ sig e, sig < 2 ^ 24 ∧ e ≤ 253 ∧ w = sig * 2 ^ e

theorem isF32Mag_of_finite {x : F32} (h : f32IsFinite x = true) : IsF32Mag (f32Mag x) := by
  have hne : f32Exp x ≠ 255 := by simpa [f32IsFinite] using h
  have hexp : f32Exp x < 256 := Nat.mod_lt _ (by norm_num)
  have hfrac : f32Frac x < 2 ^ 23 := Nat.mod_lt _ (by norm_num)
  by_cases h0 : f32Exp x = 0
  · exact ⟨f32Frac x, 0, by omega, by omega, by simp [f32Mag, h0]⟩
  · exact ⟨2 ^ 23 + f32Frac x, f32Exp x - 1, by omega, by omega, by simp [f32Mag, h0]⟩

/-- Every finite magnitude lies below the middle between the largest one and the next step. -/
theorem IsF32Mag.lt_overflow {w : Nat} (h : IsF32Mag w) : w < (2 ^ 25 - 1) * 2 ^ 252 := by
  obtain ⟨sig, e, hsig, he, rfl⟩ := h
  calc sig * 2 ^ e ≤ (2 ^ 24 - 1) * 2 ^ 253 :=
        Nat.mul_le_mul (by omega) (Nat.pow_le_pow_right (by norm_num) he)
    _ < (2 ^ 25 - 1) * 2 ^ 252 := by norm_num

/-- The floor of a finite value, in units, is the magnitude of a finite encoding: above the binary point's
place the value is an integer already, below it the floor has fewer than 24 bits. -/
theorem isF32Mag_floor {x : F32} (h : f32IsFinite x = true) :
    IsF32Mag ((f32FloorInt x).natAbs * 2 ^ 149) := by
  obtain ⟨sig, e, hsig, he, hmag⟩ := isF32Mag_of_finite h
  rw [← natAbs_f32Units] at hmag
  have hfloor : f32FloorInt x = f32Units x / 2 ^ 149 := rfl
  by_cases h149 : 149 ≤ e
  · have hdvd : (2 ^ 149 : Nat) ∣ (f32Units x).natAbs :=
      hmag ▸ Dvd.dvd.mul_left (Nat.pow_dvd_pow 2 h149) sig
    exact ⟨sig, e, hsig, he, by omega⟩
  · have hlt : sig * 2 ^ e < 2 ^ 24 * 2 ^ 148 :=
      Nat.mul_lt_mul_of_lt_of_le hsig (Nat.pow_le_pow_right (by norm_num) (by omega)) (by positivity)
    exact ⟨(f32FloorInt x).natAbs, 149, by omega, by omega, rfl⟩

end Sys2Proof.Machine
end

section
/-!
SUPPORT. What one rounding of an exact result gives (00_scope.md R12): a nearest finite value, the even one
on a tie, and an infinity from half a step past the largest finite value on. First on magnitudes, where the
exact result is `m / 2^d` units; then on values.
-/

namespace Sys2Proof.Machine

/-! ### On magnitudes -/

/-- Rounding to a multiple of the step `2^s` gives one that no other multiple is nearer than, and an even
one when another is as near. -/
theorem roundHalfEven_nearest (m s : Nat) (j : Int) :
    |(m : Int) - roundHalfEven m s * 2 ^ s| ≤ |(m : Int) - j * 2 ^ s|
    ∧ (|(m : Int) - roundHalfEven m s * 2 ^ s| = |(m : Int) - j * 2 ^ s| →
        j * 2 ^ s ≠ roundHalfEven m s * 2 ^ s → roundHalfEven m s % 2 = 0) := by
  obtain ⟨hup, hdown, htie⟩ := roundHalfEven_spec m s
  generalize roundHalfEven m s = r at *
  rcases eq_or_ne j r with rfl | hne
  · exact ⟨le_rfl, fun _ h => absurd rfl h⟩
  have hstep : (2 : Int) ^ s ≤ |(j - r) * 2 ^ s| := by
    rw [abs_mul, abs_of_pos (show (0 : Int) < 2 ^ s by positivity)]
    exact le_mul_of_one_le_left (by positivity) (Int.one_le_abs (sub_ne_zero.2 hne))
  rw [sub_mul] at hstep
  zify at hup hdown htie
  generalize (r : Int) * 2 ^ s = R at *
  generalize j * 2 ^ s = J at *
  generalize (2 : Int) ^ s = step at *
  simp only [Int.abs_eq_natAbs] at *
  refine ⟨by omega, fun heq _ => ?_⟩
  have := htie (by omega)
  omega

/-- Where rounding drops more than `d` bits, `m` fills 24 bits above the dropped ones. -/
theorem le_of_f32Drop {m d : Nat} (h : d < f32Drop m d) : 2 ^ 23 * 2 ^ f32Drop m d ≤ m := by
  have hm0 : m ≠ 0 := by rintro rfl; simp [f32Drop] at h
  calc 2 ^ 23 * 2 ^ f32Drop m d = 2 ^ m.log2 := by
        rw [← pow_add]; congr 1; simp only [f32Drop] at h ⊢; omega
    _ ≤ m := Nat.log2_self_le hm0

/-- The magnitude has at most 24 bits above the dropped ones. -/
theorem lt_of_f32Drop (m d : Nat) : m < 2 ^ 24 * 2 ^ f32Drop m d := by
  calc m < 2 ^ (m.log2 + 1) := Nat.lt_log2_self
    _ ≤ 2 ^ (24 + f32Drop m d) := Nat.pow_le_pow_right (by norm_num) (by simp only [f32Drop]; omega)
    _ = 2 ^ 24 * 2 ^ f32Drop m d := pow_add ..

/-- No magnitude of a finite encoding, of either sign, is nearer to `m / 2^d` than the rounded one. One on
the grid of the kept bits is a multiple of the step; one off it lies below 24 full bits, which is a
multiple of the step no further from `m`. -/
theorem f32Round_nearest {m d : Nat} {w : Int} (hw : IsF32Mag w.natAbs) :
    |(m : Int) - roundHalfEven m (f32Drop m d) * 2 ^ f32Drop m d| ≤ |(m : Int) - w * 2 ^ d|
    ∧ (|(m : Int) - roundHalfEven m (f32Drop m d) * 2 ^ f32Drop m d| = |(m : Int) - w * 2 ^ d| →
        w * 2 ^ d ≠ roundHalfEven m (f32Drop m d) * 2 ^ f32Drop m d →
        roundHalfEven m (f32Drop m d) % 2 = 0) := by
  obtain ⟨sig, e, hsig, -, hmag⟩ := hw
  rcases Nat.lt_or_ge (e + d) (f32Drop m d) with hfine | hgrid
  · have hfull := le_of_f32Drop (m := m) (d := d) (by omega)
    have hbelow : w.natAbs * 2 ^ d < 2 ^ 23 * 2 ^ f32Drop m d := by
      calc w.natAbs * 2 ^ d = sig * 2 ^ (e + d) := by rw [hmag, mul_assoc, pow_add]
        _ < 2 ^ 24 * 2 ^ (e + d) := by gcongr
        _ = 2 ^ 23 * 2 ^ (e + d + 1) := by ring
        _ ≤ 2 ^ 23 * 2 ^ f32Drop m d := by gcongr <;> omega
    have hnear := (roundHalfEven_nearest m (f32Drop m d) (2 ^ 23)).1
    have habs : w * 2 ^ d ≤ |w| * 2 ^ d := by gcongr; exact le_abs_self w
    zify at hfull hbelow
    have hlt : |(m : Int) - 2 ^ 23 * 2 ^ f32Drop m d| < |(m : Int) - w * 2 ^ d| := by
      rw [abs_of_nonneg (by linarith), abs_of_nonneg (by linarith)]
      linarith
    exact ⟨hnear.trans hlt.le, fun heq => absurd (heq ▸ hnear) hlt.not_ge⟩
  · obtain ⟨j, hj⟩ : (2 : Int) ^ f32Drop m d ∣ w * 2 ^ d := by
      rw [← Int.natAbs_dvd_natAbs, Int.natAbs_mul, hmag]
      simp only [Int.natAbs_pow, Int.reduceAbs, mul_assoc, ← pow_add]
      exact Dvd.dvd.mul_left (Nat.pow_dvd_pow 2 hgrid) sig
    rw [hj, mul_comm _ j]
    exact roundHalfEven_nearest m _ j

/-- Rounding overflows from half a step past the largest finite magnitude on. -/
theorem f32RoundMag_lt_iff (m d : Nat) :
    f32RoundMag m d < 0x7F800000 ↔ m < (2 ^ 25 - 1) * 2 ^ 252 * 2 ^ d := by
  have hd : d ≤ f32Drop m d := le_max_left ..
  have hle := roundHalfEven_le m d
  rw [f32RoundMag]
  rcases lt_trichotomy (f32Drop m d) (253 + d) with hlow | htop | hhigh
  · have hlt := lt_of_f32Drop m d
    have hstep : 2 ^ f32Drop m d ≤ 2 ^ 252 * 2 ^ d := by
      rw [← pow_add]; exact Nat.pow_le_pow_right (by norm_num) (by omega)
    omega
  · obtain ⟨hup, hdown, htie⟩ := roundHalfEven_spec m (f32Drop m d)
    have hpos : 0 < 2 ^ d := Nat.two_pow_pos d
    have hstep : 2 ^ f32Drop m d = 2 ^ 253 * 2 ^ d := by rw [htop, pow_add]
    rcases (by omega : roundHalfEven m (f32Drop m d) ≤ 2 ^ 24 - 2
        ∨ roundHalfEven m (f32Drop m d) = 2 ^ 24 - 1
        ∨ roundHalfEven m (f32Drop m d) = 2 ^ 24) with hr | hr | hr
    · have hmul := Nat.mul_le_mul_right (2 ^ f32Drop m d) hr
      omega
    · rw [hr] at hup htie ⊢
      omega
    · rw [hr] at hdown ⊢
      omega
  · have hge := roundHalfEven_ge (m := m) (d := d) (by omega)
    have hfull := le_of_f32Drop (m := m) (d := d) (by omega)
    have hstep : 2 ^ 254 * 2 ^ d ≤ 2 ^ f32Drop m d := by
      rw [← pow_add]; exact Nat.pow_le_pow_right (by norm_num) (by omega)
    omega

/-- A magnitude of a finite encoding is its own rounding. -/
theorem f32Mag_round_exact {w : Nat} (hw : IsF32Mag w) (neg : Bool) :
    f32RoundMag w 0 < 0x7F800000 ∧ f32Mag (f32Pack neg (f32RoundMag w 0)) = w := by
  have hfin : f32RoundMag w 0 < 0x7F800000 := (f32RoundMag_lt_iff w 0).2 (by simpa using hw.lt_overflow)
  have hnear := (f32Round_nearest (m := w) (d := 0) (w := w) (by simpa using hw)).1
  refine ⟨hfin, ?_⟩
  rw [f32Mag_round hfin, Nat.sub_zero]
  simp only [pow_zero, mul_one, sub_self, abs_zero, abs_nonpos_iff] at hnear
  zify
  linarith

/-! ### On values -/

/-- What 00_scope.md R12 asks of an encoding `x` that stands for the exact result `q`: if it is finite, no
finite encoding is nearer to `q`, and on a tie with another value its last bit is 0; and it is not finite
exactly when `q` lies half a step or more past the largest finite value (log entry 11). -/
def RoundsTo (q : ℚ) (x : F32) : Prop :=
  (f32IsFinite x = true → ∀ z : F32, f32IsFinite z = true →
    |q - f32Value x| ≤ |q - f32Value z|
    ∧ (|q - f32Value x| = |q - f32Value z| → f32Value z ≠ f32Value x → x.getLsbD 0 = false))
  ∧ (f32IsFinite x = false ↔ (2 ^ 25 - 1) * 2 ^ 103 ≤ |q|)

/-- A rounded result is finite exactly where its magnitude stays below the infinity's. -/
theorem f32IsFinite_round (neg : Bool) (m d : Nat) :
    f32IsFinite (f32Pack neg (f32RoundMag m d)) = decide (f32RoundMag m d < 0x7F800000) :=
  f32IsFinite_pack (min_le_right ..)

/-- The last bit of a finite rounded result is that of its rounded magnitude. -/
theorem getLsbD_zero_round {neg : Bool} {m d : Nat} (h : f32RoundMag m d < 0x7F800000)
    (heven : roundHalfEven m (f32Drop m d) % 2 = 0) :
    (f32Pack neg (f32RoundMag m d)).getLsbD 0 = false := by
  have hmag : f32RoundMag m d % 2 = 0 := by rw [f32RoundMag] at h ⊢; omega
  rw [BitVec.getLsbD, f32Pack_toNat (by omega), Nat.testBit_zero]
  cases neg
  · simp [hmag]
  · simp [Nat.add_mod, hmag]

/-- The exact result of `m / 2^d` units with the given sign. -/
def exactValue (neg : Bool) (m d : Nat) : ℚ := (signFactor neg : ℚ) * m / (2 ^ d * 2 ^ 149)

theorem abs_signFactor (neg : Bool) : |(signFactor neg : ℚ)| = 1 := by
  cases neg <;> simp [signFactor]

theorem abs_exactValue (neg : Bool) (m d : Nat) : |exactValue neg m d| = m / (2 ^ d * 2 ^ 149) := by
  rw [exactValue, abs_div, abs_mul, abs_signFactor, one_mul, Nat.abs_cast,
    abs_of_pos (show (0 : ℚ) < 2 ^ d * 2 ^ 149 by positivity)]

/-- The distance of a value from an exact result, on one scale with the rounding of its magnitude. -/
theorem abs_exactValue_sub (neg : Bool) (m d : Nat) (z : F32) :
    |exactValue neg m d - f32Value z|
      = ((|(m : Int) - signFactor neg * f32Units z * 2 ^ d| : Int) : ℚ) / (2 ^ d * 2 ^ 149) := by
  have hsq : (signFactor neg : ℚ) * signFactor neg = 1 := mod_cast signFactor_mul_self neg
  have hscale : exactValue neg m d - f32Value z
      = signFactor neg * (m - signFactor neg * f32Units z * 2 ^ d) / (2 ^ d * 2 ^ 149) := by
    rw [exactValue, f32Value, div_sub_div _ _ (by positivity) (by positivity),
      div_eq_div_iff (by positivity) (by positivity)]
    linear_combination (f32Units z : ℚ) * 2 ^ d * (2 ^ d * 2 ^ 149 * 2 ^ 149) * hsq
  rw [hscale, abs_div, abs_mul, abs_signFactor, one_mul,
    abs_of_pos (show (0 : ℚ) < 2 ^ d * 2 ^ 149 by positivity)]
  push_cast
  rfl

/-- The value of a finite rounded result, on that scale. -/
theorem signFactor_mul_units_round {neg : Bool} {m d : Nat} (h : f32RoundMag m d < 0x7F800000) :
    signFactor neg * f32Units (f32Pack neg (f32RoundMag m d)) * 2 ^ d
      = roundHalfEven m (f32Drop m d) * 2 ^ f32Drop m d := by
  have hd : d ≤ f32Drop m d := le_max_left ..
  rw [f32Units_eq, f32Sign_pack (by omega), ← mul_assoc, signFactor_mul_self, one_mul, f32Mag_round h]
  push_cast
  rw [mul_assoc, ← pow_add, Nat.sub_add_cancel hd]

/-- One rounding of an exact result of `m / 2^d` units, of either sign, is what R12 asks. -/
theorem f32Pack_roundsTo (neg : Bool) (m d : Nat) :
    RoundsTo (exactValue neg m d) (f32Pack neg (f32RoundMag m d)) := by
  refine ⟨fun hx z hz => ?_, ?_⟩
  · have hfin : f32RoundMag m d < 0x7F800000 := by simpa [f32IsFinite_round] using hx
    have hpos : (0 : ℚ) < 2 ^ d * 2 ^ 149 := by positivity
    obtain ⟨hnear, htie⟩ := f32Round_nearest (m := m) (d := d) (w := signFactor neg * f32Units z)
      (by rw [natAbs_signFactor_mul, natAbs_f32Units]; exact isF32Mag_of_finite hz)
    rw [← signFactor_mul_units_round (neg := neg) hfin] at hnear htie
    rw [abs_exactValue_sub, abs_exactValue_sub, div_le_div_iff_of_pos_right hpos,
      div_left_inj' hpos.ne']
    refine ⟨mod_cast hnear, fun heq hne => ?_⟩
    refine getLsbD_zero_round hfin (htie (mod_cast heq) fun hsame => hne ?_)
    have hcancel : signFactor neg * f32Units z
        = signFactor neg * f32Units (f32Pack neg (f32RoundMag m d)) :=
      mul_right_cancel₀ (by positivity) hsame
    have hunits := congrArg (signFactor neg * ·) hcancel
    simp only [← mul_assoc, signFactor_mul_self, one_mul] at hunits
    rw [f32Value, f32Value, hunits]
  · rw [f32IsFinite_round, decide_eq_false_iff_not, f32RoundMag_lt_iff, not_lt, abs_exactValue,
      le_div_iff₀ (by positivity), ← Nat.cast_le (α := ℚ)]
    push_cast
    ring_nf

/-! ### `fadd` and `fmul` -/

/-- `fadd` of finite operands is one rounding of the exact sum. -/
theorem f32Add_roundsTo {a b : F32} (ha : f32IsFinite a = true) (hb : f32IsFinite b = true) :
    RoundsTo (f32Value a + f32Value b) (f32Add a b) := by
  obtain ⟨neg, hx, hn⟩ : ∃ neg, f32Add a b
      = f32Pack neg (f32RoundMag (f32Units a + f32Units b).natAbs 0)
      ∧ signFactor neg * ((f32Units a + f32Units b).natAbs : Int) = f32Units a + f32Units b := by
    simp only [f32Add, f32IsNaN_of_finite ha, f32IsNaN_of_finite hb, ha, hb]
    by_cases h0 : f32Units a + f32Units b = 0
    · exact ⟨f32Sign a && f32Sign b, by simp [h0, f32RoundMag, f32Drop, roundHalfEven], by simp [h0]⟩
    · exact ⟨_, by simp [h0], signFactor_mul_natAbs _⟩
  have hsum : f32Value a + f32Value b = exactValue neg (f32Units a + f32Units b).natAbs 0 := by
    have hcast : (signFactor neg : ℚ) * ((f32Units a + f32Units b).natAbs : ℕ)
        = f32Units a + f32Units b := by
      rw [← Int.cast_natCast, ← Int.cast_mul, hn, Int.cast_add]
    rw [f32Value, f32Value, ← add_div, exactValue, hcast, pow_zero, one_mul]
  rw [hsum, hx]
  exact f32Pack_roundsTo _ _ _

/-- `fmul` of finite operands is one rounding of the exact product. -/
theorem f32Mul_roundsTo {a b : F32} (ha : f32IsFinite a = true) (hb : f32IsFinite b = true) :
    RoundsTo (f32Value a * f32Value b) (f32Mul a b) := by
  have hprod : f32Value a * f32Value b
      = exactValue (f32Sign a != f32Sign b) (f32Mag a * f32Mag b) 149 := by
    rw [f32Value, f32Value, f32Units_eq a, f32Units_eq b, exactValue, signFactor_bne]
    push_cast
    ring
  have hx : f32Mul a b
      = f32Pack (f32Sign a != f32Sign b) (f32RoundMag (f32Mag a * f32Mag b) 149) := by
    simp [f32Mul, f32IsNaN_of_finite ha, f32IsNaN_of_finite hb, ha, hb]
  rw [hprod, hx]
  exact f32Pack_roundsTo _ _ _

end Sys2Proof.Machine

namespace Sys2Proof.Proofs
open Sys2Proof.Machine

/-- Settles O36: the exact sum is rounded once. -/
theorem addRoundsToNearestEven : Obligations.AddRoundsToNearestEven :=
  fun _ _ ha hb => f32Add_roundsTo ha hb

/-- Settles O37: the exact product is rounded once. -/
theorem mulRoundsToNearestEven : Obligations.MulRoundsToNearestEven :=
  fun _ _ ha hb => f32Mul_roundsTo ha hb

end Sys2Proof.Proofs
end

section
/-!
SUPPORT. The primitives of 00_scope.md R12 and R14 that are exact: `ffloor`, `fabs`, `flt` and `sgn`.
-/

namespace Sys2Proof.Machine

/-- Two encodings of one magnitude are finite together. -/
theorem f32IsFinite_pack_low (neg : Bool) (x : F32) :
    f32IsFinite (f32Pack neg (x.toNat % 2 ^ 31)) = f32IsFinite x := by
  have hexp : x.toNat % 2 ^ 31 / 2 ^ 23 = f32Exp x := by unfold f32Exp; omega
  rw [f32IsFinite, f32Exp_pack (Nat.mod_lt _ (by norm_num)), hexp, f32IsFinite]

/-- `fabs` of a finite encoding is finite. -/
theorem f32IsFinite_abs {x : F32} (h : f32IsFinite x = true) : f32IsFinite (f32Abs x) = true := by
  rw [f32Abs_eq, f32IsFinite_pack_low, h]

/-- The value of an encoding from its sign and magnitude. -/
theorem f32Value_eq (x : F32) :
    f32Value x = (signFactor (f32Sign x) : ℚ) * f32Mag x / 2 ^ 149 := by
  rw [f32Value, f32Units_eq, Int.cast_mul, Int.cast_natCast]

/-- `fabs` gives the absolute value. -/
theorem f32Value_abs (x : F32) : f32Value (f32Abs x) = |f32Value x| := by
  rw [f32Value_eq, f32Value_eq x, abs_div, abs_mul, abs_signFactor, Nat.abs_cast, f32Abs_eq,
    f32Mag_pack_low, f32Sign_pack (Nat.mod_lt _ (by norm_num))]
  simp [signFactor]

/-- `ffloor` of a finite encoding is the encoding of its integer floor, which is finite and exact. -/
theorem f32Floor_exact {x : F32} (h : f32IsFinite x = true) :
    f32IsFinite (f32Floor x) = true ∧ f32Value (f32Floor x) = f32FloorInt x := by
  obtain ⟨neg, hx, hn⟩ : ∃ neg, f32Floor x
      = f32Pack neg (f32RoundMag ((f32FloorInt x).natAbs * 2 ^ 149) 0)
      ∧ signFactor neg * ((f32FloorInt x).natAbs : Int) = f32FloorInt x := by
    simp only [f32Floor, h, if_true]
    by_cases h0 : f32FloorInt x = 0
    · exact ⟨f32Sign x, by simp [h0, f32RoundMag, f32Drop, roundHalfEven], by simp [h0]⟩
    · exact ⟨_, by simp [h0], signFactor_mul_natAbs _⟩
  obtain ⟨hfin, hmag⟩ := f32Mag_round_exact (isF32Mag_floor h) neg
  refine ⟨by rw [hx, f32IsFinite_round, decide_eq_true hfin], ?_⟩
  rw [f32Value, hx, f32Units_eq, f32Sign_pack (by omega), hmag, Nat.cast_mul, ← mul_assoc, hn]
  push_cast
  ring

end Sys2Proof.Machine

namespace Sys2Proof.Proofs
open Sys2Proof.Machine

/-- Settles O38: the floor of a finite value has an encoding of its own, and the sign bit cleared is the
absolute value. -/
theorem floorAbsCompareAreExact : Obligations.FloorAbsCompareAreExact := by
  refine ⟨fun x hx => ?_, fun a b ha hb => f32Lt_iff ha hb, fun a b h => f32Lt_nan h⟩
  obtain ⟨hfin, hval⟩ := f32Floor_exact hx
  exact ⟨hfin, by rw [hval, f32FloorInt_eq], f32FloorInt_eq x, f32IsFinite_abs hx, f32Value_abs x⟩

/-- Settles O39: `sgn` chooses by `flt` from 0, which compares values. -/
theorem sgnIsMinusOneExactlyBelowZero : Obligations.SgnIsMinusOneExactlyBelowZero := by
  have hsgn : ∀ x : F32,
      binary32.sgn x = if f32Lt x f32Zero then 0xBF800000#32 else 0x3F800000#32 := fun _ => rfl
  refine ⟨hsgn, fun x hx => ?_, by decide, by decide, fun x hx => ?_, fun F _ _ _ x => ?_⟩
  · rw [hsgn, ← f32Value_zero, ← f32Lt_iff hx (by decide)]
    cases f32Lt x f32Zero <;> decide
  · rw [hsgn, f32Lt_nan (.inl hx)]
    rfl
  · simp [Num.sgn, exactNum]

end Sys2Proof.Proofs
end

section
/-!
SUPPORT. `rne_int` (00_scope.md R15): the integer nearest an exact value, and the phase it selects
(41_timing_recovery.md R140).
-/

namespace Sys2Proof.Machine

section field
variable {F : Type} [Field F] [LinearOrder F] [FloorRing F]

/-- All `rne_int` can do: keep the floor, at most half below the value, or step up to the next integer, at
most half above it; exactly at half it takes the even one. -/
theorem rneExact_cases [IsStrictOrderedRing F] (r : F) :
    (rneExact r = ⌊r⌋ ∧ 2 * (r - (⌊r⌋ : Int)) ≤ 1 ∧ (2 * (r - (⌊r⌋ : Int)) = 1 → rneExact r % 2 = 0))
    ∨ (rneExact r = ⌊r⌋ + 1 ∧ 1 ≤ 2 * (r - (⌊r⌋ : Int))
        ∧ (2 * (r - (⌊r⌋ : Int)) = 1 → rneExact r % 2 = 0)) := by
  unfold rneExact
  split
  · rename_i h
    refine .inr ⟨rfl, ?_, fun heq => ?_⟩
    · rcases h with h | ⟨h, -⟩
      · exact h.le
      · exact h.ge
    · rcases h with h | ⟨-, hodd⟩
      · exact absurd heq h.ne'
      · omega
  · rename_i h
    obtain ⟨hle, heven⟩ := not_or.1 h
    exact .inl ⟨rfl, not_lt.1 hle, 
      fun heq => Int.emod_two_ne_one.1 fun hodd => heven ⟨heq, hodd⟩⟩

/-- `rne_int` lies at most half from the value, and at half it is even. -/
theorem abs_sub_rneExact [IsStrictOrderedRing F] (r : F) :
    2 * |r - (rneExact r : F)| ≤ 1 ∧ (2 * |r - (rneExact r : F)| = 1 → rneExact r % 2 = 0) := by
  have hfloor := Int.floor_le r
  have hceil := Int.lt_floor_add_one r
  rcases rneExact_cases r with ⟨h, hhalf, htie⟩ | ⟨h, hhalf, htie⟩
  · have habs : |r - (rneExact r : F)| = r - (⌊r⌋ : Int) := by
      rw [h]; exact abs_of_nonneg (by linarith)
    rw [habs]
    exact ⟨hhalf, htie⟩
  · have habs : |r - (rneExact r : F)| = (⌊r⌋ : Int) + 1 - r := by
      rw [h, Int.cast_add, Int.cast_one, abs_of_nonpos (by linarith), neg_sub]
    rw [habs]
    exact ⟨by linarith, fun heq => htie (by linarith)⟩

/-- No integer is nearer than `rne_int`, and where another is as near `rne_int` is even (00_scope.md R15):
two integers lie at least 1 apart. -/
theorem rneExact_nearest [IsStrictOrderedRing F] (r : F) (n : Int) :
    |r - (rneExact r : F)| ≤ |r - (n : F)|
    ∧ (|r - (rneExact r : F)| = |r - (n : F)| → n ≠ rneExact r → rneExact r % 2 = 0) := by
  obtain ⟨hhalf, htie⟩ := abs_sub_rneExact r
  rcases eq_or_ne n (rneExact r) with rfl | hne
  · exact ⟨le_rfl, fun _ h => absurd rfl h⟩
  have hapart : (1 : F) ≤ |r - (rneExact r : F)| + |r - (n : F)| := by
    calc (1 : F) ≤ |(n : F) - rneExact r| := mod_cast Int.one_le_abs (sub_ne_zero.2 hne)
      _ = |(r - (rneExact r : F)) - (r - (n : F))| := by congr 1; ring
      _ ≤ _ := abs_sub ..
  exact ⟨by linarith, fun heq _ => htie (by linarith)⟩

/-- `rne_int` of a value from 0 to an integer lies from 0 to that integer. -/
theorem rneExact_mem [IsStrictOrderedRing F] {r : F} {n : Nat} (h0 : 0 ≤ r) (hn : r ≤ n) :
    0 ≤ rneExact r ∧ rneExact r ≤ n := by
  have hfloor : 0 ≤ ⌊r⌋ := Int.floor_nonneg.2 h0
  rcases rneExact_cases r with ⟨h, -, -⟩ | ⟨h, hhalf, -⟩
  · rw [h]
    exact ⟨hfloor, Int.cast_le.1 ((Int.floor_le r).trans (by rwa [Int.cast_natCast]))⟩
  · have hlt : ⌊r⌋ < (n : Int) := by
      rw [← Int.cast_lt (R := F), Int.cast_natCast]
      linarith
    omega

end field

/-- `rne_int` of a quotient of integers, by its quotient and remainder. -/
theorem rneExact_div (p : Int) {d : Nat} (hd : 0 < d) :
    rneExact ((p : ℚ) / d)
      = if 2 * (p % d) > d ∨ (2 * (p % d) = d ∧ p / d % 2 = 1) then p / d + 1 else p / d := by
  have hdq : (0 : ℚ) < d := mod_cast hd
  have hfrac : 2 * ((p : ℚ) / d - (p / d : Int)) = (2 * (p % d) : Int) / d := by
    have hsplit : (d : ℚ) * (p / d : Int) + (p % d : Int) = p := mod_cast Int.mul_ediv_add_emod p d
    rw [← hsplit]
    push_cast
    field_simp
    ring
  have hgt : 1 < ((2 * (p % d) : Int) : ℚ) / d ↔ (d : Int) < 2 * (p % d) := by
    rw [one_lt_div hdq]; norm_cast
  have heq : ((2 * (p % d) : Int) : ℚ) / d = 1 ↔ 2 * (p % d) = d := by
    rw [div_eq_one_iff_eq hdq.ne']; norm_cast
  simp only [rneExact, Rat.floor_intCast_div_natCast, hfrac, gt_iff_lt, hgt, heq]

/-- `rne_int` of a binary32 product is computed on the exact product. -/
theorem f32RneMul_eq (n : Nat) (x : F32) : f32RneMul n x = rneExact ((n : ℚ) * f32Value x) := by
  have hval : (n : ℚ) * f32Value x = ((n * f32Units x : Int) : ℚ) / ((2 ^ 149 : Nat) : ℚ) := by
    rw [f32Value]
    push_cast
    ring
  rw [hval, rneExact_div _ (by positivity)]
  simp only [f32RneMul, Nat.cast_pow, Nat.cast_ofNat]

/-- The phase of a `mu` from 0 to 1 is `rne_int` of the product `NSTEPS·mu`, from 0 to `NSTEPS`, in every
format whose product is exact. -/
theorem Trl.phase_of_exact {F G : Type} [Field G] [LinearOrder G] [IsStrictOrderedRing G] [FloorRing G]
    {K : Num F} {P : Params F} {t : Trl F} {mu : G}
    (hrne : K.rneMul P.nsteps t.mu = rneExact ((P.nsteps : G) * mu)) (h0 : 0 ≤ mu) (h1 : mu ≤ 1) :
    (t.phase K P : Int) = rneExact ((P.nsteps : G) * mu) ∧ t.phase K P ≤ P.nsteps := by
  obtain ⟨hlow, hhigh⟩ := rneExact_mem (r := (P.nsteps : G) * mu) (n := P.nsteps)
    (by positivity) (mul_le_of_le_one_right (by positivity) h1)
  unfold Trl.phase
  omega

end Sys2Proof.Machine

namespace Sys2Proof.Proofs
open Sys2Proof.Machine

/-- Settles O40: two integers lie at least 1 apart and `rne_int` at most half from its value; the product of
the phase selection is exact in both formats. -/
theorem rneIntIsNearestEven : Obligations.RneIntIsNearestEven :=
  ⟨fun _ _ _ _ _ r n => rneExact_nearest r n,
   f32RneMul_eq,
   fun P t h0 h1 => Trl.phase_of_exact (f32RneMul_eq P.nsteps t.mu) h0 h1,
   fun _ _ _ _ _ _ _ h0 h1 => Trl.phase_of_exact rfl h0 h1⟩

end Sys2Proof.Proofs
end

section
/-!
SUPPORT. What a step can do to the two units: a chain of the changes listed here, in any format. An
invariant of a unit that each of these changes keeps is kept by every step.
-/

namespace Sys2Proof.Machine

/-- One change of unit TRL. -/
inductive TrlMove {F S D : Type} (N : Format F S D) (P : Params F) : Trl F → Trl F → Prop where
  /-- a reset, by command or at power-on (70_reset_and_hazards.md R290) -/
  | reset (t : Trl F) : TrlMove N P t (Trl.reset N.num.zero)
  /-- an accepted `TRL.CONFIG` (41_timing_recovery.md R123) -/
  | configure {t : Trl F} (ok : t.configOk N.num = true) : TrlMove N P t (t.configure N.num)
  /-- a committed symbol step (41_timing_recovery.md R132) -/
  | commit {t : Trl F} {x : List F} {v : SymbolValues F} (underflow : Bool)
      (values : t.symbolStep N.num P x = some v) : TrlMove N P t (t.commit v underflow)
  /-- a symbol step that faults (41_timing_recovery.md R147) -/
  | fault (t : Trl F) : TrlMove N P t { t with mode := .faulted }
  /-- the results of `TRL.PROCESS` (41_timing_recovery.md R133) -/
  | finish (t : Trl F) (limit : Nat) (k : TrlCall) : TrlMove N P t (t.finish limit k)
  /-- a CSR write (43_csr_access.md R231) -/
  | store (t : Trl F) (csr : TrlCsr) (d : D) : TrlMove N P t (trlCsrStore N t csr d)
  /-- the end of a command with `OK` (60_exceptions.md R250) -/
  | complete (t : Trl F) : TrlMove N P t { t with lastCode := .ok }
  /-- the end of a command by `raise` (60_exceptions.md R252) -/
  | raise (t : Trl F) (c : Code) :
      TrlMove N P t { t with status := t.status ||| c.statusMask, lastCode := c }

/-- One change of unit ACC. -/
inductive AccMove : Acc → Acc → Prop where
  /-- a reset, by command or at power-on (70_reset_and_hazards.md R290) -/
  | reset (a : Acc) : AccMove a Acc.reset
  /-- an accepted `ACC.CONFIG` (42_access_code_correlator.md R182) -/
  | configure {a : Acc} (len : a.codeLen.toNat ≤ 64) : AccMove a a.configure
  /-- an accepted `ACC.SET_CODE` (42_access_code_correlator.md R183) -/
  | loadCode {a : Acc} (len : a.codeLen.toNat ≤ 64) : AccMove a (a.loadCode a.codeLen.toNat)
  /-- `ACC.SET_THRESHOLD` (42_access_code_correlator.md R184) -/
  | setThreshold (a : Acc) (t : Word) : AccMove a { a with threshold := t }
  /-- `ACC.SET_DETECT_INV` (42_access_code_correlator.md R185) -/
  | setDetectInv (a : Acc) (b : Bool) : AccMove a { a with detectInv := b }
  /-- a bit step (42_access_code_correlator.md R201 to R206) -/
  | bitStep (a : Acc) (b : Bool) : AccMove a (a.bitStep b)
  /-- the results of `ACC.PROCESS` (42_access_code_correlator.md R186) -/
  | finish (a : Acc) (n : Word) : AccMove a { a with consumed := n, produced := n }
  /-- a CSR write (43_csr_access.md R231) -/
  | store (a : Acc) (csr : AccCsr) (d : DWord) : AccMove a (accCsrStore a csr d)
  /-- the end of a command with `OK` (60_exceptions.md R250) -/
  | complete (a : Acc) : AccMove a { a with lastCode := .ok }
  /-- the end of a command by `raise`; unit ACC has no numeric fault (60_exceptions.md R252) -/
  | raise (a : Acc) {c : Code} (hc : c ≠ .numericFault) :
      AccMove a { a with status := a.status ||| c.statusMask, lastCode := c }

section moves
variable {F S D : Type} {N : Format F S D} {P : Params F} {s t u : State.Of F S D}

/-- Each unit of `t` comes from that of `s` by a chain of moves. -/
def UnitsMove (N : Format F S D) (P : Params F) (s t : State.Of F S D) : Prop :=
  Relation.ReflTransGen (TrlMove N P) s.trl t.trl ∧ Relation.ReflTransGen AccMove s.acc t.acc

theorem UnitsMove.refl (s : State.Of F S D) : UnitsMove N P s s := ⟨.refl, .refl⟩

theorem UnitsMove.trans (h : UnitsMove N P s t) (h' : UnitsMove N P t u) : UnitsMove N P s u :=
  ⟨h.1.trans h'.1, h.2.trans h'.2⟩

/-- Replacing unit TRL by what a move makes of it. -/
theorem UnitsMove.setTrl {t : Trl F} (h : TrlMove N P s.trl t) : UnitsMove N P s (s.setTrl t) :=
  ⟨.single h, .refl⟩

/-- Replacing unit ACC by what a move makes of it. -/
theorem UnitsMove.setAcc {a : Acc} (h : AccMove s.acc a) : UnitsMove N P s (s.setAcc a) :=
  ⟨.refl, .single h⟩

/-- A command that ends with `OK` moves its unit. -/
theorem UnitsMove.complete (h : UnitsMove N P s t) (i : UnitId) (r : D) :
    UnitsMove N P s (complete i r t) := by
  obtain ⟨htrl, hacc⟩ := h
  cases i with
  | trl => exact ⟨htrl.tail (.complete _), hacc⟩
  | acc => exact ⟨htrl, hacc.tail (.complete _)⟩

/-- A command that raises moves its unit; `NUMERIC_FAULT` is raised in unit TRL only. -/
theorem UnitsMove.raise (h : UnitsMove N P s t) {i : UnitId} {c : Code}
    (hc : i = .trl ∨ c ≠ .numericFault) : UnitsMove N P s (raise N i c t) := by
  obtain ⟨htrl, hacc⟩ := h
  cases i with
  | trl => exact ⟨htrl.tail (.raise _ c), hacc⟩
  | acc => exact ⟨htrl, hacc.tail (.raise _ (hc.resolve_left (by decide)))⟩

/-- Bit steps are moves of unit ACC. -/
theorem Acc.moves_run (a : Acc) (bits : List Bool) : Relation.ReflTransGen AccMove a (a.run bits) := by
  induction bits generalizing a with
  | nil => exact .refl
  | cons b bits ih => exact .head (.bitStep a b) (ih _)

/-- The loop of `TRL.PROCESS` commits symbol steps, and may end with a fault. -/
theorem processLoop_moves {limit fuel : Nat} {k k' : TrlCall} {c : Code}
    (hl : limit ≤ s.trl.inCount.toNat) (h : processLoop N P limit fuel k s = .ok (k', t, c)) :
    UnitsMove N P s t := by
  induction fuel generalizing k s with
  | zero =>
    obtain ⟨rfl, rfl, rfl⟩ : k = k' ∧ s = t ∧ Code.ok = c := by simpa [processLoop] using h
    exact .refl _
  | succ fuel ih =>
    cases hg : s.trl.guard P.ntaps limit k with
    | false =>
      obtain ⟨rfl, rfl, rfl⟩ : k = k' ∧ s = t ∧ Code.ok = c := by
        simpa [processLoop_stop hg] using h
      exact .refl _
    | true =>
      have hpass := processPass_guard (N := N) hg hl
      cases hv : s.trl.symbolStep N.num P (s.windowOf N k.cursor P.ntaps) with
      | none =>
        obtain ⟨rfl, rfl, rfl⟩ : k = k' ∧ s.setTrl { s.trl with mode := .faulted } = t
            ∧ Code.numericFault = c := by
          simpa [processLoop_halt (hpass.trans (stepPass_none hv))] using h
        exact .setTrl (.fault _)
      | some v =>
        rw [processLoop_go (hpass.trans (stepPass_some hv (commitStep_eq hg hl)))] at h
        obtain ⟨htrl, hacc⟩ := ih (by exact hl) h
        exact ⟨.head (.commit _ hv) htrl, hacc⟩

/-- `TRL.PROCESS` moves unit TRL: the loop, the results, the end. -/
theorem trlProcess_moves (h : trlProcess N P s = .next t) : UnitsMove N P s t := by
  by_cases hm : s.trl.mode = .ready
  · have hl := s.trl.inputLimit_le N.num P.ntaps
    obtain ⟨⟨k, s', c⟩, hloop⟩ := processLoop_ok (N := N) (P := P) (fuel := s.trl.capSym.toNat)
      s.trl.callStart hl
    obtain rfl := Host.Outcome.next.inj ((trlProcess_ready hm hloop).symm.trans h)
    have hfinish := (processLoop_moves hl hloop).trans
      (.setTrl (.finish _ (s.trl.inputLimit N.num P.ntaps) k))
    unfold finishProcess
    split
    · exact hfinish.complete _ _
    · exact hfinish.raise (.inl rfl)
  · obtain rfl := Host.Outcome.next.inj ((trlProcess_notReady hm).symm.trans h)
    exact (UnitsMove.refl s).raise (.inl rfl)

/-- `ACC.PROCESS` moves unit ACC: the bit steps, the results, the end. -/
theorem accProcess_moves (h : accProcess N s = .next t) : UnitsMove N P s t := by
  unfold accProcess at h
  split at h
  · obtain ⟨m, hm, -⟩ := accLoop_inside (n := s.acc.callCount) (i := 0) (s := s)
      (by simp [Acc.callCount]) (by simp [Acc.callCount])
    rw [hm] at h
    obtain rfl := Host.Outcome.next.inj h
    have hrun : UnitsMove N P s { s with
        acc := s.acc.run (s.bitsFrom 0 s.acc.callCount), bufs := { s.bufs with accOut := m } } :=
      ⟨.refl, s.acc.moves_run _⟩
    exact (hrun.trans (.setAcc (.finish _ _))).complete _ _
  · obtain rfl := Host.Outcome.next.inj h
    exact (UnitsMove.refl s).raise (.inr (by decide))

/-- A command that loads a code, or raises. -/
theorem accLoad_moves {a : Acc} (h : s.acc.codeLen.toNat ≤ 64 → AccMove s.acc a) :
    UnitsMove N P s (accLoad N a s) := by
  rcases accLoad_cases N s a with ⟨hlen, heq⟩ | ⟨-, heq⟩ <;> rw [heq]
  · exact (UnitsMove.setAcc (h hlen)).complete _ _
  · exact (UnitsMove.refl s).raise (.inr (by decide))

section commands
variable (N P s)

/-- `TRL.CONFIG` constructs, or raises. -/
theorem trlConfig_moves : UnitsMove N P s (trlConfig N s) := by
  rcases trlConfig_cases N s with ⟨hok, heq⟩ | ⟨-, heq⟩ <;> rw [heq]
  · exact (UnitsMove.setTrl (.configure hok)).complete _ _
  · exact (UnitsMove.refl s).raise (.inl rfl)

/-- `TRL.FORECAST` only answers. -/
theorem trlForecast_moves (n : Word) : UnitsMove N P s (trlForecast N P n s) := by
  rcases trlForecast_cases N P s n with ⟨-, heq⟩ | ⟨-, heq⟩ <;> rw [heq]
  · exact (UnitsMove.refl s).complete _ _
  · exact (UnitsMove.refl s).raise (.inl rfl)

/-- `TRL.CSRR` only answers. -/
theorem trlCsrr_moves (csr : BitVec 12) : UnitsMove N P s (trlCsrr N P csr s) := by
  rcases trlCsrr_cases N P s csr with ⟨r, -, heq⟩ | ⟨-, heq⟩ <;> rw [heq]
  · exact (UnitsMove.refl s).complete _ _
  · exact (UnitsMove.refl s).raise (.inl rfl)

/-- `TRL.CSRW` stores into a CSR, or raises. -/
theorem trlCsrw_moves (csr : BitVec 12) (d : D) : UnitsMove N P s (trlCsrw N csr d s) := by
  rcases trlCsrw_cases N s csr d with ⟨r, -, -, heq⟩ | ⟨-, heq⟩ <;> rw [heq]
  · exact (UnitsMove.setTrl (.store _ _ _)).complete _ _
  · exact (UnitsMove.refl s).raise (.inl rfl)

/-- `ACC.CSRR` only answers. -/
theorem accCsrr_moves (csr : BitVec 12) : UnitsMove N P s (accCsrr N csr s) := by
  rcases accCsrr_cases N s csr with ⟨r, -, heq⟩ | ⟨-, heq⟩ <;> rw [heq]
  · exact (UnitsMove.refl s).complete _ _
  · exact (UnitsMove.refl s).raise (.inr (by decide))

/-- `ACC.CSRW` stores into a CSR, or raises. -/
theorem accCsrw_moves (csr : BitVec 12) (d : DWord) : UnitsMove N P s (accCsrw N csr d s) := by
  rcases accCsrw_cases N s csr d with ⟨r, -, -, heq⟩ | ⟨-, heq⟩ <;> rw [heq]
  · exact (UnitsMove.setAcc (.store _ _ _)).complete _ _
  · exact (UnitsMove.refl s).raise (.inr (by decide))

end commands

/-- Moves to the state an outcome holds. -/
theorem UnitsMove.next {φ ρ : Type} (h : Host.Outcome.next (φ := φ) (ρ := ρ) u = .next t)
    (hu : UnitsMove N P s u) : UnitsMove N P s t :=
  Host.Outcome.next.inj h ▸ hu

/-- Every instruction moves the units. -/
theorem execOf_moves {i : Instr} {d : D} (h : execOf N P i d s = .next t) : UnitsMove N P s t := by
  cases i with
  | trlReset => exact .next h ((UnitsMove.setTrl (.reset _)).complete .trl _)
  | trlConfig => exact .next h (trlConfig_moves N P s)
  | trlForecast n => exact .next h (trlForecast_moves N P s n)
  | trlProcess => exact trlProcess_moves h
  | trlCsrr csr => exact .next h (trlCsrr_moves N P s csr)
  | trlCsrw csr => exact .next h (trlCsrw_moves N P s csr d)
  | accReset => exact .next h ((UnitsMove.setAcc (.reset _)).complete .acc _)
  | accConfig => exact .next h (accLoad_moves .configure)
  | accSetCode => exact .next h (accLoad_moves .loadCode)
  | accSetThreshold n => exact .next h ((UnitsMove.setAcc (.setThreshold _ n)).complete .acc _)
  | accSetDetectInv b => exact .next h ((UnitsMove.setAcc (.setDetectInv _ b)).complete .acc _)
  | accProcess => exact accProcess_moves h
  | accCsrr csr => exact .next h (accCsrr_moves N P s csr)
  | accCsrw csr v => exact .next h (accCsrw_moves N P s csr v)

/-- A command at the port moves the units. -/
theorem runCommandOf_moves {c : CommandOf D} (h : runCommandOf N (execOf N P) c s = .next t) :
    UnitsMove N P s t := by
  unfold runCommandOf at h
  split at h
  · exact execOf_moves h
  · exact .next h ((UnitsMove.refl s).raise (.inr (by decide)))
  · exact .next h (.refl s)

/-- An action of the host moves the units. -/
theorem runInputOf_moves {input : HostInputOf D}
    (h : runInputOf N (execOf N P) input s = .next t) : UnitsMove N P s t := by
  cases input with
  | issue c => exact runCommandOf_moves h
  | fill b i v =>
    cases b <;> exact .next h (.refl s)
  | powerOn => exact .next h ⟨.single (.reset _), .single (.reset _)⟩

/-- A step moves the units. -/
theorem stepOf_moves (h : stepOf N (execOf N P) s = .next t) : UnitsMove N P s t := by
  unfold stepOf takeInput at h
  cases hin : s.inputs with
  | nil =>
    simp only [hin] at h
    exact .next h (.refl s)
  | cons input rest =>
    simp only [hin] at h
    exact runInputOf_moves (s := { s with inputs := rest }) h

end moves

/-- What the first member of a chain has and each link keeps, the last one has. -/
theorem reflTransGen_keeps {α : Type} {r : α → α → Prop} {I : α → Prop} {a b : α}
    (keeps : ∀ a b, r a b → I a → I b) (h : Relation.ReflTransGen r a b) (ha : I a) : I b := by
  induction h with
  | refl => exact ha
  | tail _ hlink ih => exact keeps _ _ hlink ih

section keeps
variable {s t : State}

/-- A step of this machine moves the units. -/
theorem step_moves (h : step s = .next t) : UnitsMove binary32Format Config.params s t := by
  rw [step_is_binary32_machine] at h
  exact stepOf_moves h

/-- An invariant of unit TRL that every move keeps is kept by every step. -/
theorem step_keeps_trl {I : Trl F32 → Prop} (h : step s = .next t)
    (keeps : ∀ a b, TrlMove binary32Format Config.params a b → I a → I b) (hs : I s.trl) : I t.trl :=
  reflTransGen_keeps keeps (step_moves h).1 hs

/-- An invariant of unit ACC that every move keeps is kept by every step. -/
theorem step_keeps_acc {I : Acc → Prop} (h : step s = .next t)
    (keeps : ∀ a b, AccMove a b → I a → I b) (hs : I s.acc) : I t.acc :=
  reflTransGen_keeps keeps (step_moves h).2 hs

end keeps

end Sys2Proof.Machine
end

section
/-!
SUPPORT. What the READY invariant (10_state.md R42) needs under `NUM = Binary32`: the test of `TRL.CONFIG`
on values, and the range of the phase a symbol step leaves (41_timing_recovery.md R146, R151).
-/

namespace Sys2Proof.Machine

@[simp] theorem f32Value_one : f32Value f32One = 1 := by
  rw [f32Value, show f32Units f32One = 2 ^ 149 by decide]
  norm_num

/-- `flt` of two finite encodings fails where the comparison of their values does. -/
theorem f32Lt_eq_false_iff {a b : F32} (ha : f32IsFinite a = true) (hb : f32IsFinite b = true) :
    f32Lt a b = false ↔ ¬ f32Value a < f32Value b := by
  rw [← f32Lt_iff ha hb, Bool.not_eq_true]

/-- The test `ok` of `TRL.CONFIG`, on values (41_timing_recovery.md R122). -/
theorem Trl.configOk_iff (t : Trl F32) :
    t.configOk binary32 = true ↔ trlConfigTest t ∧ f32IsFinite (t.cfgLim binary32) = true := by
  have h0 : f32IsFinite f32Zero = true := by decide
  have h1 : f32IsFinite f32One = true := by decide
  simp only [Trl.configOk, binary32, Bool.and_eq_true, Bool.not_eq_true', and_assoc]
  refine and_congr_right fun ho => and_congr_right fun hgm => and_congr_right fun hgo =>
    and_congr_right fun hrl => and_congr_right fun hmu => ?_
  rw [f32Lt_eq_false_iff ho h1, f32Lt_eq_false_iff hgm h0, f32Lt_eq_false_iff hgo h0,
    f32Lt_eq_false_iff hrl h0, f32Lt_iff hrl h1, f32Lt_eq_false_iff hmu h0, f32Lt_iff hmu h1,
    f32Value_zero, f32Value_one]

/-- A number from 1 on has a floor that saturates to a count from 1 on. -/
theorem one_le_saturated_floor {x : F32} (h : 1 ≤ f32Value x) :
    1 ≤ (BitVec.ofNat 32 (saturate32 (f32FloorInt x))).toNat := by
  have hfloor : 1 ≤ f32FloorInt x := by
    rw [f32FloorInt_eq]
    exact Int.le_floor.2 (by simpa using h)
  simp only [saturate32, BitVec.toNat_ofNat]
  omega

/-- Flipping the sign bit gives the encoding of the same magnitude with the other sign. -/
theorem f32Neg_eq (x : F32) : f32Neg x = f32Pack (!f32Sign x) (x.toNat % 2 ^ 31) := by
  have hsign : f32Sign (f32Neg x) = !f32Sign x := by simp [f32Sign, f32Neg]
  have hlow : (f32Neg x).toNat % 2 ^ 31 = x.toNat % 2 ^ 31 := by
    rw [f32Neg, BitVec.toNat_xor, Nat.xor_mod_two_pow]
    exact Nat.xor_zero _
  rw [f32_eq_pack (f32Neg x), hsign, hlow]

theorem f32IsFinite_neg (x : F32) : f32IsFinite (f32Neg x) = f32IsFinite x := by
  rw [f32Neg_eq, f32IsFinite_pack_low]

theorem f32Value_neg (x : F32) : f32Value (f32Neg x) = -f32Value x := by
  have hlow : x.toNat % 2 ^ 31 < 2 ^ 31 := Nat.mod_lt _ (by norm_num)
  rw [f32Value_eq, f32Value_eq x, f32Neg_eq, f32Mag_pack_low, f32Sign_pack hlow]
  cases f32Sign x <;> simp [signFactor, neg_div]

/-- `fsub` of finite operands is one rounding of the exact difference (00_scope.md R12). -/
theorem f32Sub_roundsTo {a b : F32} (ha : f32IsFinite a = true) (hb : f32IsFinite b = true) :
    RoundsTo (f32Value a - f32Value b) (f32Sub a b) := by
  rw [sub_eq_add_neg, ← f32Value_neg]
  exact f32Add_roundsTo ha (by rwa [f32IsFinite_neg])

/-- A finite rounding does not pass a finite encoding that its exact result does not pass, from below. -/
theorem RoundsTo.le_of_le {q : ℚ} {x z : F32} (h : RoundsTo q x) (hx : f32IsFinite x = true)
    (hz : f32IsFinite z = true) (hq : f32Value z ≤ q) : f32Value z ≤ f32Value x := by
  have hnear := (h.1 hx z hz).1
  rw [abs_of_nonneg (sub_nonneg.2 hq)] at hnear
  linarith [le_abs_self (q - f32Value x)]

/-- Nor from above. -/
theorem RoundsTo.ge_of_ge {q : ℚ} {x z : F32} (h : RoundsTo q x) (hx : f32IsFinite x = true)
    (hz : f32IsFinite z = true) (hq : q ≤ f32Value z) : f32Value x ≤ f32Value z := by
  have hnear := (h.1 hx z hz).1
  rw [abs_of_nonpos (sub_nonpos.2 hq)] at hnear
  linarith [neg_abs_le (q - f32Value x)]

/-- The fractional part of a finite value, in one rounding, lies from 0 to 1: the exact one does, and 0 and
1 have encodings. -/
theorem f32Sub_floor_mem {x : F32} (hx : f32IsFinite x = true)
    (hfin : f32IsFinite (f32Sub x (f32Floor x)) = true) :
    0 ≤ f32Value (f32Sub x (f32Floor x)) ∧ f32Value (f32Sub x (f32Floor x)) ≤ 1 := by
  obtain ⟨hffin, hfval⟩ := f32Floor_exact hx
  have hround := f32Sub_roundsTo hx hffin
  rw [hfval, f32FloorInt_eq, Int.self_sub_floor] at hround
  rw [← f32Value_zero, ← f32Value_one]
  exact ⟨hround.le_of_le hfin (by decide) (by simp),
    hround.ge_of_ge hfin (by decide) (by simpa using (Int.fract_lt_one _).le)⟩

/-- What a symbol step that commits leaves: finite values, a rate above 0 and a phase from 0 to 1
(41_timing_recovery.md R147, R151). -/
theorem Trl.symbolStep_ranges {P : Params F32} {t : Trl F32} {x : List F32} {v : SymbolValues F32}
    (h : t.symbolStep binary32 P x = some v) :
    (f32IsFinite v.y = true ∧ f32IsFinite v.omega = true ∧ f32IsFinite v.mu = true)
    ∧ 0 < f32Value v.omega ∧ 0 ≤ f32Value v.mu ∧ f32Value v.mu ≤ 1 := by
  obtain ⟨hv, hfault⟩ := Trl.symbolStep_some h
  obtain ⟨⟨hy, homega, hmuT, hmu⟩, -, -, hpos⟩ := SymbolValues.fault_false hfault
  have hval : v.mu = f32Sub v.muT (f32Floor v.muT) := by rw [hv]; rfl
  refine ⟨⟨hy, homega, hmu⟩, ?_, ?_⟩
  · rw [← f32Value_zero]
    exact (f32Lt_iff (by decide) homega).1 hpos
  · rw [hval]
    exact f32Sub_floor_mem hmuT (hval ▸ hmu)

/-- A reset unit is not READY (70_reset_and_hazards.md R290). -/
theorem Trl.readyInv_reset (zero : F32) : (Trl.reset zero).ReadyInv := fun hready => nomatch hready

/-- A construction that `TRL.CONFIG` accepts is READY as R42 says. -/
theorem Trl.readyInv_configure {t : Trl F32} (h : t.configOk binary32 = true) :
    (t.configure binary32).ReadyInv := by
  obtain ⟨⟨ho, hgm, hgo, hrl, hmu, ho1, hgm0, hgo0, hrl0, hrl1, hmu0, hmu1⟩, hlim⟩ :=
    t.configOk_iff.1 h
  have hone := not_lt.1 ho1
  have hzero : f32IsFinite f32Zero = true := by decide
  exact fun _ => ⟨⟨hmu, ho, ho, hlim, hzero, hgm, hgo, hrl⟩, hone, not_lt.1 hgm0, not_lt.1 hgo0,
    not_lt.1 hrl0, hrl1, one_pos.trans_le hone, not_lt.1 hmu0, hmu1.le, one_le_saturated_floor hone⟩

/-- A committed symbol step keeps R42: it writes the last sample, the rate and the phase. -/
theorem Trl.readyInv_commit {P : Params F32} {t : Trl F32} {x : List F32} {v : SymbolValues F32}
    (u : Bool) (hv : t.symbolStep binary32 P x = some v) (h : t.ReadyInv) :
    (t.commit v u).ReadyInv := by
  intro hready
  obtain ⟨⟨-, -, hmid, hlim, -, hgm, hgo, hrl⟩, hmid1, hgm0, hgo0, hrl0, hrl1, -, -, -, hpass⟩ :=
    h hready
  obtain ⟨⟨hy, homega, hmu⟩, hpos, hmu0, hmu1⟩ := Trl.symbolStep_ranges hv
  exact ⟨⟨hmu, homega, hmid, hlim, hy, hgm, hgo, hrl⟩, hmid1, hgm0, hgo0, hrl0, hrl1, hpos, hmu0, hmu1,
    hpass⟩

/-- A CSR write reaches no field of R42: those are read-only (43_csr_access.md R233). -/
theorem Trl.readyInv_store {t : Trl F32} (csr : TrlCsr) (d : DWord) (h : t.ReadyInv) :
    (trlCsrStore binary32Format t csr d).ReadyInv := by
  cases csr <;> exact h

/-- Every change of unit TRL keeps R42. -/
theorem TrlMove.keeps_readyInv {P : Params F32} {t t' : Trl F32}
    (move : TrlMove binary32Format P t t') (h : t.ReadyInv) : t'.ReadyInv := by
  cases move with
  | reset => exact Trl.readyInv_reset _
  | configure ok => exact Trl.readyInv_configure ok
  | commit u values => exact Trl.readyInv_commit u values h
  | fault => exact fun hready => nomatch hready
  | finish => exact h
  | store csr d => exact Trl.readyInv_store csr d h
  | complete => exact h
  | raise => exact h

end Sys2Proof.Machine

namespace Sys2Proof.Proofs
open Sys2Proof.Machine

/-- Settles O56: a step is a chain of changes of unit TRL, and each keeps the invariant. -/
theorem stepKeepsReadyInvariant : Obligations.StepKeepsReadyInvariant :=
  fun _ _ hs h => step_keeps_trl h (fun _ _ move => move.keeps_readyInv) hs

end Sys2Proof.Proofs
end

section
/-!
SUPPORT. The code fields of unit ACC: what `load_code` derives from the staging string
(42_access_code_correlator.md R190), and that it is what 10_state.md R43 asks.
-/

namespace Sys2Proof.Machine

/-- Bit 0 of character `i` of the staging string stands at bit `63 - i` of the pattern, for the first `n`
characters; the other bits are 0 (42_access_code_correlator.md R190). -/
theorem Acc.getLsbD_codeBits (a : Acc) {n j : Nat} (hn : n ≤ 64) (hj : j < 64) :
    (a.codeBits n).getLsbD j
      = (decide (64 - n ≤ j) && (a.codeStr.getD (63 - j) 0).getLsbD 0) := by
  induction n with
  | zero => simp [Acc.codeBits, hj]
  | succ n ih =>
    have hbit : (if (a.codeStr.getD n 0).getLsbD 0 then (1#64) <<< (63 - n) else 0).getLsbD j
        = (decide (j = 63 - n) && (a.codeStr.getD n 0).getLsbD 0) := by
      cases (a.codeStr.getD n 0).getLsbD 0 with
      | false => simp
      | true =>
        rw [if_pos rfl, Bool.and_true, BitVec.getLsbD_shiftLeft, BitVec.getLsbD_one, Bool.eq_iff_iff]
        simp only [Bool.and_eq_true, decide_eq_true_eq, Bool.not_eq_true', decide_eq_false_iff_not]
        omega
    rw [Acc.codeBits, BitVec.getLsbD_or, ih (by omega), hbit]
    by_cases hlast : j = 63 - n
    · obtain rfl : n = 63 - j := by omega
      simp only [← hlast, show ¬ 64 - (63 - j) ≤ j by omega, show 64 - (63 - j + 1) ≤ j by omega,
        decide_true, decide_false, Bool.false_and, Bool.true_and, Bool.false_or]
    · have hrest : 64 - (n + 1) ≤ j ↔ 64 - n ≤ j := by omega
      simp only [hlast, hrest, decide_false, Bool.false_and, Bool.or_false]

/-- The mask of a code of length `n` holds its top `n` bits (42_access_code_correlator.md R190). -/
theorem getLsbD_codeMask {n j : Nat} (hj : j < 64) :
    (codeMask n).getLsbD j = decide (64 - n ≤ j) := by
  unfold codeMask
  split
  · simp; omega
  · rw [BitVec.getLsbD_not, BitVec.getLsbD_ofNat, Nat.testBit_two_pow_sub_one]
    simp only [hj, decide_true, Bool.true_and, ← decide_not, decide_eq_decide]
    omega

/-- `load_code` of a length up to 64 gives the code fields R43 asks for: the pattern lies under the mask. -/
theorem Acc.codeInv_loadCode (a : Acc) {n : Nat} (hn : n ≤ 64) : (a.loadCode n).CodeInv := by
  have hlen : (a.loadCode n).len.toNat = n := by simp [Acc.loadCode]; omega
  refine ⟨by omega, fun j => ?_, ?_, rfl, rfl⟩
  · rw [hlen]
    exact getLsbD_codeMask j.isLt
  · apply BitVec.eq_of_getLsbD_eq
    intro j hj
    show (a.codeBits n &&& ~~~codeMask n).getLsbD j = _
    simp only [BitVec.getLsbD_and, BitVec.getLsbD_not, a.getLsbD_codeBits hn hj, getLsbD_codeMask hj,
      hj]
    cases decide (64 - n ≤ j) <;> simp

theorem Acc.codeInv_reset : Acc.reset.CodeInv := by decide

/-- A CSR write reaches no code field: those are read-only (43_csr_access.md R233). -/
theorem Acc.codeInv_store {a : Acc} (csr : AccCsr) (d : DWord) (h : a.CodeInv) :
    (accCsrStore a csr d).CodeInv := by
  cases csr <;> exact h

/-- A bit step writes no code field (42_access_code_correlator.md R206). -/
theorem Acc.codeInv_bitStep {a : Acc} (b : Bool) (h : a.CodeInv) : (a.bitStep b).CodeInv := by
  simpa only [Acc.CodeInv, Acc.bitStep_len, Acc.bitStep_mask, Acc.bitStep_accessCode,
    Acc.bitStep_invAccessCode, Acc.bitStep_flagBit] using h

/-- Every change of unit ACC keeps R43. -/
theorem AccMove.keeps_codeInv {a a' : Acc} (move : AccMove a a') (h : a.CodeInv) : a'.CodeInv := by
  cases move with
  | reset => exact Acc.codeInv_reset
  | configure len => exact a.codeInv_loadCode len
  | loadCode len => exact a.codeInv_loadCode len
  | bitStep b => exact Acc.codeInv_bitStep b h
  | store csr d => exact Acc.codeInv_store csr d h
  | setThreshold => exact h
  | setDetectInv => exact h
  | finish => exact h
  | complete => exact h
  | raise => exact h

end Sys2Proof.Machine

namespace Sys2Proof.Proofs
open Sys2Proof.Machine

/-- Settles O57: a step is a chain of changes of unit ACC, and each keeps the invariant. -/
theorem stepKeepsCodeInvariant : Obligations.StepKeepsCodeInvariant :=
  fun _ _ hs h => step_keeps_acc h (fun _ _ move => move.keeps_codeInv) hs

end Sys2Proof.Proofs
end

section
/-!
SUPPORT. The reserved bits of `STATUS`, `IRQ_EN` and `CTRL` (10_state.md R24, R25): a register is written
in bits that its unit has.
-/

namespace Sys2Proof.Machine

section bits
variable {w : Nat} {x y bits : BitVec w}

/-- Setting bits inside `bits` keeps the others at 0. -/
theorem or_reserved_eq_zero (hx : x &&& ~~~bits = 0#w) (hy : y &&& ~~~bits = 0#w) :
    (x ||| y) &&& ~~~bits = 0#w := by
  rw [BitVec.and_or_distrib_right, hx, hy, BitVec.or_zero]

/-- Clearing bits keeps the others at 0. -/
theorem and_reserved_eq_zero (hx : x &&& ~~~bits = 0#w) : (x &&& y) &&& ~~~bits = 0#w := by
  rw [BitVec.and_assoc, BitVec.and_comm y, ← BitVec.and_assoc, hx, BitVec.zero_and]

/-- A register written under a mask has no bit outside it. -/
theorem masked_reserved_eq_zero : (x &&& bits) &&& ~~~bits = 0#w := by
  rw [BitVec.and_assoc, BitVec.and_not_self]
  exact BitVec.and_zero

end bits

/-- The reserved bits of unit TRL are 0 (10_state.md R24, R25). -/
def Trl.ReservedZero {F : Type} (t : Trl F) : Prop :=
  t.status &&& ~~~trlStatusBits = 0#32 ∧ t.irqEn &&& ~~~trlStatusBits = 0#32 ∧ t.ctrl &&& ~~~ctrlBits = 0#32

/-- The reserved bits of unit ACC are 0 (10_state.md R24). -/
def Acc.ReservedZero (a : Acc) : Prop :=
  a.status &&& ~~~accStatusBits = 0#32 ∧ a.irqEn &&& ~~~accStatusBits = 0#32

/-- The machine's reserved bits are those of its units. -/
theorem State.reservedZero_iff (s : State) :
    s.ReservedZero ↔ s.trl.ReservedZero ∧ s.acc.ReservedZero := by
  simp only [State.ReservedZero, Trl.ReservedZero, Acc.ReservedZero, and_assoc]

theorem Trl.reservedZero_reset {F : Type} (zero : F) : (Trl.reset zero).ReservedZero :=
  ⟨BitVec.zero_and, BitVec.zero_and, BitVec.zero_and⟩

theorem Acc.reservedZero_reset : Acc.reset.ReservedZero := ⟨BitVec.zero_and, BitVec.zero_and⟩

/-- A CSR write clears bits of `STATUS`, and writes `IRQ_EN` and `CTRL` under the masks of their bits
(43_csr_access.md R234, R235). -/
theorem Trl.reservedZero_store {F S D : Type} {N : Format F S D} {t : Trl F} (csr : TrlCsr) (d : D)
    (h : t.ReservedZero) : (trlCsrStore N t csr d).ReservedZero := by
  obtain ⟨hstatus, hirq, hctrl⟩ := h
  cases csr with
  | status => exact ⟨and_reserved_eq_zero hstatus, hirq, hctrl⟩
  | irqEn => exact ⟨hstatus, masked_reserved_eq_zero, hctrl⟩
  | ctrl => exact ⟨hstatus, hirq, masked_reserved_eq_zero⟩
  | _ => exact ⟨hstatus, hirq, hctrl⟩

/-- The same of unit ACC. -/
theorem Acc.reservedZero_store {a : Acc} (csr : AccCsr) (d : DWord) (h : a.ReservedZero) :
    (accCsrStore a csr d).ReservedZero := by
  obtain ⟨hstatus, hirq⟩ := h
  cases csr with
  | status => exact ⟨and_reserved_eq_zero hstatus, hirq⟩
  | irqEn => exact ⟨hstatus, masked_reserved_eq_zero⟩
  | _ => exact ⟨hstatus, hirq⟩

/-- A committed symbol step sets at most `CURSOR_UNDERFLOW`, a bit unit TRL has. -/
theorem Trl.reservedZero_commit {F : Type} {t : Trl F} (v : SymbolValues F) (underflow : Bool)
    (h : t.ReservedZero) : (t.commit v underflow).ReservedZero := by
  obtain ⟨hstatus, hirq, hctrl⟩ := h
  refine ⟨?_, hirq, hctrl⟩
  cases underflow with
  | false => exact hstatus
  | true => exact or_reserved_eq_zero hstatus (by decide)

/-- A bit step sets at most `AMBIGUOUS_MATCH`, a bit unit ACC has. -/
theorem Acc.reservedZero_bitStep {a : Acc} (b : Bool) (h : a.ReservedZero) :
    (a.bitStep b).ReservedZero := by
  obtain ⟨hstatus, hirq⟩ := h
  refine ⟨?_, by rwa [Acc.bitStep_irqEn]⟩
  rw [Acc.bitStep_status]
  split
  · exact or_reserved_eq_zero hstatus (by decide)
  · exact hstatus

/-- Every code's `STATUS` bit is one unit TRL has (60_exceptions.md R252). -/
theorem Code.statusMask_trl (c : Code) : c.statusMask &&& ~~~trlStatusBits = 0#32 := by
  cases c <;> decide

/-- Every code's `STATUS` bit but that of `NUMERIC_FAULT` is one unit ACC has (10_state.md R24). -/
theorem Code.statusMask_acc {c : Code} (hc : c ≠ .numericFault) :
    c.statusMask &&& ~~~accStatusBits = 0#32 := by
  cases c with
  | numericFault => exact absurd rfl hc
  | _ => decide

/-- Every change of unit TRL keeps its reserved bits at 0. -/
theorem TrlMove.keeps_reservedZero {F S D : Type} {N : Format F S D} {P : Params F} {t t' : Trl F}
    (move : TrlMove N P t t') (h : t.ReservedZero) : t'.ReservedZero := by
  have ⟨hstatus, hirq, hctrl⟩ := h
  cases move with
  | reset => exact Trl.reservedZero_reset _
  | commit underflow => exact Trl.reservedZero_commit _ underflow h
  | store csr d => exact Trl.reservedZero_store csr d h
  | raise c => exact ⟨or_reserved_eq_zero hstatus c.statusMask_trl, hirq, hctrl⟩
  | configure => exact h
  | fault => exact h
  | finish => exact h
  | complete => exact h

/-- Every change of unit ACC keeps its reserved bits at 0. -/
theorem AccMove.keeps_reservedZero {a a' : Acc} (move : AccMove a a') (h : a.ReservedZero) :
    a'.ReservedZero := by
  have ⟨hstatus, hirq⟩ := h
  cases move with
  | reset => exact Acc.reservedZero_reset
  | bitStep b => exact Acc.reservedZero_bitStep b h
  | store csr d => exact Acc.reservedZero_store csr d h
  | raise hc => exact ⟨or_reserved_eq_zero hstatus (Code.statusMask_acc hc), hirq⟩
  | configure => exact h
  | loadCode => exact h
  | setThreshold => exact h
  | setDetectInv => exact h
  | finish => exact h
  | complete => exact h

end Sys2Proof.Machine

namespace Sys2Proof.Proofs
open Sys2Proof.Machine

/-- Settles O58: a step is a chain of changes of the two units, and each keeps its unit's bits. -/
theorem stepKeepsReservedBitsZero : Obligations.StepKeepsReservedBitsZero := by
  intro s t hs h
  obtain ⟨htrl, hacc⟩ := s.reservedZero_iff.1 hs
  exact t.reservedZero_iff.2
    ⟨step_keeps_trl h (fun _ _ move => move.keeps_reservedZero) htrl,
     step_keeps_acc h (fun _ _ move => move.keeps_reservedZero) hacc⟩

/-- Settles O55: both units reset and both invariants hold of a reset unit; the buffers are empty and no
skip is carried. -/
theorem resetMeetsTheInvariants : Obligations.ResetMeetsTheInvariants :=
  ⟨Trl.readyInv_reset _, Acc.codeInv_reset,
   State.reset.reservedZero_iff.2 ⟨Trl.reservedZero_reset _, Acc.reservedZero_reset⟩, rfl, by decide⟩

end Sys2Proof.Proofs
end

section
/-!
SUPPORT. `ACC.CSRR` by the rows of the CSR map (10_state.md R28): a row's number, and that of a character of
`CODESTR`, names its register.
-/

namespace Sys2Proof.Machine

/-- The number of a row of the map of unit ACC names that row: no number is listed twice, nor in the range
of `CODESTR`. -/
theorem accCsrOf_field : ∀ r ∈ accCsrMap, accCsrOf r.field = some r := by decide

/-- The number 0x100 + i names `CODESTR[i]` (10_state.md R28). -/
theorem accCsrOf_codeStr (i : Fin 64) :
    accCsrOf (BitVec.ofNat 12 (0x100 + i.val)) = some ⟨0x100 + i.val, .codeStr i, .rw⟩ := by
  have hnum : (BitVec.ofNat 12 (0x100 + i.val)).toNat = 0x100 + i.val := by
    rw [BitVec.toNat_ofNat]; omega
  rw [accCsrOf, hnum, if_pos (by omega), Nat.add_sub_cancel_left, Fin.ofNat_val_eq_self]

/-- `ACC.CSRR` of a number that names a register completes with the register's value
(43_csr_access.md R230). -/
theorem accCsrr_named {F S D : Type} (N : Format F S D) (s : State.Of F S D) {n : BitVec 12}
    {r : CsrRow AccCsr} (h : accCsrOf n = some r) :
    accCsrr N n s = complete .acc (N.ofBits (accCsrRead s.acc r.csr)) s := by
  simp only [accCsrr, h]

/-- A bit, zero-extended. -/
theorem setWidth_ofBool (b : Bool) : (BitVec.ofBool b).setWidth 64 = if b then 1#64 else 0#64 := by
  cases b <;> rfl

end Sys2Proof.Machine

namespace Sys2Proof.Proofs
open Sys2Proof.Machine

/-- Settles O13: the rows of the statement are those of the map, each with what a read gives, and `CODESTR`
follows by its range of numbers. -/
theorem accCsrrReadsTheMap : Obligations.AccCsrrReadsTheMap := by
  refine fun s => ⟨fun row hrow => ?_, fun i => ?_⟩
  · obtain ⟨r, hr, rfl⟩ : ∃ r ∈ accCsrMap, (r.field, accCsrRead s.acc r.csr) = row := by
      rw [← List.mem_map]
      convert hrow using 1
      simp only [accCsrMap, List.map, accCsrRead, setWidth_ofBool]
      cases s.acc.mode <;> cases s.acc.lastCode <;> rfl
    exact congrArg _ (accCsrr_named binary32Format s (accCsrOf_field r hr))
  · exact congrArg _ (accCsrr_named binary32Format s (accCsrOf_codeStr i))

end Sys2Proof.Proofs
end

section
/-!
SUPPORT. What the commands write to the stream buffers: each output buffer of `TRL.PROCESS` by element
writes below the produced count, `ACC_OUT` below that of `ACC.PROCESS`, and no buffer by any other command.
-/

namespace Sys2Proof.Machine

section writes
variable {F S D : Type} {N : Format F S D}

/-- The contents `m'` of a buffer come from `m` by writes of elements below `n`. -/
def WritesBelow (N : Format F S D) (n : Nat) : S → S → Prop :=
  Relation.ReflTransGen fun m m' => ∃ i v, i < n ∧ m' = N.writeElem m i v

/-- Writes below `n` are writes below any greater bound. -/
theorem WritesBelow.mono {n n' : Nat} {m m' : S} (h : WritesBelow N n m m') (hn : n ≤ n') :
    WritesBelow N n' m m' :=
  Relation.ReflTransGen.mono (fun _ _ ⟨i, v, hi, hm⟩ => ⟨i, v, hi.trans_le hn, hm⟩) _ _ h

/-- One more write. -/
theorem WritesBelow.write {n i : Nat} {m m' : S} (h : WritesBelow N n m m') (hi : i < n) (v : F) :
    WritesBelow N n m (N.writeElem m' i v) :=
  h.tail ⟨i, v, hi, rfl⟩

/-- The passthrough copy writes the elements from `dst` on. -/
theorem WritesBelow.copied {n src dst count : Nat} {i m m' : S} (h : WritesBelow N n m m')
    (hn : dst + count ≤ n) : WritesBelow N n m (copied N src dst count i m') := by
  induction count generalizing src dst m' with
  | zero => exact h
  | succ count ih => exact ih (h.write (by omega) _) (by omega)

/-- An output that is written only where it is enabled. -/
theorem WritesBelow.ite {n n' : Nat} {m m' m'' : S} (en : Bool) (h : WritesBelow N n m m')
    (hen : WritesBelow N n' m m'') :
    WritesBelow N (if en then n' else n) m (if en then m'' else m') := by
  cases en
  · exact h
  · exact hen

/-- The bytes at or above the bound keep their values. -/
theorem WritesBelow.read_above {n a : Nat} {m m' : Memory} (h : WritesBelow binary32Format n m m')
    (ha : 4 * n ≤ a) : Memory.read m' a = Memory.read m a :=
  reflTransGen_keeps (I := fun m₁ => Memory.read m₁ a = Memory.read m a)
    (fun _ _ ⟨_, v, hi, hm⟩ hread => hm ▸ (Memory.read_writeF_other v (by omega)).trans hread) h rfl

/-- The canonical form is kept. -/
theorem WritesBelow.wf {n : Nat} {m m' : Memory} (h : WritesBelow binary32Format n m m')
    (hm : Memory.wf m = true) : Memory.wf m' = true :=
  reflTransGen_keeps (I := fun m₁ => Memory.wf m₁ = true)
    (fun _ _ ⟨i, v, _, hwrite⟩ hwf => hwrite ▸ Memory.wf_writeF i v hwf) h hm

/-- The buffers `b'` come from `b` by writes of elements below a bound for each output buffer of unit
TRL; no other buffer differs. -/
structure OutputsBelow (N : Format F S D) (nSym nPass nOmega nMu : Nat) (b b' : BuffersOf S) : Prop where
  sym : WritesBelow N nSym b.trlSym b'.trlSym
  pass : WritesBelow N nPass b.trlPass b'.trlPass
  omega : WritesBelow N nOmega b.trlOmega b'.trlOmega
  mu : WritesBelow N nMu b.trlMu b'.trlMu
  trlIn : b'.trlIn = b.trlIn
  accIn : b'.accIn = b.accIn
  accOut : b'.accOut = b.accOut

/-- Nothing is written. -/
theorem OutputsBelow.refl (nSym nPass nOmega nMu : Nat) (b : BuffersOf S) :
    OutputsBelow N nSym nPass nOmega nMu b b :=
  ⟨.refl, .refl, .refl, .refl, rfl, rfl, rfl⟩

/-- The canonical form is kept. -/
theorem OutputsBelow.wf {nSym nPass nOmega nMu : Nat} {b b' : Buffers}
    (h : OutputsBelow binary32Format nSym nPass nOmega nMu b b') (hb : b.wf = true) :
    b'.wf = true := by
  simp only [BuffersOf.wf, Bool.and_eq_true] at hb ⊢
  obtain ⟨⟨⟨⟨⟨⟨hin, hsym⟩, hpass⟩, homega⟩, hmu⟩, haccIn⟩, haccOut⟩ := hb
  rw [h.trlIn, h.accIn, h.accOut]
  exact ⟨⟨⟨⟨⟨⟨hin, h.sym.wf hsym⟩, h.pass.wf hpass⟩, h.omega.wf homega⟩, h.mu.wf hmu⟩, haccIn⟩,
    haccOut⟩

/-! ### `TRL.PROCESS` -/

variable {P : Params F} {s t : State.Of F S D}

/-- A loop without fuel ends where it stands. -/
theorem processLoop_zero_ok {limit : Nat} {k k' : TrlCall} {c : Code}
    (h : processLoop N P limit 0 k s = .ok (k', t, c)) : k = k' ∧ s = t ∧ Code.ok = c := by
  simpa [processLoop] using h

/-- All a loop of `TRL.PROCESS` that answers can begin with (41_timing_recovery.md R130): the guard stops
it, the symbol step faults, or the step commits and the loop goes on. -/
theorem processLoop_succ_cases {limit fuel : Nat} {k k' : TrlCall} {c : Code}
    (hl : limit ≤ s.trl.inCount.toNat) (h : processLoop N P limit (fuel + 1) k s = .ok (k', t, c)) :
    (s.trl.guard P.ntaps limit k = false ∧ k = k' ∧ s = t ∧ Code.ok = c)
    ∨ (s.trl.guard P.ntaps limit k = true
      ∧ s.trl.symbolStep N.num P (s.windowOf N k.cursor P.ntaps) = none
      ∧ k = k' ∧ s.setTrl { s.trl with mode := .faulted } = t ∧ Code.numericFault = c)
    ∨ ∃ v k₁ s₁, s.trl.guard P.ntaps limit k = true
      ∧ s.trl.symbolStep N.num P (s.windowOf N k.cursor P.ntaps) = some v
      ∧ commitStep N k v s = .ok (k₁, s₁) ∧ s₁.trl.inCount = s.trl.inCount
      ∧ processLoop N P limit fuel k₁ s₁ = .ok (k', t, c) := by
  cases hg : s.trl.guard P.ntaps limit k with
  | false => exact .inl ⟨rfl, by simpa [processLoop_stop hg] using h⟩
  | true =>
    have hpass := processPass_guard (N := N) hg hl
    cases hv : s.trl.symbolStep N.num P (s.windowOf N k.cursor P.ntaps) with
    | none =>
      exact .inr (.inl ⟨rfl, rfl,
        by simpa [processLoop_halt (hpass.trans (stepPass_none hv))] using h⟩)
    | some v =>
      have hcommit := commitStep_eq (N := N) (v := v) hg hl
      rw [processLoop_go (hpass.trans (stepPass_some hv hcommit))] at h
      exact .inr (.inr ⟨v, _, _, rfl, rfl, hcommit, rfl, h⟩)

/-- A property of the call context and the state that every committed symbol step and a numeric fault
keep holds at the end of the loop of `TRL.PROCESS` (41_timing_recovery.md R130). -/
theorem processLoop_keeps {I : TrlCall → State.Of F S D → Prop} {limit fuel : Nat} {k k' : TrlCall}
    {c : Code}
    (fault : ∀ k s, I k s → I k (s.setTrl { s.trl with mode := .faulted }))
    (commit : ∀ k s v k' s', s.trl.guard P.ntaps limit k = true → limit ≤ s.trl.inCount.toNat →
      commitStep N k v s = .ok (k', s') → I k s → I k' s')
    (hl : limit ≤ s.trl.inCount.toNat) (h : processLoop N P limit fuel k s = .ok (k', t, c))
    (hI : I k s) : I k' t := by
  induction fuel generalizing k s with
  | zero =>
    obtain ⟨rfl, rfl, -⟩ := processLoop_zero_ok h
    exact hI
  | succ fuel ih =>
    rcases processLoop_succ_cases hl h with ⟨-, rfl, rfl, -⟩ | ⟨-, -, rfl, rfl, -⟩
      | ⟨v, k₁, s₁, hg, -, hcommit, hin, hrest⟩
    · exact hI
    · exact fault _ _ hI
    · exact ih (hin ▸ hl) hrest (commit _ _ v _ _ hg hl hcommit hI)

/-- A count that is no more than a word's is the number of its own word. -/
theorem toNat_word_of_le {n : Nat} {w : Word} (h : n ≤ w.toNat) : (BitVec.ofNat 32 n).toNat = n := by
  rw [BitVec.toNat_ofNat, Nat.mod_eq_of_lt (h.trans_lt w.isLt)]

/-- The counts of a call are within the capacities (41_timing_recovery.md R131). -/
structure TrlCall.Fits (k : TrlCall) (t : Trl F) : Prop where
  sym : k.kSym ≤ t.capSym.toNat
  pass : k.kPass ≤ t.capPass.toNat
  omega : k.kOmega ≤ t.capOmega.toNat
  mu : k.kMu ≤ t.capMu.toNat

/-- A step that the guard admits keeps the counts within the capacities. -/
theorem TrlCall.Fits.next {ntaps limit : Nat} {k : TrlCall} {t : Trl F} (v : SymbolValues F)
    (h : k.Fits t) (hg : t.guard ntaps limit k = true) : (k.next t v).Fits t := by
  obtain ⟨hsym, hpass, homega, hmu⟩ := h
  obtain ⟨gsym, -, gpass, gomega, gmu⟩ := Trl.guard_iff.1 hg
  refine ⟨gsym, ?_, ?_, ?_⟩ <;> simp only [TrlCall.next] <;> split
  · exact (gpass ‹_›).1
  · exact hpass
  · exact gomega ‹_›
  · exact homega
  · exact gmu ‹_›
  · exact hmu

/-- From the buffers `b` on, the loop has written elements below the counts of its call context, which
are within the capacities. -/
def LoopWrites (N : Format F S D) (b : BuffersOf S) (k : TrlCall) (s : State.Of F S D) : Prop :=
  k.Fits s.trl ∧ OutputsBelow N k.kSym k.kPass k.kOmega k.kMu b s.bufs

/-- A committed symbol step writes each enabled output at its count, and counts it. -/
theorem commitStep_writes {b : BuffersOf S} {ntaps limit : Nat} {k k' : TrlCall} {v : SymbolValues F}
    (hg : s.trl.guard ntaps limit k = true) (hl : limit ≤ s.trl.inCount.toNat)
    (h : commitStep N k v s = .ok (k', t)) (hw : LoopWrites N b k s) : LoopWrites N b k' t := by
  rw [commitStep_eq hg hl] at h
  obtain ⟨rfl, rfl⟩ := Prod.mk.inj (Except.ok.inj h)
  obtain ⟨hfits, hout⟩ := hw
  have hfits' := hfits.next v hg
  refine ⟨⟨hfits'.sym, hfits'.pass, hfits'.omega, hfits'.mu⟩, ?_, ?_, ?_, ?_, hout.trlIn, hout.accIn,
    hout.accOut⟩
  · exact (hout.sym.mono (Nat.le_succ _)).write (Nat.lt_succ_self _) _
  · exact .ite _ hout.pass ((hout.pass.mono (Nat.le_add_right _ _)).copied le_rfl)
  · exact .ite _ hout.omega ((hout.omega.mono (Nat.le_succ _)).write (Nat.lt_succ_self _) _)
  · exact .ite _ hout.mu ((hout.mu.mono (Nat.le_succ _)).write (Nat.lt_succ_self _) _)

/-- The loop of a `TRL.PROCESS` writes elements below the counts it ends with. -/
theorem processLoop_writes {limit fuel : Nat} {k : TrlCall} {c : Code}
    (hl : limit ≤ s.trl.inCount.toNat)
    (h : processLoop N P limit fuel s.trl.callStart s = .ok (k, t, c)) : LoopWrites N s.bufs k t :=
  processLoop_keeps (I := LoopWrites N s.bufs)
    (fun _ _ ⟨⟨hsym, hpass, homega, hmu⟩, hout⟩ => ⟨⟨hsym, hpass, homega, hmu⟩, hout⟩)
    (fun _ _ _ _ _ hg hl' hc => commitStep_writes hg hl' hc) hl h
    ⟨⟨Nat.zero_le _, Nat.zero_le _, Nat.zero_le _, Nat.zero_le _⟩, .refl _ _ _ _ _⟩

/-- The end of `TRL.PROCESS` reports the counts of the call and writes no buffer
(41_timing_recovery.md R133). -/
theorem finishProcess_reports (limit : Nat) {k : TrlCall} (c : Code) (h : k.Fits s.trl) :
    (finishProcess N limit k c s).bufs = s.bufs
    ∧ (finishProcess N limit k c s).trl.prodSym.toNat = k.kSym
    ∧ (finishProcess N limit k c s).trl.prodPass.toNat = k.kPass
    ∧ (finishProcess N limit k c s).trl.prodOmega.toNat = k.kOmega
    ∧ (finishProcess N limit k c s).trl.prodMu.toNat = k.kMu := by
  unfold finishProcess
  split <;> exact ⟨rfl, toNat_word_of_le h.sym, toNat_word_of_le h.pass, toNat_word_of_le h.omega,
    toNat_word_of_le h.mu⟩

/-- `TRL.PROCESS` writes elements of its output buffers below the produced counts it reports, and nothing
else of any buffer (20_memory.md R77). -/
theorem trlProcess_writes (h : trlProcess N P s = .next t) :
    OutputsBelow N t.trl.prodSym.toNat t.trl.prodPass.toNat t.trl.prodOmega.toNat t.trl.prodMu.toNat
      s.bufs t.bufs := by
  by_cases hm : s.trl.mode = .ready
  · have hl := s.trl.inputLimit_le N.num P.ntaps
    obtain ⟨⟨k, s', c⟩, hloop⟩ := processLoop_ok (N := N) (P := P) (fuel := s.trl.capSym.toNat)
      s.trl.callStart hl
    obtain rfl := Host.Outcome.next.inj ((trlProcess_ready hm hloop).symm.trans h)
    obtain ⟨hfits, hout⟩ := processLoop_writes hl hloop
    obtain ⟨hbufs, hsym, hpass, homega, hmu⟩ :=
      finishProcess_reports (N := N) (s.trl.inputLimit N.num P.ntaps) c hfits
    rwa [hbufs, hsym, hpass, homega, hmu]
  · obtain rfl := Host.Outcome.next.inj ((trlProcess_notReady hm).symm.trans h)
    exact .refl _ _ _ _ _

/-! ### `ACC.PROCESS` and the other commands -/

/-- `ACC.PROCESS` writes units of `ACC_OUT` below the produced count it reports, and nothing else of any
buffer (20_memory.md R77). -/
theorem accProcess_writes (h : accProcess N s = .next t) :
    ∃ m : Memory, t.bufs = { s.bufs with accOut := m }
      ∧ (Memory.wf s.bufs.accOut = true → Memory.wf m = true)
      ∧ ∀ a, t.acc.produced.toNat ≤ a → Memory.read m a = Memory.read s.bufs.accOut a := by
  unfold accProcess at h
  split at h
  · obtain ⟨m, hm, hwf, hread, -⟩ := accLoop_inside (n := s.acc.callCount) (i := 0) (s := s)
      (by simp [Acc.callCount]) (by simp [Acc.callCount])
    rw [hm] at h
    obtain rfl := Host.Outcome.next.inj h
    have hcount : (BitVec.ofNat 32 s.acc.callCount).toNat = s.acc.callCount :=
      toNat_word_of_le (Nat.min_le_left ..)
    refine ⟨m, rfl, hwf, fun a ha => hread a (.inr ?_)⟩
    rw [Nat.zero_add, ← hcount]
    exact ha
  · obtain rfl := Host.Outcome.next.inj h
    exact ⟨s.bufs.accOut, rfl, id, fun _ _ => rfl⟩

/-- No command but the two `PROCESS` commands writes a buffer. -/
theorem execOf_bufs {i : Instr} {d : D} (htrl : i ≠ .trlProcess) (hacc : i ≠ .accProcess)
    (h : execOf N P i d s = .next t) : t.bufs = s.bufs := by
  cases i with
  | trlProcess => exact absurd rfl htrl
  | accProcess => exact absurd rfl hacc
  | trlReset | accReset | accSetThreshold _ | accSetDetectInv _ =>
    obtain rfl := Host.Outcome.next.inj h
    rfl
  | trlConfig =>
    obtain rfl := Host.Outcome.next.inj h
    rcases trlConfig_cases N s with ⟨-, heq⟩ | ⟨-, heq⟩ <;> rw [heq] <;> rfl
  | trlForecast n =>
    obtain rfl := Host.Outcome.next.inj h
    rcases trlForecast_cases N P s n with ⟨-, heq⟩ | ⟨-, heq⟩ <;> rw [heq] <;> rfl
  | trlCsrr csr =>
    obtain rfl := Host.Outcome.next.inj h
    rcases trlCsrr_cases N P s csr with ⟨_, -, heq⟩ | ⟨-, heq⟩ <;> rw [heq] <;> rfl
  | trlCsrw csr _ =>
    obtain rfl := Host.Outcome.next.inj h
    rcases trlCsrw_cases N s csr d with ⟨_, -, -, heq⟩ | ⟨-, heq⟩ <;> rw [heq] <;> rfl
  | accConfig | accSetCode =>
    obtain rfl := Host.Outcome.next.inj h
    rcases accLoad_cases N s _ with ⟨-, heq⟩ | ⟨-, heq⟩ <;> rw [heq] <;> rfl
  | accCsrr csr =>
    obtain rfl := Host.Outcome.next.inj h
    rcases accCsrr_cases N s csr with ⟨_, -, heq⟩ | ⟨-, heq⟩ <;> rw [heq] <;> rfl
  | accCsrw csr v =>
    obtain rfl := Host.Outcome.next.inj h
    rcases accCsrw_cases N s csr v with ⟨_, -, -, heq⟩ | ⟨-, heq⟩ <;> rw [heq] <;> rfl

end writes

end Sys2Proof.Machine

namespace Sys2Proof.Proofs
open Sys2Proof.Machine

/-- Settles O32: both `PROCESS` commands write below the counts they report. -/
theorem unproducedElementsKeepTheirContents : Obligations.UnproducedElementsKeepTheirContents := by
  refine ⟨fun s t h => ?_, fun s t h => ?_⟩
  · have hout := trlProcess_writes h
    exact ⟨fun _ => hout.sym.read_above, fun _ => hout.pass.read_above,
      fun _ => hout.omega.read_above, fun _ => hout.mu.read_above,
      hout.trlIn, hout.accIn, hout.accOut⟩
  · obtain ⟨m, hbufs, -, hread⟩ := accProcess_writes h
    rw [hbufs]
    exact ⟨hread, rfl, rfl, rfl, rfl, rfl, rfl⟩

end Sys2Proof.Proofs
end

section
/-!
SUPPORT. The host's write of a buffer element, and the canonical form of the buffers through a step.
-/

namespace Sys2Proof.Machine

/-- The buffers after a host write of a canonical element are canonical. -/
theorem wf_hostFill {s : State} (b : BufferId) (i : Nat) (v : DWord) (h : s.bufs.wf = true) :
    (hostFill binary32Format b i v s).bufs.wf = true := by
  cases b with
  | trl b => exact BuffersOf.wf_setTrlBuf h (Memory.wf_writeF _ _ (BuffersOf.wf_get h (.trl b)))
  | acc b => exact BuffersOf.wf_setAccBuf h (Memory.wf_write _ _ (BuffersOf.wf_get h (.acc b)))

/-- A host write changes no byte outside the element's. -/
theorem read_hostFill_outside (s : State) {b : BufferId} {i a : Nat} (v : DWord)
    (h : a < b.elemBytes * i ∨ b.elemBytes * i + b.elemBytes ≤ a) :
    Memory.read ((hostFill binary32Format b i v s).bufs.get b) a = Memory.read (s.bufs.get b) a := by
  cases b with
  | trl b =>
    simp only [hostFill, BuffersOf.get, State.Of.setBufs_bufs, BuffersOf.trlBuf_setTrlBuf_same]
    exact Memory.read_writeF_other _ h
  | acc b =>
    simp only [hostFill, BuffersOf.get, State.Of.setBufs_bufs, BuffersOf.accBuf_setAccBuf_same]
    simp only [BufferId.elemBytes] at h
    exact Memory.read_write_other _ (by omega)

/-- A host write changes no other buffer. -/
theorem get_hostFill_other (s : State) {b c : BufferId} (i : Nat) (v : DWord) (h : c ≠ b) :
    (hostFill binary32Format b i v s).bufs.get c = s.bufs.get c := by
  cases b with
  | trl b =>
    cases c with
    | trl c => exact BuffersOf.trlBuf_setTrlBuf_other _ _ fun hc => h (congrArg _ hc)
    | acc c => exact BuffersOf.accBuf_setTrlBuf ..
  | acc b =>
    cases c with
    | trl c => exact BuffersOf.trlBuf_setAccBuf ..
    | acc c => exact BuffersOf.accBuf_setAccBuf_other _ _ fun hc => h (congrArg _ hc)

/-- An element of a buffer of unit TRL reads back as the host wrote it. -/
theorem readF_hostFill {s : State} (b : TrlBuffer) (i : Nat) (v : DWord) (h : s.bufs.wf = true) :
    Memory.readF ((hostFill binary32Format (.trl b) i v s).bufs.get (.trl b)) i = v.setWidth 32 := by
  simp only [hostFill, BuffersOf.get, State.Of.setBufs_bufs, BuffersOf.trlBuf_setTrlBuf_same]
  exact (Memory.readF_writeF_same i _ (BuffersOf.wf_get h (.trl b))).trans (low_word_eq_truncate v)

/-- A unit of a buffer of unit ACC reads back as the host wrote it. -/
theorem read_hostFill {s : State} (b : AccBuffer) (i : Nat) (v : DWord) (h : s.bufs.wf = true) :
    Memory.read ((hostFill binary32Format (.acc b) i v s).bufs.get (.acc b)) i = v.setWidth 8 := by
  simp only [hostFill, BuffersOf.get, State.Of.setBufs_bufs, BuffersOf.accBuf_setAccBuf_same]
  exact (Memory.read_write_same i _ (BuffersOf.wf_get h (.acc b))).trans
    (BitVec.setWidth_eq_extractLsb' (by decide)).symm

/-- Every instruction keeps the buffers canonical: `PROCESS` writes elements, the others write none. -/
theorem execOf_keeps_wf {P : Params F32} {i : Instr} {d : DWord} {s t : State}
    (h : execOf binary32Format P i d s = .next t) (hs : s.bufs.wf = true) : t.bufs.wf = true := by
  by_cases htrl : i = .trlProcess
  · subst htrl
    exact (trlProcess_writes h).wf hs
  · by_cases hacc : i = .accProcess
    · subst hacc
      obtain ⟨m, hbufs, hwf, -⟩ := accProcess_writes h
      exact hbufs ▸ BuffersOf.wf_setAccBuf (b := .accOut) hs (hwf (BuffersOf.wf_get hs (.acc .accOut)))
    · rwa [execOf_bufs htrl hacc h]

/-- A command at the port keeps the buffers canonical. -/
theorem runCommandOf_keeps_wf {P : Params F32} {c : Command} {s t : State}
    (h : runCommandOf binary32Format (execOf binary32Format P) c s = .next t)
    (hs : s.bufs.wf = true) : t.bufs.wf = true := by
  unfold runCommandOf at h
  split at h
  · exact execOf_keeps_wf h hs
  · rename_i u _
    obtain rfl := Host.Outcome.next.inj h
    cases u <;> exact hs
  · obtain rfl := Host.Outcome.next.inj h
    exact hs

end Sys2Proof.Machine

namespace Sys2Proof.Proofs
open Sys2Proof.Machine

/-- Settles O9: the listed write is the step, and it is one element write of the named buffer. -/
theorem hostFillWritesOneElement : Obligations.HostFillWritesOneElement := by
  intro s b i v rest hin hwf
  have hstep : step s = .next (hostFill binary32Format b i v { s with inputs := rest }) := by
    simp only [step, stepOf, takeInput, hin, runInputOf]
  refine ⟨_, hstep, ?_⟩
  cases b with
  | trl b =>
    exact ⟨rfl, rfl, rfl, rfl, fun _ => readF_hostFill b i v hwf,
      fun h => absurd h (show 4 ≠ 1 by decide), fun _ => read_hostFill_outside _ v,
      fun _ => get_hostFill_other _ i v⟩
  | acc b =>
    exact ⟨rfl, rfl, rfl, rfl, fun h => absurd h (show 1 ≠ 4 by decide),
      fun _ => read_hostFill b i v hwf, fun _ => read_hostFill_outside _ v,
      fun _ => get_hostFill_other _ i v⟩

/-- Settles O59, by what the step does: nothing, a command, a host write or a power-on reset. -/
theorem stepKeepsBuffersCanonical : Obligations.StepKeepsBuffersCanonical := by
  intro s t hs h
  rw [step_is_binary32_machine] at h
  change stepOf binary32Format (execOf binary32Format Config.params) s = .next t at h
  unfold stepOf takeInput at h
  cases hin : s.inputs with
  | nil =>
    simp only [hin] at h
    exact Host.Outcome.next.inj h ▸ hs
  | cons input rest =>
    simp only [hin] at h
    cases input with
    | issue c => exact runCommandOf_keeps_wf (s := { s with inputs := rest }) h hs
    | fill b i v => exact Host.Outcome.next.inj h ▸ wf_hostFill b i v hs
    | powerOn => exact Host.Outcome.next.inj h ▸ hs

end Sys2Proof.Proofs
end

section
/-!
SUPPORT. A command reads and writes its own unit's fields and buffers only (20_memory.md rules R79 and
R82): it does the same whatever the rest of the machine holds, and leaves that rest as it is.
-/

namespace Sys2Proof.Machine

section locality
variable {F S D : Type} {N : Format F S D} {P : Params F} {s t : State.Of F S D}

/-- The machine `r` with the fields and buffers of unit `u` taken from `s`, and with the answer `a`. -/
def State.Of.withUnit (r : State.Of F S D) (u : UnitId) (s : State.Of F S D)
    (a : Option (ResponseOf D)) : State.Of F S D :=
  match u with
  | .trl =>
    { r with trl := s.trl, response := a,
             bufs := { s.bufs with accIn := r.bufs.accIn, accOut := r.bufs.accOut } }
  | .acc =>
    { r with acc := s.acc, response := a,
             bufs := { r.bufs with accIn := s.bufs.accIn, accOut := s.bufs.accOut } }

/-- A machine's own unit in its own place. -/
theorem State.Of.withUnit_self (s : State.Of F S D) (u : UnitId) : s.withUnit u s s.response = s := by
  cases u <;> rfl

/-- Putting in one unit leaves the other. -/
theorem State.Of.withUnit_other (s t : State.Of F S D) (a : Option (ResponseOf D)) {u v : UnitId}
    (h : u ≠ v) : (s.withUnit u t a).withUnit v s a = s.withUnit u t a := by
  cases u <;> cases v
  case trl.acc | acc.trl => rfl
  all_goals exact absurd rfl h

/-- `OK` answers and writes `LAST_CODE` of its unit, whatever the rest of the machine. -/
theorem complete_withUnit (u : UnitId) (x : D) (r s : State.Of F S D) (a : Option (ResponseOf D)) :
    complete u x (r.withUnit u s a) = r.withUnit u (complete u x s) (complete u x s).response := by
  cases u <;> rfl

/-- `raise` answers and writes the diagnostics of its unit, whatever the rest of the machine. -/
theorem raise_withUnit (u : UnitId) (c : Code) (r s : State.Of F S D) (a : Option (ResponseOf D)) :
    raise N u c (r.withUnit u s a) = r.withUnit u (raise N u c s) (raise N u c s).response := by
  cases u <;> rfl

/-- A command that only updates unit ACC does the same whatever the rest of the machine. -/
theorem accUpdate_withUnit (b : Acc) (r s : State.Of F S D) (a : Option (ResponseOf D)) :
    accUpdate N b (r.withUnit .acc s a)
      = r.withUnit .acc (accUpdate N b s) (accUpdate N b s).response :=
  complete_withUnit .acc _ r (s.setAcc b) a

/-- A committed symbol step writes unit TRL and its buffers, whatever the rest of the machine. -/
theorem commitStep_withUnit {ntaps limit : Nat} {k k' : TrlCall} {v : SymbolValues F}
    (hg : s.trl.guard ntaps limit k = true) (hl : limit ≤ s.trl.inCount.toNat)
    (h : commitStep N k v s = .ok (k', t)) (r : State.Of F S D) (a : Option (ResponseOf D)) :
    commitStep N k v (r.withUnit .trl s a) = .ok (k', r.withUnit .trl t a) := by
  rw [commitStep_eq hg hl] at h
  obtain ⟨rfl, rfl⟩ := Prod.mk.inj (Except.ok.inj h)
  exact commitStep_eq (s := r.withUnit .trl s a) hg hl

/-- The loop of `TRL.PROCESS` runs on unit TRL and its buffers, whatever the rest of the machine. -/
theorem processLoop_withUnit {limit fuel : Nat} {k k' : TrlCall} {c : Code}
    (hl : limit ≤ s.trl.inCount.toNat) (h : processLoop N P limit fuel k s = .ok (k', t, c))
    (r : State.Of F S D) (a : Option (ResponseOf D)) :
    processLoop N P limit fuel k (r.withUnit .trl s a) = .ok (k', r.withUnit .trl t a, c) := by
  induction fuel generalizing k s with
  | zero =>
    obtain ⟨rfl, rfl, rfl⟩ := processLoop_zero_ok h
    rfl
  | succ fuel ih =>
    have hpass (hg : s.trl.guard P.ntaps limit k = true) :=
      processPass_guard (N := N) (s := r.withUnit .trl s a) hg hl
    rcases processLoop_succ_cases hl h with ⟨hg, rfl, rfl, rfl⟩ | ⟨hg, hv, rfl, rfl, rfl⟩
      | ⟨v, k₁, s₁, hg, hv, hcommit, hin, hrest⟩
    · exact processLoop_stop hg
    · exact processLoop_halt ((hpass hg).trans (stepPass_none hv))
    · rw [processLoop_go ((hpass hg).trans (stepPass_some hv (commitStep_withUnit hg hl hcommit r a)))]
      exact ih (hin ▸ hl) hrest

/-- `TRL.PROCESS` does the same whatever the rest of the machine. -/
theorem trlProcess_withUnit (h : trlProcess N P s = .next t) (r : State.Of F S D)
    (a : Option (ResponseOf D)) :
    trlProcess N P (r.withUnit .trl s a) = .next (r.withUnit .trl t t.response) := by
  by_cases hm : s.trl.mode = .ready
  · have hl := s.trl.inputLimit_le N.num P.ntaps
    obtain ⟨⟨k, s', c⟩, hloop⟩ := processLoop_ok (N := N) (P := P) (fuel := s.trl.capSym.toNat)
      s.trl.callStart hl
    obtain rfl := Host.Outcome.next.inj ((trlProcess_ready hm hloop).symm.trans h)
    refine (trlProcess_ready (s := r.withUnit .trl s a) hm
      (processLoop_withUnit hl hloop r a)).trans (congrArg _ ?_)
    unfold finishProcess
    split
    · exact complete_withUnit .trl _ r (s'.setTrl _) a
    · exact raise_withUnit .trl _ r (s'.setTrl _) a
  · obtain rfl := Host.Outcome.next.inj ((trlProcess_notReady hm).symm.trans h)
    exact (trlProcess_notReady (s := r.withUnit .trl s a) hm).trans
      (congrArg _ (raise_withUnit .trl _ r s a))

/-- One bit step of the loop of `ACC.PROCESS`, inside both buffers (42_access_code_correlator.md R186). -/
theorem accLoop_succ {n i : Nat} (hi : i < s.acc.inCount.toNat) (ho : i < s.acc.capOut.toNat) :
    accLoop (n + 1) i s = accLoop n (i + 1) { s with
      acc := s.acc.bitStep ((Memory.read s.bufs.accIn i).getLsbD 0),
      bufs := { s.bufs with accOut := Memory.write s.bufs.accOut i s.acc.output } } := by
  have hin : i < s.bufLen (.acc .accIn) := hi
  have hout (b : Bool) : i < (s.setAcc (s.acc.bitStep b)).bufLen (.acc .accOut) := by
    simpa only [State.Of.bufLen, State.Of.setAcc_acc, Acc.bitStep_capOut] using ho
  rw [accLoop, memReadUnit_inside hin]
  simp only
  rw [memWriteUnit_inside _ (hout _)]
  rfl

/-- The loop of `ACC.PROCESS` runs on unit ACC and its buffers, whatever the rest of the machine. -/
theorem accLoop_withUnit {n i : Nat} (hi : i + n ≤ s.acc.inCount.toNat)
    (ho : i + n ≤ s.acc.capOut.toNat) (h : accLoop n i s = .ok t) (r : State.Of F S D)
    (a : Option (ResponseOf D)) : accLoop n i (r.withUnit .acc s a) = .ok (r.withUnit .acc t a) := by
  induction n generalizing i s with
  | zero =>
    obtain rfl := Except.ok.inj h
    rfl
  | succ n ih =>
    have hi' : i < s.acc.inCount.toNat := by omega
    have ho' : i < s.acc.capOut.toNat := by omega
    rw [accLoop_succ hi' ho'] at h
    rw [accLoop_succ (s := r.withUnit .acc s a) hi' ho']
    exact ih (by rw [Acc.bitStep_inCount]; omega) (by rw [Acc.bitStep_capOut]; omega) h

/-- `ACC.PROCESS` does the same whatever the rest of the machine. -/
theorem accProcess_withUnit (h : accProcess N s = .next t) (r : State.Of F S D)
    (a : Option (ResponseOf D)) :
    accProcess N (r.withUnit .acc s a) = .next (r.withUnit .acc t t.response) := by
  have hcall : (r.withUnit .acc s a).acc = s.acc := rfl
  unfold accProcess at h ⊢
  rw [hcall]
  split at h
  · rename_i hm
    have hi : 0 + s.acc.callCount ≤ s.acc.inCount.toNat := by simp [Acc.callCount]
    have ho : 0 + s.acc.callCount ≤ s.acc.capOut.toNat := by simp [Acc.callCount]
    obtain ⟨m, hloop, -⟩ := accLoop_inside hi ho
    rw [hloop] at h
    obtain rfl := Host.Outcome.next.inj h
    rw [if_pos hm, accLoop_withUnit hi ho hloop r a]
    exact congrArg _ (accUpdate_withUnit _ r _ a)
  · rename_i hm
    obtain rfl := Host.Outcome.next.inj h
    rw [if_neg hm]
    exact congrArg _ (raise_withUnit .acc _ r s a)

section commands
variable (N P s) (r : State.Of F S D) (a : Option (ResponseOf D))

/-- `TRL.CONFIG` does the same whatever the rest of the machine. -/
theorem trlConfig_withUnit : trlConfig N (r.withUnit .trl s a)
    = r.withUnit .trl (trlConfig N s) (trlConfig N s).response := by
  have hunit : (r.withUnit .trl s a).trl = s.trl := rfl
  unfold trlConfig
  rw [hunit]
  split
  · exact complete_withUnit .trl _ r (s.setTrl _) a
  · exact raise_withUnit .trl _ r s a

/-- `TRL.FORECAST` does the same whatever the rest of the machine. -/
theorem trlForecast_withUnit (n : Word) : trlForecast N P n (r.withUnit .trl s a)
    = r.withUnit .trl (trlForecast N P n s) (trlForecast N P n s).response := by
  have hunit : (r.withUnit .trl s a).trl = s.trl := rfl
  unfold trlForecast
  rw [hunit]
  split
  · exact complete_withUnit .trl _ r s a
  · exact raise_withUnit .trl _ r s a

/-- `TRL.CSRR` does the same whatever the rest of the machine. -/
theorem trlCsrr_withUnit (csr : BitVec 12) : trlCsrr N P csr (r.withUnit .trl s a)
    = r.withUnit .trl (trlCsrr N P csr s) (trlCsrr N P csr s).response := by
  unfold trlCsrr
  split
  · exact raise_withUnit .trl _ r s a
  · exact complete_withUnit .trl _ r s a

/-- `TRL.CSRW` does the same whatever the rest of the machine. -/
theorem trlCsrw_withUnit (csr : BitVec 12) (d : D) : trlCsrw N csr d (r.withUnit .trl s a)
    = r.withUnit .trl (trlCsrw N csr d s) (trlCsrw N csr d s).response := by
  unfold trlCsrw
  split
  · exact raise_withUnit .trl _ r s a
  · split
    · exact raise_withUnit .trl _ r s a
    · exact complete_withUnit .trl _ r (s.setTrl _) a

/-- `ACC.CONFIG` and `ACC.SET_CODE` do the same whatever the rest of the machine. -/
theorem accLoad_withUnit (b : Acc) : accLoad N b (r.withUnit .acc s a)
    = r.withUnit .acc (accLoad N b s) (accLoad N b s).response := by
  have hunit : (r.withUnit .acc s a).acc = s.acc := rfl
  unfold accLoad
  rw [hunit]
  split
  · exact raise_withUnit .acc _ r s a
  · exact accUpdate_withUnit b r s a

/-- `ACC.CSRR` does the same whatever the rest of the machine. -/
theorem accCsrr_withUnit (csr : BitVec 12) : accCsrr N csr (r.withUnit .acc s a)
    = r.withUnit .acc (accCsrr N csr s) (accCsrr N csr s).response := by
  unfold accCsrr
  split
  · exact raise_withUnit .acc _ r s a
  · exact complete_withUnit .acc _ r s a

/-- `ACC.CSRW` does the same whatever the rest of the machine. -/
theorem accCsrw_withUnit (csr : BitVec 12) (d : DWord) : accCsrw N csr d (r.withUnit .acc s a)
    = r.withUnit .acc (accCsrw N csr d s) (accCsrw N csr d s).response := by
  unfold accCsrw
  split
  · exact raise_withUnit .acc _ r s a
  · split
    · exact raise_withUnit .acc _ r s a
    · exact complete_withUnit .acc _ r (s.setAcc _) a

end commands

/-- An instruction does to its unit, the unit's buffers and the response what they alone determine, and
leaves the rest of the machine `r` as it is (20_memory.md R79, R82). -/
theorem execOf_withUnit {i : Instr} {d : D} (h : execOf N P i d s = .next t) (r : State.Of F S D)
    (a : Option (ResponseOf D)) :
    execOf N P i d (r.withUnit i.unit s a) = .next (r.withUnit i.unit t t.response) := by
  cases i with
  | trlProcess => exact trlProcess_withUnit h r a
  | accProcess => exact accProcess_withUnit h r a
  | trlReset =>
    obtain rfl := Host.Outcome.next.inj h
    exact congrArg _ (complete_withUnit .trl _ r (s.setTrl _) a)
  | trlConfig =>
    obtain rfl := Host.Outcome.next.inj h
    exact congrArg _ (trlConfig_withUnit N s r a)
  | trlForecast n =>
    obtain rfl := Host.Outcome.next.inj h
    exact congrArg _ (trlForecast_withUnit N P s r a n)
  | trlCsrr csr =>
    obtain rfl := Host.Outcome.next.inj h
    exact congrArg _ (trlCsrr_withUnit N P s r a csr)
  | trlCsrw csr _ =>
    obtain rfl := Host.Outcome.next.inj h
    exact congrArg _ (trlCsrw_withUnit N s r a csr d)
  | accConfig | accSetCode =>
    obtain rfl := Host.Outcome.next.inj h
    exact congrArg _ (accLoad_withUnit N s r a _)
  | accReset | accSetThreshold _ | accSetDetectInv _ =>
    obtain rfl := Host.Outcome.next.inj h
    exact congrArg _ (accUpdate_withUnit _ r s a)
  | accCsrr csr =>
    obtain rfl := Host.Outcome.next.inj h
    exact congrArg _ (accCsrr_withUnit N s r a csr)
  | accCsrw csr v =>
    obtain rfl := Host.Outcome.next.inj h
    exact congrArg _ (accCsrw_withUnit N s r a csr v)

/-- An instruction leaves the other unit, its buffers and the host's coming actions. -/
theorem execOf_frame {i : Instr} {d : D} (h : execOf N P i d s = .next t) :
    t = s.withUnit i.unit t t.response := by
  have hself := execOf_withUnit h s s.response
  rw [State.Of.withUnit_self] at hself
  exact Host.Outcome.next.inj (h.symm.trans hself)

/-- After an instruction of another unit, an instruction does what it does alone, beside what the other
one left. -/
theorem execOf_after_other {i j : Instr} {d e : D} {s₁ s₂ : State.Of F S D} (hij : i.unit ≠ j.unit)
    (hi : execOf N P i d s = .next s₁) (hj : execOf N P j e s = .next s₂) :
    execOf N P j e s₁ = .next (s₁.withUnit j.unit s₂ s₂.response) := by
  have hplace := State.Of.withUnit_other s s₁ s₁.response hij
  rw [← execOf_frame hi] at hplace
  have h := execOf_withUnit hj s₁ s₁.response
  rwa [hplace] at h

end locality

/-- An instruction of this machine is that of the machine of any format, taken at `NUM = Binary32`, with
the data word of a `TRL.CSRW`. -/
theorem exec_is_execOf (i : Instr) :
    ∃ d, ∀ s, exec i s = execOf binary32Format Config.params i d s := by
  cases i with
  | trlCsrw csr d => exact ⟨d, fun _ => rfl⟩
  | _ => exact ⟨0, fun _ => rfl⟩

end Sys2Proof.Machine

namespace Sys2Proof.Proofs
open Sys2Proof.Machine

/-- Settles O53: after a command of the other unit a command does to its own unit, its buffers and the
response what it does alone. -/
theorem commandsOfDifferentUnitsCommute : Obligations.CommandsOfDifferentUnitsCommute := by
  intro i j s hij
  obtain ⟨d, hexec⟩ := exec_is_execOf i
  obtain ⟨e, hexec'⟩ := exec_is_execOf j
  obtain ⟨s₁, h₁⟩ := execOf_next (N := binary32Format) (P := Config.params) i d s
  obtain ⟨s₂, h₂⟩ := execOf_next (N := binary32Format) (P := Config.params) j e s
  refine ⟨s₁, _, s₂, _, (hexec s).trans h₁, (hexec' s₁).trans (execOf_after_other hij h₁ h₂),
    (hexec' s).trans h₂, (hexec s₂).trans (execOf_after_other hij.symm h₂ h₁), ?_⟩
  cases hi : i.unit <;> cases hj : j.unit
  case trl.acc | acc.trl => exact ⟨rfl, rfl, rfl, rfl, rfl⟩
  all_goals exact absurd (hi.trans hj.symm) hij

end Sys2Proof.Proofs
end

section
/-!
SUPPORT. The decoder, said once (30_encoding.md rules R94 to R97): by the unit of the word and its fields,
what each pair `(W, D)` gives; and the four checks of R96, by the same fields.
-/

namespace Sys2Proof

/-- The value of the `UNIT` field that names a unit (30_encoding.md R93). -/
def UnitId.code : UnitId → BitVec 4
  | .trl => 0x1#4
  | .acc => 0x2#4

/-- The greatest `OP` of a unit that is not reserved (30_encoding.md R94). -/
def UnitId.lastOp : UnitId → Nat
  | .trl => 5
  | .acc => 7

/-- The operations of a unit that take a CSR number, `CSRR` and `CSRW`: its last two (30_encoding.md
R94). -/
def UnitId.CsrOp (u : UnitId) (op : BitVec 4) : Prop := op.toNat + 1 = u.lastOp ∨ op.toNat = u.lastOp

/-- The `OP` and `CSR` fields of a legal command of the unit (30_encoding.md R96). -/
def UnitId.Legal (u : UnitId) (op : BitVec 4) (csr : BitVec 12) : Prop :=
  op.toNat ≤ u.lastOp ∧ (u.CsrOp op ∨ csr = 0#12)

/-- The CSR operations lie at the end of the `OP`s that are not reserved. -/
theorem UnitId.CsrOp.bounds {u : UnitId} {op : BitVec 4} (h : u.CsrOp op) :
    u.lastOp ≤ op.toNat + 1 ∧ op.toNat ≤ u.lastOp := by
  unfold UnitId.CsrOp at h
  omega

/-- The decoder of a unit's commands, once `ZERO` is 0. -/
def decodeIn : UnitId → BitVec 4 → BitVec 12 → DWord → Decoded
  | .trl => decodeTrl
  | .acc => decodeAcc

/-- The bits of `D` that are an instruction's operand (30_encoding.md R95). -/
def Instr.operandMask : Instr → DWord
  | .trlForecast _ => 0x00000000FFFFFFFF#64
  | .accSetThreshold _ => 0x00000000FFFFFFFF#64
  | .accSetDetectInv _ => 0x1#64
  | .trlCsrw _ _ => BitVec.allOnes 64
  | .accCsrw _ _ => BitVec.allOnes 64
  | _ => 0#64

/-- A pair `(W, D)` that carries an instruction: its word, and its operand in the bits of `D` that count
(30_encoding.md R94, R95). -/
def Instr.CarriedBy (i : Instr) (c : Command) : Prop :=
  c.w = (encode i).w ∧ c.d &&& i.operandMask = (encode i).d

/-! ### The operands in `D` -/

/-- The low word of an encoded operand (30_encoding.md R95). -/
theorem dataLow_setWidth (n : Word) : dataLow (n.setWidth 64) = n := by
  rw [dataLow, Machine.low_word_eq_truncate, BitVec.setWidth_setWidth_of_le _ (by decide),
    BitVec.setWidth_eq]

/-- Bit 0 of an encoded enable (30_encoding.md R95). -/
theorem dataBit0_ofBool (b : Bool) : dataBit0 ((BitVec.ofBool b).setWidth 64) = b := by
  cases b <;> rfl

/-- The other bits of `D` cleared, it is the encoding of its low word. -/
theorem and_low_mask (d : DWord) : d &&& 0x00000000FFFFFFFF#64 = (dataLow d).setWidth 64 := by
  apply BitVec.eq_of_toNat_eq
  rw [dataLow, Machine.low_word_eq_truncate, BitVec.toNat_setWidth, BitVec.toNat_setWidth,
    BitVec.toNat_and, show (0x00000000FFFFFFFF#64).toNat = 2 ^ 32 - 1 from rfl,
    Nat.and_two_pow_sub_one_eq_mod]
  omega

/-! ### The decoder by unit -/

/-- No two units share a `UNIT` value. -/
theorem UnitId.code_injective : Function.Injective UnitId.code := by
  intro u v h
  cases u <;> cases v
  case trl.trl | acc.acc => rfl
  all_goals exact absurd h (by decide)

/-- A word whose `UNIT` names a unit is that unit's, and illegal there when `ZERO` is not 0. -/
theorem decode_of_unit {c : Command} {u : UnitId} (h : unitField c.w = u.code) :
    decode c = if zeroField c.w = 0#12 then decodeIn u (opField c.w) (csrField c.w) c.d
      else .illegal u := by
  unfold decode
  rw [h]
  cases u with
  | trl => exact if_pos rfl
  | acc => rw [if_neg (by decide), if_pos (by rfl)]; rfl

/-- A word whose `UNIT` names no unit is no unit's. -/
theorem decode_of_no_unit {c : Command} (h : ∀ u : UnitId, unitField c.w ≠ u.code) :
    decode c = .badUnit :=
  (if_neg (h .trl)).trans (if_neg (h .acc))

/-- The decoder on the words of the encoder's format. -/
theorem decode_formatC (u : UnitId) (op : BitVec 4) (csr : BitVec 12) (d : DWord) :
    decode ⟨formatC u.code op csr, d⟩ = decodeIn u op csr d := by
  have hunit : unitField (⟨formatC u.code op csr, d⟩ : Command).w = u.code :=
    unitField_formatC u.code op csr
  rw [decode_of_unit hunit]
  simp only [zeroField_formatC, opField_formatC, csrField_formatC, if_true]

/-- Decoding gives back what was encoded: the word by its format, the operand by its bits of `D`. -/
theorem decode_encode (i : Instr) : decode (encode i) = .instr i := by
  cases i with
  | trlForecast n =>
    exact (decode_formatC .trl _ _ _).trans
      (congrArg (fun n => Decoded.instr (.trlForecast n)) (dataLow_setWidth n))
  | accSetThreshold t =>
    exact (decode_formatC .acc _ _ _).trans
      (congrArg (fun t => Decoded.instr (.accSetThreshold t)) (dataLow_setWidth t))
  | accSetDetectInv b =>
    exact (decode_formatC .acc _ _ _).trans
      (congrArg (fun b => Decoded.instr (.accSetDetectInv b)) (dataBit0_ofBool b))
  | trlReset | trlConfig | trlProcess | trlCsrr _ | trlCsrw _ _ => exact decode_formatC .trl _ _ _
  | accReset | accConfig | accSetCode | accProcess | accCsrr _ | accCsrw _ _ =>
    exact decode_formatC .acc _ _ _

/-! ### What the decoder of a unit can answer -/

/-- The two answers of a unit to its `OP` and `CSR` fields: a command, which the pair carries, when they
are legal, and illegal when they are not. -/
def AnswersByLegality (u : UnitId) (op : BitVec 4) (csr : BitVec 12) (d : DWord) (r : Decoded) : Prop :=
  (u.Legal op csr ∧ ∃ i, r = .instr i ∧ i.CarriedBy ⟨formatC u.code op csr, d⟩)
    ∨ (¬ u.Legal op csr ∧ r = .illegal u)

section rows
variable {u : UnitId} {op k : BitVec 4} {csr : BitVec 12} {d : DWord} {i : Instr}

/-- A row of the opcode map with a CSR number. -/
theorem answers_csr_row (hop : op.toNat = k.toNat) (hcsr : u.CsrOp k)
    (hi : i.CarriedBy ⟨formatC u.code k csr, d⟩) : AnswersByLegality u op csr d (.instr i) := by
  obtain rfl := BitVec.eq_of_toNat_eq hop
  exact .inl ⟨⟨hcsr.bounds.2, .inl hcsr⟩, i, rfl, hi⟩

/-- A row of the opcode map without one. -/
theorem answers_plain_row (hop : op.toNat = k.toNat) (hk : k.toNat + 1 < u.lastOp)
    (hi : i.CarriedBy ⟨formatC u.code k 0#12, d⟩) :
    AnswersByLegality u op csr d (plainCommand u csr i) := by
  obtain rfl := BitVec.eq_of_toNat_eq hop
  by_cases h : csr = 0#12
  · subst h
    exact .inl ⟨⟨by omega, .inr rfl⟩, i, if_pos rfl, hi⟩
  · have hcsr (hc : u.CsrOp op) : False := absurd hc.bounds.1 (by omega)
    exact .inr ⟨fun ⟨_, hlegal⟩ => hlegal.elim hcsr h, if_neg h⟩

/-- A reserved `OP`. -/
theorem answers_reserved_row (hop : u.lastOp < op.toNat) :
    AnswersByLegality u op csr d (.illegal u) :=
  .inr ⟨fun ⟨hle, _⟩ => absurd hle (by omega), rfl⟩

end rows

/-- The rows of the opcode map of unit TRL (30_encoding.md R94). -/
theorem decodeTrl_answers (op : BitVec 4) (csr : BitVec 12) (d : DWord) :
    AnswersByLegality .trl op csr d (decodeTrl op csr d) := by
  unfold decodeTrl
  split
  case h_1 hop => exact answers_plain_row (k := 0#4) hop (by decide) ⟨rfl, BitVec.and_zero⟩
  case h_2 hop => exact answers_plain_row (k := 1#4) hop (by decide) ⟨rfl, BitVec.and_zero⟩
  case h_3 hop => exact answers_plain_row (k := 2#4) hop (by decide) ⟨rfl, and_low_mask d⟩
  case h_4 hop => exact answers_plain_row (k := 3#4) hop (by decide) ⟨rfl, BitVec.and_zero⟩
  case h_5 hop => exact answers_csr_row (k := 4#4) hop (.inl rfl) ⟨rfl, BitVec.and_zero⟩
  case h_6 hop => exact answers_csr_row (k := 5#4) hop (.inr rfl) ⟨rfl, BitVec.and_allOnes⟩
  case h_7 =>
    simp only [imp_false] at *
    exact answers_reserved_row (show 5 < op.toNat by omega)

/-- The rows of the opcode map of unit ACC (30_encoding.md R94). -/
theorem decodeAcc_answers (op : BitVec 4) (csr : BitVec 12) (d : DWord) :
    AnswersByLegality .acc op csr d (decodeAcc op csr d) := by
  unfold decodeAcc
  split
  case h_1 hop => exact answers_plain_row (k := 0#4) hop (by decide) ⟨rfl, BitVec.and_zero⟩
  case h_2 hop => exact answers_plain_row (k := 1#4) hop (by decide) ⟨rfl, BitVec.and_zero⟩
  case h_3 hop => exact answers_plain_row (k := 2#4) hop (by decide) ⟨rfl, BitVec.and_zero⟩
  case h_4 hop => exact answers_plain_row (k := 3#4) hop (by decide) ⟨rfl, and_low_mask d⟩
  case h_5 hop =>
    exact answers_plain_row (k := 4#4) hop (by decide)
      ⟨rfl, BitVec.and_one_eq_setWidth_ofBool_getLsbD⟩
  case h_6 hop => exact answers_plain_row (k := 5#4) hop (by decide) ⟨rfl, BitVec.and_zero⟩
  case h_7 hop => exact answers_csr_row (k := 6#4) hop (.inl rfl) ⟨rfl, BitVec.and_zero⟩
  case h_8 hop => exact answers_csr_row (k := 7#4) hop (.inr rfl) ⟨rfl, BitVec.and_allOnes⟩
  case h_9 =>
    simp only [imp_false] at *
    exact answers_reserved_row (show 7 < op.toNat by omega)

/-- The rows of the opcode map of both units. -/
theorem decodeIn_answers (u : UnitId) (op : BitVec 4) (csr : BitVec 12) (d : DWord) :
    AnswersByLegality u op csr d (decodeIn u op csr d) := by
  cases u with
  | trl => exact decodeTrl_answers op csr d
  | acc => exact decodeAcc_answers op csr d

/-! ### The four checks of R96 by the fields of the word -/

section checks
variable {c : Command} {u : UnitId}

/-- The `UNIT` check: the word names a unit. -/
theorem unitOk_iff (c : Command) : c.unitOk = true ↔ ∃ u : UnitId, unitField c.w = u.code := by
  obtain ⟨hunit, -⟩ := fields_toNat c.w
  have hcode (u : UnitId) : unitField c.w = u.code ↔ c.w.toNat / 2 ^ 28 = u.code.toNat := by
    rw [← hunit, BitVec.toNat_inj]
  simp only [CommandOf.unitOk, Bool.or_eq_true, beq_iff_eq, hcode]
  constructor
  · exact fun h => h.elim (fun h => ⟨.trl, h⟩) fun h => ⟨.acc, h⟩
  · rintro ⟨_ | _, h⟩
    exacts [.inl h, .inr h]

/-- The `OP` check, in the unit that the word names. -/
theorem opOk_iff (h : unitField c.w = u.code) : c.opOk = true ↔ (opField c.w).toNat ≤ u.lastOp := by
  obtain ⟨hunit, hop, -⟩ := fields_toNat c.w
  rw [CommandOf.opOk, ← hunit, ← hop, h]
  cases u <;> exact decide_eq_true_iff

/-- The `ZERO` check. -/
theorem zeroOk_iff (c : Command) : c.zeroOk = true ↔ zeroField c.w = 0#12 := by
  obtain ⟨-, -, -, hzero⟩ := fields_toNat c.w
  rw [CommandOf.zeroOk, beq_iff_eq, ← hzero, ← BitVec.toNat_inj]
  rfl

/-- The `CSR` check, in the unit that the word names: the four top bytes are the CSR operations. -/
theorem csrOk_iff (h : unitField c.w = u.code) :
    c.csrOk = true ↔ u.CsrOp (opField c.w) ∨ csrField c.w = 0#12 := by
  obtain ⟨hunit, hop, hcsr, -⟩ := fields_toNat c.w
  have htop : c.w.toNat / 2 ^ 24 = u.code.toNat * 16 + (opField c.w).toNat := by
    rw [← h, hunit, hop]
    omega
  have hlt := (opField c.w).isLt
  rw [CommandOf.csrOk, Bool.or_eq_true, beq_iff_eq, List.contains_iff_mem, htop, ← hcsr,
    ← BitVec.toNat_inj]
  refine or_congr ?_ Iff.rfl
  cases u <;> simp [UnitId.CsrOp, UnitId.code, UnitId.lastOp] <;> omega

/-- A word whose `UNIT` names no unit is not well formed. -/
theorem wellFormed_of_no_unit (h : ¬ ∃ u : UnitId, unitField c.w = u.code) : c.wellFormed = false := by
  rw [← unitOk_iff, Bool.not_eq_true] at h
  rw [CommandOf.wellFormed, h, Bool.false_and, Bool.false_and, Bool.false_and]

/-- Rule R96 on a word that names a unit: `ZERO` is 0, and `OP` and `CSR` are legal in that unit. -/
theorem wellFormed_iff (h : unitField c.w = u.code) :
    c.wellFormed = true ↔ zeroField c.w = 0#12 ∧ u.Legal (opField c.w) (csrField c.w) := by
  have hunit : c.unitOk = true := (unitOk_iff c).2 ⟨u, h⟩
  rw [CommandOf.wellFormed, Bool.and_eq_true, Bool.and_eq_true, Bool.and_eq_true, opOk_iff h,
    zeroOk_iff, csrOk_iff h, UnitId.Legal]
  tauto

end checks

/-! ### All that the decoder can answer -/

/-- The three answers of rule R96: a command, which the pair carries, to a well-formed pair; illegal, in
the unit that the word names; no unit. -/
theorem decode_cases (c : Command) :
    (c.wellFormed = true ∧ ∃ i, decode c = .instr i ∧ i.CarriedBy c)
      ∨ (c.wellFormed = false ∧ ∃ u : UnitId, unitField c.w = u.code ∧ decode c = .illegal u)
      ∨ (c.wellFormed = false ∧ (∀ u : UnitId, unitField c.w ≠ u.code) ∧ decode c = .badUnit) := by
  by_cases hunit : ∃ u : UnitId, unitField c.w = u.code
  · obtain ⟨u, hu⟩ := hunit
    rw [← Bool.not_eq_true, wellFormed_iff hu, decode_of_unit hu]
    by_cases hzero : zeroField c.w = 0#12
    · have hword := formatC_fields hzero
      have hanswer := decodeIn_answers u (opField c.w) (csrField c.w) c.d
      rw [AnswersByLegality, ← hu, hword] at hanswer
      rw [if_pos hzero]
      rcases hanswer with ⟨hlegal, i, hi, hc⟩ | ⟨hlegal, hi⟩
      · exact .inl ⟨⟨hzero, hlegal⟩, i, hi, hc⟩
      · exact .inr (.inl ⟨fun h => hlegal h.2, u, hu, hi⟩)
    · exact .inr (.inl ⟨fun h => hzero h.1, u, hu, if_neg hzero⟩)
  · have hno := not_exists.1 hunit
    exact .inr (.inr ⟨wellFormed_of_no_unit hunit, hno, decode_of_no_unit hno⟩)

/-- A decoded command is carried by its pair. -/
theorem carriedBy_of_decode {c : Command} {i : Instr} (h : decode c = .instr i) : i.CarriedBy c := by
  rcases decode_cases c with ⟨-, j, hj, hc⟩ | ⟨-, u, -, hu⟩ | ⟨-, -, hbad⟩
  · exact Decoded.instr.inj (hj.symm.trans h) ▸ hc
  · exact nomatch hu.symm.trans h
  · exact nomatch hbad.symm.trans h

/-- The pairs that decode to a command are the well-formed ones. -/
theorem wellFormed_iff_decode (c : Command) : c.wellFormed = true ↔ ∃ i, decode c = .instr i := by
  rcases decode_cases c with ⟨hwf, i, hi, -⟩ | ⟨hwf, u, -, hu⟩ | ⟨hwf, -, hbad⟩
  · exact iff_of_true hwf ⟨i, hi⟩
  · exact iff_of_false (Bool.eq_false_iff.1 hwf) fun ⟨i, hi⟩ => nomatch hu.symm.trans hi
  · exact iff_of_false (Bool.eq_false_iff.1 hwf) fun ⟨i, hi⟩ => nomatch hbad.symm.trans hi

/-- A word that names a unit and fails a check is illegal in that unit. -/
theorem decode_illegal {c : Command} {u : UnitId} (hu : unitField c.w = u.code)
    (hwf : c.wellFormed = false) : decode c = .illegal u := by
  rcases decode_cases c with ⟨hwf', -⟩ | ⟨-, v, hv, hi⟩ | ⟨-, hno, -⟩
  · exact absurd hwf' (Bool.eq_false_iff.1 hwf)
  · exact UnitId.code_injective (hv.symm.trans hu) ▸ hi
  · exact absurd hu (hno u)

/-- The checks of R96 do not look at `D`. -/
theorem wellFormed_data (w : Word) (d e : DWord) :
    (⟨w, d⟩ : Command).wellFormed = (⟨w, e⟩ : Command).wellFormed := rfl

/-- A word that names a unit and fails a check is illegal whatever `D` comes with it. -/
theorem decode_illegal_word {w : Word} {u : UnitId} (hu : unitField w = u.code)
    (hwf : (⟨w, 0#64⟩ : Command).wellFormed = false) (d : DWord) : decode ⟨w, d⟩ = .illegal u :=
  decode_illegal hu ((wellFormed_data w d 0#64).trans hwf)

end Sys2Proof

namespace Sys2Proof.Proofs

/-- Settles O1: each instruction's word is in its unit's format, and its operand in the bits of `D` that
the decoder reads. -/
theorem decodeOfEncode : Obligations.DecodeOfEncode := decode_encode

/-- Settles O2: the pair of a decoded command carries it. -/
theorem decodedCommandHasOneWord : Obligations.DecodedCommandHasOneWord := by
  intro c i h
  obtain ⟨hword, hdata⟩ := carriedBy_of_decode h
  refine ⟨hword, Eq.trans ?_ hdata⟩
  cases i with
  | trlForecast _ | accSetThreshold _ | accSetDetectInv _ => rfl
  | trlCsrw _ _ | accCsrw _ _ => exact BitVec.and_allOnes.symm
  | _ => exact BitVec.and_zero.symm

/-- Settles O3: both sides are what the fields of the word say. -/
theorem decodeAcceptsExactlyWellFormed : Obligations.DecodeAcceptsExactlyWellFormed :=
  wellFormed_iff_decode

/-- Settles O4: the worked commands decode as encoded words; each illegal word fails a check in the unit
it names; 0x30000000 names no unit. -/
theorem workedEncodings : Obligations.WorkedEncodings := by
  have hnone : ∀ u : UnitId, unitField 0x30000000#32 ≠ u.code := by rintro (_ | _) <;> decide
  have hcsrr : encode (.trlCsrr 0x020#12) = ⟨0x14020000#32, 0#64⟩ := by decide
  have hcsrw : encode (.accCsrw 0x103#12 0x31#64) = ⟨0x27103000#32, 0x31#64⟩ := by decide
  have hforecast : encode (.trlForecast 10#32) = ⟨0x12000000#32, 0x000000000000000A#64⟩ := by decide
  exact ⟨hcsrr ▸ decode_encode _, hcsrr, hcsrw ▸ decode_encode _, hcsrw,
    hforecast ▸ decode_encode _, hforecast,
    decode_illegal_word (by decide) (by decide), decode_illegal_word (by decide) (by decide),
    decode_illegal_word (by decide) (by decide), fun _ => decode_of_no_unit hnone⟩

end Sys2Proof.Proofs
end

section
/-!
SUPPORT. A step that issues a command (30_encoding.md rules R90 and R96): the host's action is taken off
the list, and the command runs at the port as the decoder reads it.
-/

namespace Sys2Proof.Machine

/-- A step whose next action issues a command runs it at the port. -/
theorem step_issue {s : State} {c : Command} {rest : List HostInput} (h : s.inputs = .issue c :: rest) :
    step s = runCommand c { s with inputs := rest } := by
  simp only [step, stepOf, takeInput, h, runInputOf, runCommand]

/-- A legal command at the port runs. -/
theorem runCommand_instr {c : Command} {i : Instr} (h : decode c = .instr i) (s : State) :
    runCommand c s = exec i s := by
  simp only [runCommand, runCommandOf, binary32Format_bitsOf, h]

/-- An illegal command at the port raises `ILLEGAL_CMD` in its unit. -/
theorem runCommand_illegal {c : Command} {u : UnitId} (h : decode c = .illegal u) (s : State) :
    runCommand c s = .next (raise binary32Format u .illegalCmd s) := by
  simp only [runCommand, runCommandOf, binary32Format_bitsOf, h]

/-- What `raise` leaves, written out (60_exceptions.md R252). -/
theorem raise_eq_raised (u : UnitId) (c : Code) (s : State) :
    raise binary32Format u c s = raised u c c.statusMask s := by
  cases u <;> rfl

/-- A step that issues a word of unit `u` that fails a check raises `ILLEGAL_CMD` in `u`, and does nothing
else. -/
theorem step_illegal {s : State} {c : Command} {rest : List HostInput} {u : UnitId}
    (h : s.inputs = .issue c :: rest) (hu : c.w.toNat / 2 ^ 28 = u.code.toNat)
    (hwf : c.wellFormed = false) :
    step s = .next (raised u .illegalCmd 0x1#32 { s with inputs := rest }) := by
  obtain ⟨hunit, -⟩ := fields_toNat c.w
  have hdecode : decode c = .illegal u :=
    decode_illegal (BitVec.eq_of_toNat_eq (hunit.trans hu)) hwf
  rw [step_issue h, runCommand_illegal hdecode, raise_eq_raised]
  rfl

end Sys2Proof.Machine

namespace Sys2Proof.Proofs
open Sys2Proof.Machine

/-- Settles O5: the port runs what the decoder reads. -/
theorem stepRunsDecodedCommand : Obligations.StepRunsDecodedCommand :=
  fun _ _ _ _ hissue hdecode => (step_issue hissue).trans (runCommand_instr hdecode _)

/-- Settles O7: with a failed check the pair is not well formed, so it is illegal in the unit it names. -/
theorem illegalCommandRaisesInItsUnit : Obligations.IllegalCommandRaisesInItsUnit := by
  intro s c rest hissue hfail
  have hwf : c.wellFormed = false := by
    rw [CommandOf.wellFormed, Bool.and_assoc, Bool.and_assoc, ← Bool.and_assoc c.opOk, hfail,
      Bool.and_false]
  exact ⟨fun hu => step_illegal (u := .trl) hissue hu hwf,
    fun hu => step_illegal (u := .acc) hissue hu hwf⟩

end Sys2Proof.Proofs
end

section
/-!
SUPPORT. What a unit owns (20_memory.md rules R79 and R82), by the machine with one unit put in: two
states agree on a unit when putting it in changes nothing.
-/

namespace Sys2Proof.Machine

/-- The unit put in is the one it was taken from. -/
theorem agreeOn_withUnit (u : UnitId) (r s : State) (a : Option Response) :
    AgreeOn u s (r.withUnit u s a) := by
  cases u
  · exact ⟨rfl, rfl, rfl, rfl, rfl, rfl⟩
  · exact ⟨rfl, rfl, rfl⟩

/-- Beside the unit put in, the other is as it was. -/
theorem agreeOn_other_withUnit (u : UnitId) (r s : State) (a : Option Response) :
    AgreeOn (otherUnit u) r (r.withUnit u s a) := by
  cases u
  · exact ⟨rfl, rfl, rfl⟩
  · exact ⟨rfl, rfl, rfl, rfl, rfl, rfl⟩

/-- Putting in a unit on which the machine agrees changes nothing. -/
theorem withUnit_of_agreeOn {u : UnitId} {s r : State} (h : AgreeOn u s r) :
    r.withUnit u s r.response = r := by
  cases u with
  | trl =>
    obtain ⟨htrl, hin, hsym, hpass, homega, hmu⟩ := h
    simp only [State.Of.withUnit, htrl, hin, hsym, hpass, homega, hmu]
  | acc =>
    obtain ⟨hacc, hin, hout⟩ := h
    simp only [State.Of.withUnit, hacc, hin, hout]

/-- Putting in a unit leaves the host's coming actions. -/
theorem withUnit_inputs (u : UnitId) (r s : State) (a : Option Response) :
    (r.withUnit u s a).inputs = r.inputs := by
  cases u <;> rfl

/-- The answer is the one put in. -/
theorem withUnit_response (u : UnitId) (r s : State) (a : Option Response) :
    (r.withUnit u s a).response = a := by
  cases u <;> rfl

end Sys2Proof.Machine

namespace Sys2Proof.Proofs
open Sys2Proof.Machine

/-- Settles O52: a command leaves the rest of its machine as it is, and on a machine that agrees on its
unit it puts in that unit, with its buffers, and the response. -/
theorem commandsTouchOnlyTheirUnit : Obligations.CommandsTouchOnlyTheirUnit := by
  intro i s₁ s₂ t₁ t₂ h₁ h₂
  obtain ⟨d, hexec⟩ := exec_is_execOf i
  rw [hexec] at h₁ h₂
  have hframe := execOf_frame h₁
  refine ⟨hframe ▸ agreeOn_other_withUnit _ _ _ _, hframe ▸ withUnit_inputs _ _ _ _, fun hagree => ?_⟩
  have hsame := execOf_withUnit h₁ s₂ s₂.response
  rw [withUnit_of_agreeOn hagree, h₂] at hsame
  obtain rfl := Host.Outcome.next.inj hsame
  exact ⟨agreeOn_withUnit _ _ _ _, (withUnit_response _ _ _ _).symm⟩

end Sys2Proof.Proofs
end

section
/-!
SUPPORT. `TRL.CONFIG` and `TRL.FORECAST` on values (41_timing_recovery.md rules R122, R123 and R125), and
the commands that a unit outside `READY` turns away (R130, 42_access_code_correlator.md rule R186).
-/

namespace Sys2Proof.Machine

/-- Every finite value lies below the middle between the largest one and the next step. -/
theorem abs_f32Value_lt_overflow {x : F32} (h : f32IsFinite x = true) :
    |f32Value x| < (2 ^ 25 - 1) * 2 ^ 103 := by
  have hmag : (f32Mag x : ℚ) < (2 ^ 25 - 1) * 2 ^ 252 :=
    (Nat.cast_lt.2 (isF32Mag_of_finite h).lt_overflow).trans_eq (by norm_num)
  rw [f32Value_eq, abs_div, abs_mul, abs_signFactor, one_mul, Nat.abs_cast,
    abs_of_pos (by positivity : (0 : ℚ) < 2 ^ 149), div_lt_iff₀ (by positivity)]
  exact hmag.trans_eq (by norm_num)

/-- The limit product of an accepted construction is finite: a factor from 0 to 1 leads to no greater
magnitude than that of `omega₀`, and one rounding does not pass it into overflow. -/
theorem Trl.cfgLim_finite {t : Trl F32} (h : trlConfigTest t) :
    f32IsFinite (t.cfgLim binary32) = true := by
  obtain ⟨ho, -, -, hrl, -, -, -, -, hrl0, hrl1, -, -⟩ := h
  have hfactor : |f32Value t.cfgRelLimit| ≤ 1 := abs_le.2 ⟨by linarith, hrl1.le⟩
  have hprod : |f32Value t.cfgOmega0 * f32Value t.cfgRelLimit| < (2 ^ 25 - 1) * 2 ^ 103 := by
    rw [abs_mul]
    exact (mul_le_of_le_one_right (abs_nonneg _) hfactor).trans_lt (abs_f32Value_lt_overflow ho)
  rw [← Bool.not_eq_false]
  exact fun hinf => hprod.not_ge ((f32Mul_roundsTo ho hrl).2.1 hinf)

/-- The test `ok` of `TRL.CONFIG` is the test on values: its last part follows from the others
(41_timing_recovery.md R122). -/
theorem Trl.configOk_iff_test (t : Trl F32) : t.configOk binary32 = true ↔ trlConfigTest t :=
  t.configOk_iff.trans (and_iff_left_of_imp Trl.cfgLim_finite)

/-- `TRL.CONFIG` constructs where the test holds (41_timing_recovery.md R123). -/
theorem execTrlConfig_constructs {s : State} (h : trlConfigTest s.trl) :
    exec .trlConfig s = .next (complete .trl 0#64 (s.setTrl (s.trl.configure binary32))) :=
  congrArg _ (if_pos (s.trl.configOk_iff_test.2 h))

/-- `TRL.CONFIG` raises where the test fails (41_timing_recovery.md R122). -/
theorem execTrlConfig_rejects {s : State} (h : ¬ trlConfigTest s.trl) :
    exec .trlConfig s = .next (raised .trl .invalidParam 0x2#32 s) := by
  have hfail : ¬ s.trl.configOk binary32 = true := mt s.trl.configOk_iff_test.1 h
  exact congrArg _ ((if_neg hfail).trans (raise_eq_raised .trl .invalidParam s))

/-- The integer ceiling of a binary32 product is the ceiling of the exact product. -/
theorem f32CeilMul_eq (n : Nat) (x : F32) : f32CeilMul n x = ⌈(n : ℚ) * f32Value x⌉ := by
  have hval : (n : ℚ) * f32Value x
      = -(((-((n : Int) * f32Units x) : Int) : ℚ) / ((2 ^ 149 : Nat) : ℚ)) := by
    rw [f32Value]
    push_cast
    ring
  rw [hval, Int.ceil_neg, Rat.floor_intCast_div_natCast, f32CeilMul, Nat.cast_pow, Nat.cast_ofNat]

/-- The forecast at a rate that is not negative is the exact sum, saturated (41_timing_recovery.md
R125). -/
theorem Trl.forecast_eq {t : Trl F32} (h : 0 ≤ f32Value t.omega) (ntaps n : Nat) :
    t.forecast binary32 ntaps n
      = min (⌈(n : ℚ) * f32Value t.omega⌉.toNat + ntaps + t.skip.toNat) (2 ^ 32 - 1) := by
  have hceil : 0 ≤ ⌈(n : ℚ) * f32Value t.omega⌉ := Int.ceil_nonneg (by positivity)
  have hmul : binary32.ceilMul n t.omega = ⌈(n : ℚ) * f32Value t.omega⌉ := f32CeilMul_eq n t.omega
  rw [Trl.forecast, hmul, saturate32]
  omega

/-- `ACC.PROCESS` of a unit that is not `READY` raises `NOT_READY`. -/
theorem accProcess_notReady {F S D : Type} {N : Format F S D} {s : State.Of F S D}
    (hm : s.acc.mode ≠ .ready) : accProcess N s = .next (raise N .acc .notReady s) := if_neg hm

end Sys2Proof.Machine

namespace Sys2Proof.Proofs
open Sys2Proof.Machine

/-- Settles O25: both commands begin with the test of the mode. -/
theorem processOutsideReadyRaises : Obligations.ProcessOutsideReadyRaises :=
  fun s => ⟨
    fun hm => (trlProcess_notReady hm).trans (congrArg _ (raise_eq_raised .trl .notReady s)),
    fun hm => (accProcess_notReady hm).trans (congrArg _ (raise_eq_raised .acc .notReady s))⟩

/-- Settles O19: the construction, with `PASS_COUNT` by the floor of the value. -/
theorem trlConfigConstructs : Obligations.TrlConfigConstructs := by
  intro s h
  rw [execTrlConfig_constructs h, ← f32FloorInt_eq]
  rfl

/-- Settles O20: the test on values decides. -/
theorem trlConfigRejectsBadParameters : Obligations.TrlConfigRejectsBadParameters :=
  fun _ => ⟨execTrlConfig_rejects,
    fun h => ⟨Trl.cfgLim_finite h, _, execTrlConfig_constructs h, rfl⟩⟩

/-- Settles O24: a READY rate is above 0, so the sum is not negative. -/
theorem trlForecastIsExactCeiling : Obligations.TrlForecastIsExactCeiling := by
  refine fun s n => ⟨fun hm hinv => ?_, fun hm => ?_⟩
  · obtain ⟨-, -, -, -, -, -, hrate, -⟩ := hinv hm
    rw [← Trl.forecast_eq hrate.le]
    exact congrArg _ (if_pos hm)
  · exact congrArg _ ((if_neg hm).trans (raise_eq_raised .trl .notReady s))

end Sys2Proof.Proofs
end

section
/-!
SUPPORT. `TRL.PROCESS` as a chain of committed symbol steps (41_timing_recovery.md rules R130 to R133): the
loop goes along the chain, and the chain ends where the guard fails or a step faults.
-/

namespace Sys2Proof.Machine

section ends
variable {F S D : Type} {N : Format F S D} {P : Params F} {s s' : State.Of F S D}

/-- `TRL.PROCESS` of a `READY` unit runs its loop, which answers, and reports its results. -/
theorem trlProcess_ends (hm : s.trl.mode = .ready) :
    ∃ k s' c, processLoop N P (s.trl.inputLimit N.num P.ntaps) s.trl.capSym.toNat s.trl.callStart s
        = .ok (k, s', c)
      ∧ trlProcess N P s = .next (finishProcess N (s.trl.inputLimit N.num P.ntaps) k c s') := by
  obtain ⟨⟨k, s', c⟩, hloop⟩ := processLoop_ok (N := N) (P := P) (fuel := s.trl.capSym.toNat)
    s.trl.callStart (s.trl.inputLimit_le N.num P.ntaps)
  exact ⟨k, s', c, hloop, trlProcess_ready hm hloop⟩

/-- The call context and unit TRL after a committed symbol step (41_timing_recovery.md R132). -/
theorem commitStep_ok {ntaps limit : Nat} {k k' : TrlCall} {v : SymbolValues F}
    (hg : s.trl.guard ntaps limit k = true) (hl : limit ≤ s.trl.inCount.toNat)
    (h : commitStep N k v s = .ok (k', s')) :
    k' = k.next s.trl v ∧ s'.trl = s.trl.commit v (advanceCursor k.cursor v.adv).2 := by
  rw [commitStep_eq hg hl] at h
  obtain ⟨rfl, rfl⟩ := Prod.mk.inj (Except.ok.inj h)
  exact ⟨rfl, rfl⟩

/-- The results of `TRL.PROCESS` and its completion with `OK` (41_timing_recovery.md R133). -/
theorem finishProcess_ok (limit : Nat) (k : TrlCall) (s : State.Of F S D) :
    finishProcess N limit k .ok s
      = complete .trl (N.ofBits 0) (s.setTrl (s.trl.finish limit k)) := by
  unfold finishProcess
  exact if_pos rfl

/-- The results of `TRL.PROCESS` and its end by `raise` (41_timing_recovery.md R133). -/
theorem finishProcess_raise (limit : Nat) (k : TrlCall) {c : Code} (hc : c ≠ .ok)
    (s : State.Of F S D) :
    finishProcess N limit k c s = raise N .trl c (s.setTrl (s.trl.finish limit k)) := if_neg hc

/-- `TRL.PROCESS` whose first guard fails runs no symbol step (41_timing_recovery.md R134). -/
theorem trlProcess_stop (hm : s.trl.mode = .ready)
    (hg : s.trl.guard P.ntaps (s.trl.inputLimit N.num P.ntaps) s.trl.callStart = false) :
    trlProcess N P s = .next (complete .trl (N.ofBits 0)
      (s.setTrl (s.trl.finish (s.trl.inputLimit N.num P.ntaps) s.trl.callStart))) := by
  rw [trlProcess_ready hm (processLoop_stop hg), finishProcess_ok]

end ends

/-- A committed symbol step counts one symbol. -/
@[simp] theorem TrlCall.next_kSym {F : Type} (k : TrlCall) (t : Trl F) (v : SymbolValues F) :
    (k.next t v).kSym = k.kSym + 1 := rfl

section run
variable {P : Params F32} {limit n : Nat} {k k' : TrlCall} {s t : State}

/-- What every committed symbol step keeps, a chain of them keeps. -/
theorem SymbolRun.keeps {I : TrlCall → Trl F32 → Prop} (run : SymbolRun P limit n k s k' t)
    (commit : ∀ k (u : Trl F32) x v, u.guard P.ntaps limit k = true →
      u.symbolStep binary32 P x = some v → I k u →
      I (k.next u v) (u.commit v (advanceCursor k.cursor v.adv).2))
    (hl : limit ≤ s.trl.inCount.toNat) (hI : I k s.trl) : I k' t.trl := by
  induction run with
  | stay => exact hI
  | step guard values hcommit _ ih =>
    obtain ⟨rfl, htrl⟩ := commitStep_ok guard hl hcommit
    refine ih ?_ ?_ <;> rw [htrl]
    · exact hl
    · exact commit _ _ _ _ guard values hI

/-- A chain of symbol steps writes one symbol for each, within `CAP_SYM` (41_timing_recovery.md R131,
R132). -/
theorem SymbolRun.kSym_eq (run : SymbolRun P limit n k s k' t) (hl : limit ≤ s.trl.inCount.toNat) :
    k'.kSym = k.kSym + n ∧ t.trl.capSym = s.trl.capSym
    ∧ (k.kSym ≤ s.trl.capSym.toNat → k'.kSym ≤ s.trl.capSym.toNat) := by
  induction run with
  | stay => exact ⟨rfl, rfl, id⟩
  | step guard _ hcommit _ ih =>
    obtain ⟨rfl, htrl⟩ := commitStep_ok guard hl hcommit
    rw [htrl] at ih
    obtain ⟨hcount, hcap, hle⟩ := ih hl
    exact ⟨by rw [hcount, TrlCall.next_kSym]; omega, hcap, fun _ => hle (Trl.guard_iff.1 guard).1⟩

/-- The loop of `TRL.PROCESS` goes along a chain of committed symbol steps. -/
theorem SymbolRun.processLoop_eq (run : SymbolRun P limit n k s k' t)
    (hl : limit ≤ s.trl.inCount.toNat) (fuel : Nat) :
    processLoop binary32Format P limit (n + fuel) k s
      = processLoop binary32Format P limit fuel k' t := by
  induction run with
  | stay => rw [Nat.zero_add]
  | step guard values hcommit _ ih =>
    obtain ⟨-, htrl⟩ := commitStep_ok guard hl hcommit
    have hpass := stepPass_some (N := binary32Format) values hcommit
    rw [Nat.add_right_comm, processLoop_go ((processPass_guard guard hl).trans hpass)]
    exact ih (by rw [htrl]; exact hl)

/-- From every state a chain of committed symbol steps leads to where the guard fails or the step faults:
each takes one of the symbols that `CAP_SYM` leaves room for. -/
theorem exists_symbolRun (P : Params F32) (k : TrlCall) (hl : limit ≤ s.trl.inCount.toNat) :
    ∃ n k' t, SymbolRun P limit n k s k' t
      ∧ (t.trl.guard P.ntaps limit k' = false
        ∨ (t.trl.guard P.ntaps limit k' = true
          ∧ t.trl.symbolStep binary32 P (t.window k'.cursor P.ntaps) = none)) := by
  induction hroom : s.trl.capSym.toNat - k.kSym generalizing k s with
  | zero =>
    refine ⟨0, k, s, .stay k s, .inl (Bool.eq_false_iff.2 fun hg => ?_)⟩
    have := (Trl.guard_iff.1 hg).1
    omega
  | succ room ih =>
    cases hg : s.trl.guard P.ntaps limit k with
    | false => exact ⟨0, k, s, .stay k s, .inl hg⟩
    | true =>
      cases hv : s.trl.symbolStep binary32 P (s.window k.cursor P.ntaps) with
      | none => exact ⟨0, k, s, .stay k s, .inr ⟨hg, hv⟩⟩
      | some v =>
        have hcommit := commitStep_eq (N := binary32Format) (v := v) hg hl
        obtain ⟨n, k', t, run, hend⟩ := ih (k := k.next s.trl v) (s := { s with
          trl := s.trl.commit v (advanceCursor k.cursor v.adv).2, bufs := _ }) hl
          (by simp only [TrlCall.next, Trl.commit_capSym]; omega)
        exact ⟨n + 1, k', t, .step hg hv hcommit run, hend⟩

/-- `TRL.PROCESS` along a chain that ends where the guard fails reports the counts and completes
(41_timing_recovery.md R133). -/
theorem SymbolRun.trlProcess_completes (hm : s.trl.mode = .ready)
    (run : SymbolRun P (s.trl.inputLimit binary32 P.ntaps) n s.trl.callStart s k t)
    (hg : t.trl.guard P.ntaps (s.trl.inputLimit binary32 P.ntaps) k = false) :
    trlProcess binary32Format P s = .next (complete .trl 0#64
      (t.setTrl (t.trl.finish (s.trl.inputLimit binary32 P.ntaps) k))) := by
  have hl := s.trl.inputLimit_le binary32 P.ntaps
  obtain ⟨hcount, -, hle⟩ := run.kSym_eq hl
  obtain ⟨fuel, hfuel⟩ : ∃ fuel, s.trl.capSym.toNat = n + fuel := by
    have hstart : s.trl.callStart.kSym = 0 := rfl
    exact Nat.exists_eq_add_of_le (by omega)
  have hloop := (run.processLoop_eq hl fuel).trans (processLoop_stop hg)
  rw [← hfuel] at hloop
  rw [trlProcess_ready hm hloop, finishProcess_ok]
  rfl

/-- `TRL.PROCESS` along a chain that ends where a step faults reports the counts before that step, leaves
`FAULTED` and raises `NUMERIC_FAULT` (41_timing_recovery.md R133, R147). -/
theorem SymbolRun.trlProcess_faults (hm : s.trl.mode = .ready)
    (run : SymbolRun P (s.trl.inputLimit binary32 P.ntaps) n s.trl.callStart s k t)
    (hg : t.trl.guard P.ntaps (s.trl.inputLimit binary32 P.ntaps) k = true)
    (hv : t.trl.symbolStep binary32 P (t.window k.cursor P.ntaps) = none) :
    trlProcess binary32Format P s = .next (raise binary32Format .trl .numericFault
      (t.setTrl { t.trl.finish (s.trl.inputLimit binary32 P.ntaps) k with mode := .faulted })) := by
  have hl := s.trl.inputLimit_le binary32 P.ntaps
  have hl' : s.trl.inputLimit binary32 P.ntaps ≤ t.trl.inCount.toNat :=
    run.keeps (I := fun _ u => s.trl.inputLimit binary32 P.ntaps ≤ u.inCount.toNat)
      (fun _ _ _ _ _ _ h => h) hl hl
  obtain ⟨hcount, hcap, -⟩ := run.kSym_eq hl
  obtain ⟨fuel, hfuel⟩ : ∃ fuel, s.trl.capSym.toNat = n + 1 + fuel := by
    have hstart : s.trl.callStart.kSym = 0 := rfl
    have hlt := (Trl.guard_iff.1 hg).1
    rw [hcap] at hlt
    exact Nat.exists_eq_add_of_le (by omega)
  have hloop := (run.processLoop_eq hl (fuel + 1)).trans
    (processLoop_halt ((processPass_guard hg hl').trans (stepPass_none (N := binary32Format) hv)))
  rw [show n + (fuel + 1) = s.trl.capSym.toNat by omega] at hloop
  rw [trlProcess_ready hm hloop, finishProcess_raise _ _ (by decide)]
  rfl

end run

end Sys2Proof.Machine

namespace Sys2Proof.Proofs
open Sys2Proof.Machine

/-- Settles O26: the guard fails at the start, for want of room or of input. -/
theorem trlInsufficientInputCompletesOk : Obligations.TrlInsufficientInputCompletesOk := by
  intro s hm hshort
  refine trlProcess_stop hm (Bool.eq_false_iff.2 fun hg => ?_)
  obtain ⟨hroom, hinput, -⟩ := Trl.guard_iff.1 hg
  rcases hshort with hcap | hin
  · rw [hcap] at hroom
    exact Nat.not_lt_zero _ hroom
  · have hl := s.trl.inputLimit_le binary32 Config.ntaps
    exact absurd (hinput.trans_le hl) (Nat.not_lt.2 hin)

/-- Settles O27: the chain that `exists_symbolRun` gives, by the way it ends. -/
theorem trlProcessRunsItsSymbolSteps : Obligations.TrlProcessRunsItsSymbolSteps := by
  intro P s hm
  obtain ⟨n, k, t, run, hend⟩ :=
    exists_symbolRun P s.trl.callStart (s.trl.inputLimit_le binary32 P.ntaps)
  refine ⟨n, k, t, run, hend.imp (fun hg => ⟨hg, run.trlProcess_completes hm hg⟩) ?_⟩
  exact fun ⟨hg, hv⟩ => ⟨hg, hv, run.trlProcess_faults hm hg hv⟩

/-- Settles O28: the loop goes along the given chain; `TRL.PROCESS` of this hardware is that of its own
interpolator. -/
theorem trlProcessCompletesAfterItsSteps : Obligations.TrlProcessCompletesAfterItsSteps := by
  intro P s t n k hm run hg
  have hdone := run.trlProcess_completes hm hg
  exact ⟨hdone, fun hP => hP ▸ hdone⟩

end Sys2Proof.Proofs
end

section
/-!
SUPPORT. What one committed symbol step writes (41_timing_recovery.md rule R132), and what a whole
`TRL.PROCESS` consumes, produces and leaves of unit TRL (rules R133, R134, R152, R153).
-/

namespace Sys2Proof.Machine

/-- The cursor advance, by the sign of the sum: clamped at 0 with the underflow diagnostic, or exact
without it (41_timing_recovery.md R146). -/
theorem advanceCursor_cases (c : Nat) (a : Int) :
    ((c : Int) + a < 0 ∧ advanceCursor c a = (0, true))
    ∨ (0 ≤ (c : Int) + a ∧ advanceCursor c a = (((c : Int) + a).toNat, false)) := by
  unfold advanceCursor
  split
  · exact .inl ⟨‹_›, rfl⟩
  · exact .inr ⟨not_lt.1 ‹_›, rfl⟩

/-- An output element that is written where it is enabled reads back. -/
theorem readF_ite_writeF {en : Bool} {m : Memory} {i : Nat} (v : F32) (hm : Memory.wf m = true)
    (hen : en = true) : Memory.readF (if en then Memory.writeF m i v else m) i = v := by
  rw [if_pos hen]
  exact Memory.readF_writeF_same i v hm

/-- An output that is disabled keeps its bytes, and an enabled one those outside the element. -/
theorem read_ite_writeF {en : Bool} {m : Memory} {i a : Nat} (v : F32)
    (h : en = false ∨ a < 4 * i ∨ 4 * i + 4 ≤ a) :
    Memory.read (if en then Memory.writeF m i v else m) a = Memory.read m a := by
  cases en with
  | false => rfl
  | true => exact Memory.read_writeF_other v (h.resolve_left (by decide))

/-- Bits that were set stay set where bits are only set. -/
theorem or_and_self_left {w : Nat} (x y : BitVec w) : (x ||| y) &&& x = x := by
  apply BitVec.eq_of_getLsbD_eq
  intro i _
  rw [BitVec.getLsbD_and, BitVec.getLsbD_or, Bool.and_comm, Bool.and_or_distrib_left, Bool.and_self,
    Bool.or_eq_left_iff_imp]
  exact fun h => (Bool.and_eq_true_iff.1 h).1

section process
variable {F S D : Type} {N : Format F S D} {P : Params F} {s t : State.Of F S D}

/-! ### The counts of a call -/

/-- The counts of the outputs follow that of the symbols, by the enables (41_timing_recovery.md R132,
R153). -/
structure TrlCall.FollowsSymbols (k : TrlCall) (t : Trl F) : Prop where
  pass : k.kPass = if t.passEn then t.passCount.toNat * k.kSym else 0
  omega : k.kOmega = if t.omegaEn then k.kSym else 0
  mu : k.kMu = if t.muEn then k.kSym else 0

/-- A call starts with all counts at 0. -/
theorem TrlCall.FollowsSymbols.start (t : Trl F) : t.callStart.FollowsSymbols t :=
  ⟨by simp [Trl.callStart], by simp [Trl.callStart], by simp [Trl.callStart]⟩

/-- A committed symbol step adds one to the count of each enabled output, and `PASS_COUNT` to that of the
passthrough. -/
theorem TrlCall.FollowsSymbols.next {k : TrlCall} {t : Trl F} (h : k.FollowsSymbols t)
    (v : SymbolValues F) : (k.next t v).FollowsSymbols t := by
  refine ⟨?_, ?_, ?_⟩ <;> simp only [TrlCall.next] <;> split
  · rw [h.pass, if_pos ‹_›, Nat.mul_succ]
  · rw [h.pass, if_neg ‹_›]
  · rw [h.omega, if_pos ‹_›]
  · rw [h.omega, if_neg ‹_›]
  · rw [h.mu, if_pos ‹_›]
  · rw [h.mu, if_neg ‹_›]

/-- The loop of a `TRL.PROCESS` ends with counts that follow that of the symbols. -/
theorem processLoop_followsSymbols {limit fuel : Nat} {k : TrlCall} {c : Code}
    (hl : limit ≤ s.trl.inCount.toNat)
    (h : processLoop N P limit fuel s.trl.callStart s = .ok (k, t, c)) : k.FollowsSymbols t.trl :=
  processLoop_keeps (I := fun k u => k.FollowsSymbols u.trl)
    (fun _ _ ⟨hpass, homega, hmu⟩ => ⟨hpass, homega, hmu⟩)
    (fun k u v k' u' hg hl' hcommit hI => by
      obtain ⟨rfl, htrl⟩ := commitStep_ok hg hl' hcommit
      obtain ⟨hpass, homega, hmu⟩ := hI.next v
      rw [htrl]
      exact ⟨hpass, homega, hmu⟩) hl h (.start _)

/-! ### The frame of unit TRL -/

/-- The bits of `STATUS` that `TRL.PROCESS` can set: `NOT_READY`, `NUMERIC_FAULT` and `CURSOR_UNDERFLOW`
(10_state.md R24). -/
def processStatusBits : Word := 0x1C#32

/-- The unit `a` with the fields of `b` that `TRL.PROCESS` writes: the running fields, the counters,
`STATUS`, `LAST_CODE` and the results. -/
def Trl.withRunningOf (a b : Trl F) : Trl F :=
  { a with
    mu := b.mu, omega := b.omega, lastSample := b.lastSample, skip := b.skip, mode := b.mode,
    symbolCount := b.symbolCount, underflowCount := b.underflowCount, status := b.status,
    lastCode := b.lastCode, consumed := b.consumed, prodSym := b.prodSym, prodPass := b.prodPass,
    prodOmega := b.prodOmega, prodMu := b.prodMu }

/-- The unit `b` is `a` but for the fields that `TRL.PROCESS` writes, and of `STATUS` bits 2, 3 and 4 are
only set. -/
structure Trl.ProcessFrame (a b : Trl F) : Prop where
  fields : b = a.withRunningOf b
  status : ∃ bits, b.status = a.status ||| bits ∧ bits &&& ~~~processStatusBits = 0#32

/-- A change of those fields that leaves `STATUS`. -/
theorem Trl.ProcessFrame.of_status_eq {a b : Trl F} (fields : b = a.withRunningOf b)
    (status : b.status = a.status) : a.ProcessFrame b :=
  ⟨fields, 0#32, status.trans BitVec.or_zero.symm, BitVec.zero_and⟩

theorem Trl.ProcessFrame.refl (a : Trl F) : a.ProcessFrame a := .of_status_eq rfl rfl

theorem Trl.ProcessFrame.trans {a b c : Trl F} (hab : a.ProcessFrame b) (hbc : b.ProcessFrame c) :
    a.ProcessFrame c := by
  obtain ⟨bits, hb, hbits⟩ := hab.status
  obtain ⟨bits', hc, hbits'⟩ := hbc.status
  refine ⟨hbc.fields.trans ?_, bits ||| bits', by rw [hc, hb, BitVec.or_assoc],
    or_reserved_eq_zero hbits hbits'⟩
  rw [hab.fields]
  rfl

/-- A committed symbol step stays in the frame: of `STATUS` it sets at most `CURSOR_UNDERFLOW`. -/
theorem Trl.ProcessFrame.commit (a : Trl F) (v : SymbolValues F) (underflow : Bool) :
    a.ProcessFrame (a.commit v underflow) := by
  cases underflow with
  | false => exact .of_status_eq rfl rfl
  | true => exact ⟨rfl, _, rfl, by decide⟩

/-- Setting the bit of a code that `TRL.PROCESS` raises stays in the frame. -/
theorem Trl.ProcessFrame.raise (a : Trl F) {c : Code} (hc : c = .notReady ∨ c = .numericFault) :
    a.ProcessFrame { a with status := a.status ||| c.statusMask, lastCode := c } :=
  ⟨rfl, _, rfl, by rcases hc with rfl | rfl <;> decide⟩

/-- The loop of `TRL.PROCESS` stays in the frame. -/
theorem processLoop_frame {limit fuel : Nat} {k k' : TrlCall} {c : Code}
    (hl : limit ≤ s.trl.inCount.toNat) (h : processLoop N P limit fuel k s = .ok (k', t, c)) :
    s.trl.ProcessFrame t.trl :=
  processLoop_keeps (I := fun _ u => s.trl.ProcessFrame u.trl)
    (fun _ _ hI => hI.trans (.of_status_eq rfl rfl))
    (fun _ _ _ _ _ hg hl' hcommit hI => by
      rw [(commitStep_ok hg hl' hcommit).2]
      exact hI.trans (.commit ..)) hl h (.refl _)

/-- The loop of `TRL.PROCESS` ends with `OK` or `NUMERIC_FAULT` (41_timing_recovery.md R130). -/
theorem processLoop_code {limit fuel : Nat} {k k' : TrlCall} {c : Code}
    (hl : limit ≤ s.trl.inCount.toNat) (h : processLoop N P limit fuel k s = .ok (k', t, c)) :
    c = .ok ∨ c = .numericFault := by
  induction fuel generalizing k s with
  | zero => exact .inl (processLoop_zero_ok h).2.2.symm
  | succ fuel ih =>
    rcases processLoop_succ_cases hl h with ⟨-, -, -, rfl⟩ | ⟨-, -, -, -, rfl⟩
      | ⟨_, _, _, -, -, -, hin, hrest⟩
    · exact .inl rfl
    · exact .inr rfl
    · exact ih (hin ▸ hl) hrest

/-- `TRL.PROCESS` stays in the frame: its loop, its results and its end do (41_timing_recovery.md R130 to
R134). -/
theorem trlProcess_frame (h : trlProcess N P s = .next t) : s.trl.ProcessFrame t.trl := by
  by_cases hm : s.trl.mode = .ready
  · obtain ⟨k, s', c, hloop, heq⟩ := trlProcess_ends (N := N) (P := P) hm
    obtain rfl := Host.Outcome.next.inj (heq.symm.trans h)
    have hl := s.trl.inputLimit_le N.num P.ntaps
    have hfinish : s.trl.ProcessFrame (s'.trl.finish (s.trl.inputLimit N.num P.ntaps) k) :=
      (processLoop_frame hl hloop).trans (.of_status_eq rfl rfl)
    rcases processLoop_code hl hloop with rfl | rfl
    · rw [finishProcess_ok]
      exact hfinish.trans (.of_status_eq rfl rfl)
    · rw [finishProcess_raise _ _ (by decide)]
      exact hfinish.trans (.raise _ (.inr rfl))
  · obtain rfl := Host.Outcome.next.inj ((trlProcess_notReady hm).symm.trans h)
    exact .raise _ (.inl rfl)

/-- What `TRL.PROCESS` reports as consumed is at most the input limit of the call
(41_timing_recovery.md R133). -/
theorem finishProcess_consumed_le (limit : Nat) (k : TrlCall) (c : Code) (s : State.Of F S D) :
    (finishProcess N limit k c s).trl.consumed.toNat ≤ limit := by
  have hle : (BitVec.ofNat 32 (min k.cursor limit)).toNat ≤ limit := by
    rw [BitVec.toNat_ofNat]
    exact (Nat.mod_le _ _).trans (Nat.min_le_right _ _)
  unfold finishProcess
  split <;> exact hle

/-- A count that is 0, as a word. -/
theorem word_eq_zero_of_toNat {w : Word} (h : w.toNat = 0) : w = 0#32 := BitVec.eq_of_toNat_eq h

/-! ### The commands that leave the construction -/

/-- A command of unit ACC leaves unit TRL (20_memory.md R82). -/
theorem execOf_acc_trl {i : Instr} {d : D} (hi : i.unit = .acc) (h : execOf N P i d s = .next t) :
    t.trl = s.trl := by
  have hframe := congrArg State.Of.trl (execOf_frame h)
  rwa [hi] at hframe

/-- A property of unit TRL that CSR writes and the two ways a command ends keep is kept by every command
but `TRL.RESET`, `TRL.CONFIG` and `TRL.PROCESS`. -/
theorem execOf_keeps_trl {I : Trl F → Prop} {i : Instr} {d : D}
    (store : ∀ a csr d, I a → I (trlCsrStore N a csr d))
    (complete : ∀ a : Trl F, I a → I { a with lastCode := .ok })
    (raise : ∀ (a : Trl F) (c : Code), I a →
      I { a with status := a.status ||| c.statusMask, lastCode := c })
    (hreset : i ≠ .trlReset) (hconfig : i ≠ .trlConfig) (hprocess : i ≠ .trlProcess)
    (h : execOf N P i d s = .next t) (hs : I s.trl) : I t.trl := by
  cases i with
  | trlReset => exact absurd rfl hreset
  | trlConfig => exact absurd rfl hconfig
  | trlProcess => exact absurd rfl hprocess
  | trlForecast n =>
    obtain rfl := Host.Outcome.next.inj h
    rcases trlForecast_cases N P s n with ⟨-, heq⟩ | ⟨-, heq⟩ <;> rw [heq]
    · exact complete _ hs
    · exact raise _ _ hs
  | trlCsrr csr =>
    obtain rfl := Host.Outcome.next.inj h
    rcases trlCsrr_cases N P s csr with ⟨_, -, heq⟩ | ⟨-, heq⟩ <;> rw [heq]
    · exact complete _ hs
    · exact raise _ _ hs
  | trlCsrw csr _ =>
    obtain rfl := Host.Outcome.next.inj h
    rcases trlCsrw_cases N s csr d with ⟨_, -, -, heq⟩ | ⟨-, heq⟩ <;> rw [heq]
    · exact complete _ (store _ _ _ hs)
    · exact raise _ _ hs
  | accReset | accConfig | accSetCode | accSetThreshold _ | accSetDetectInv _ | accProcess | accCsrr _
    | accCsrw _ _ => exact execOf_acc_trl rfl h ▸ hs

/-- The two units have the same parameters of construction (41_timing_recovery.md R124). -/
structure Trl.SameParameters (a b : Trl F) : Prop where
  omegaMid : b.omegaMid = a.omegaMid
  gainMu : b.gainMu = a.gainMu
  gainOmega : b.gainOmega = a.gainOmega
  relLimit : b.relLimit = a.relLimit
  omegaLim : b.omegaLim = a.omegaLim
  passCount : b.passCount = a.passCount

/-- A CSR write reaches no parameter: those are read-only (43_csr_access.md R233). -/
theorem Trl.SameParameters.store {a b : Trl F} (csr : TrlCsr) (d : D) (h : a.SameParameters b) :
    a.SameParameters (trlCsrStore N b csr d) := by
  obtain ⟨hmid, hgm, hgo, hrl, hlim, hpass⟩ := h
  cases csr <;> exact ⟨hmid, hgm, hgo, hrl, hlim, hpass⟩

/-- The frame of `TRL.PROCESS` holds the parameters. -/
theorem Trl.ProcessFrame.sameParameters {a b : Trl F} (h : a.ProcessFrame b) : a.SameParameters b := by
  rw [h.fields]
  exact ⟨rfl, rfl, rfl, rfl, rfl, rfl⟩

/-- Every command but `TRL.CONFIG` and `TRL.RESET` leaves the parameters of unit TRL. -/
theorem execOf_sameParameters {i : Instr} {d : D} (hconfig : i ≠ .trlConfig) (hreset : i ≠ .trlReset)
    (h : execOf N P i d s = .next t) : s.trl.SameParameters t.trl := by
  by_cases hprocess : i = .trlProcess
  · subst hprocess
    exact (trlProcess_frame h).sameParameters
  · exact execOf_keeps_trl (fun _ csr d hI => hI.store csr d)
      (fun _ ⟨hmid, hgm, hgo, hrl, hlim, hpass⟩ => ⟨hmid, hgm, hgo, hrl, hlim, hpass⟩)
      (fun _ _ ⟨hmid, hgm, hgo, hrl, hlim, hpass⟩ => ⟨hmid, hgm, hgo, hrl, hlim, hpass⟩)
      hreset hconfig hprocess h ⟨rfl, rfl, rfl, rfl, rfl, rfl⟩

end process

end Sys2Proof.Machine

namespace Sys2Proof.Proofs
open Sys2Proof.Machine

/-- Settles O29: what the commit does inside the buffers, read back element by element; the cursor and the
underflow by the sign of the sum. -/
theorem commitWritesOneSymbol : Obligations.CommitWritesOneSymbol := by
  intro ntaps limit k v s hg hl hwf
  obtain ⟨m, hcommit, -, hoff, hout, hcopy⟩ := commitStep_inside (v := v) hg hl
  refine ⟨_, _, hcommit, Memory.readF_writeF_same _ _ (BuffersOf.wf_get hwf (.trl .trlSym)),
    fun hen => hcopy hen (BuffersOf.wf_get hwf (.trl .trlPass)),
    readF_ite_writeF _ (BuffersOf.wf_get hwf (.trl .trlOmega)),
    readF_ite_writeF _ (BuffersOf.wf_get hwf (.trl .trlMu)),
    fun _ => Memory.read_writeF_other _, ?_, fun _ => read_ite_writeF _, fun _ => read_ite_writeF _,
    rfl, rfl, rfl, rfl, rfl, rfl, rfl, rfl, rfl, rfl, ?_⟩
  · rintro a (hen | ha)
    · exact congrArg (Memory.read · a) (hoff hen)
    · exact hout a ha
  · simp only [TrlCall.next]
    rcases advanceCursor_cases k.cursor v.adv with ⟨hneg, heq⟩ | ⟨hnonneg, heq⟩ <;> rw [heq]
    · exact .inl ⟨hneg, rfl, rfl⟩
    · exact .inr ⟨hnonneg, Int.toNat_of_nonneg hnonneg, rfl⟩

/-- Settles O30: the input limit is the lesser of the two bounds. -/
theorem trlConsumesWithinForecast : Obligations.TrlConsumesWithinForecast := by
  intro s hm
  obtain ⟨k, s', c, -, hprocess⟩ :=
    trlProcess_ends (N := binary32Format) (P := Config.params) hm
  have hle := finishProcess_consumed_le (N := binary32Format)
    (s.trl.inputLimit binary32 Config.ntaps) k c s'
  exact ⟨_, hprocess, hle.trans (Nat.min_le_right _ _), hle.trans (Nat.min_le_left _ _)⟩

/-- Settles O31: the counts the loop ends with are within the capacities and follow that of the symbols;
the loop leaves the enables, `PASS_COUNT` and the capacities. -/
theorem trlProducesWithinCapacity : Obligations.TrlProducesWithinCapacity := by
  intro s hm
  have hl := s.trl.inputLimit_le binary32 Config.ntaps
  obtain ⟨k, s', c, hloop, hprocess⟩ :=
    trlProcess_ends (N := binary32Format) (P := Config.params) hm
  obtain ⟨hfits, -⟩ := processLoop_writes hl hloop
  obtain ⟨-, hsym, hpass, homega, hmu⟩ :=
    finishProcess_reports (N := binary32Format) (s.trl.inputLimit binary32 Config.ntaps) c hfits
  obtain ⟨fpass, fomega, fmu⟩ := processLoop_followsSymbols hl hloop
  obtain ⟨bsym, bpass, bomega, bmu⟩ := hfits
  rw [(processLoop_frame hl hloop).fields] at bsym bpass bomega bmu fpass fomega fmu
  refine ⟨_, hprocess, hsym.trans_le bsym, fun hen => ⟨?_, hpass.trans_le bpass⟩, fun hen => ?_,
    fun hen => ⟨BitVec.eq_of_toNat_eq ?_, homega.trans_le bomega⟩, fun hen => ?_,
    fun hen => ⟨BitVec.eq_of_toNat_eq ?_, hmu.trans_le bmu⟩, fun hen => ?_⟩
  · exact hpass.trans (fpass.trans ((if_pos hen).trans (congrArg _ hsym.symm)))
  · exact word_eq_zero_of_toNat (hpass.trans (fpass.trans (if_neg (Bool.eq_false_iff.1 hen))))
  · exact homega.trans (fomega.trans ((if_pos hen).trans hsym.symm))
  · exact word_eq_zero_of_toNat (homega.trans (fomega.trans (if_neg (Bool.eq_false_iff.1 hen))))
  · exact hmu.trans (fmu.trans ((if_pos hen).trans hsym.symm))
  · exact word_eq_zero_of_toNat (hmu.trans (fmu.trans (if_neg (Bool.eq_false_iff.1 hen))))

/-- Settles O34: the frame of unit TRL; a command leaves the rest of the machine. -/
theorem trlProcessFrame : Obligations.TrlProcessFrame := by
  intro s t h
  obtain ⟨fields, bits, hstatus, hbits⟩ := trlProcess_frame h
  obtain ⟨⟨hacc, -, -⟩, hinputs, -⟩ := commandsTouchOnlyTheirUnit .trlProcess s s t t h h
  refine ⟨fields, ?_, ?_, hacc.symm, hinputs⟩
  · rw [hstatus, BitVec.and_or_distrib_right]
    exact (congrArg _ hbits).trans BitVec.or_zero
  · rw [hstatus]
    exact or_and_self_left _ _

/-- Settles O33: `TRL.PROCESS` stays in its frame, and the other commands write no parameter. -/
theorem trlParametersFixedBetweenConstructions :
    Obligations.TrlParametersFixedBetweenConstructions := by
  intro i s t hconfig hreset h
  obtain ⟨d, hexec⟩ := exec_is_execOf i
  obtain ⟨hmid, hgm, hgo, hrl, hlim, hpass⟩ :=
    execOf_sameParameters hconfig hreset ((hexec s).symm.trans h)
  exact ⟨hmid, hgm, hgo, hrl, hlim, hpass⟩

end Sys2Proof.Proofs
end

section
/-!
SUPPORT. The carried skip count (41_timing_recovery.md rule R133): a call ends with its cursor less than one
advance past the input limit, so what it carries over is less than the bound of one advance (rule R147).
-/

namespace Sys2Proof.Machine

/-- The bound of the cursor advance of one symbol step (41_timing_recovery.md R147). -/
def advanceBound : Nat := 2 ^ 31

theorem advanceBound_pos : 0 < advanceBound := Nat.two_pow_pos 31

/-- The advance of a step that commits is below the bound (41_timing_recovery.md R147). -/
theorem Trl.symbolStep_adv_lt {F : Type} {K : Num F} {P : Params F} {t : Trl F} {x : List F}
    {v : SymbolValues F} (h : t.symbolStep K P x = some v) : v.adv < advanceBound :=
  (SymbolValues.fault_false (Trl.symbolStep_some h).2).2.2.1

/-- A committed symbol step leaves the cursor less than one advance past the input limit: the guard holds
it below the limit before the advance. -/
theorem TrlCall.next_cursor_lt {F : Type} {K : Num F} {P : Params F} {t : Trl F} {x : List F}
    {v : SymbolValues F} {limit : Nat} {k : TrlCall} (hg : t.guard P.ntaps limit k = true)
    (hv : t.symbolStep K P x = some v) : (k.next t v).cursor < limit + advanceBound := by
  have hcursor := (Trl.guard_iff.1 hg).2.1
  have hadv := Trl.symbolStep_adv_lt hv
  simp only [TrlCall.next]
  rcases advanceCursor_cases k.cursor v.adv with ⟨-, heq⟩ | ⟨-, heq⟩ <;> rw [heq] <;>
    simp only [advanceBound] at * <;> omega

section skip
variable {P : Params F32} {s t : State}

/-- The skip count that a call carries over from a cursor less than one advance past the limit. -/
theorem Trl.finish_skip_lt {F : Type} {limit : Nat} {k : TrlCall} (u : Trl F)
    (h : k.cursor < limit + advanceBound) : (u.finish limit k).skip.toNat < advanceBound := by
  have hskip : k.cursor - min k.cursor limit < advanceBound := by
    have := advanceBound_pos
    omega
  exact (BitVec.toNat_ofNat .. ▸ Nat.mod_le _ _).trans_lt hskip

/-- `TRL.PROCESS` keeps the skip count below the bound of one advance. -/
theorem trlProcess_skip_lt (hs : s.trl.skip.toNat < advanceBound)
    (h : trlProcess binary32Format P s = .next t) : t.trl.skip.toNat < advanceBound := by
  by_cases hm : s.trl.mode = .ready
  · have hl := s.trl.inputLimit_le binary32 P.ntaps
    obtain ⟨n, k, u, run, hend⟩ := exists_symbolRun P s.trl.callStart hl
    have hcursor : k.cursor < s.trl.inputLimit binary32 P.ntaps + advanceBound :=
      run.keeps (I := fun k _ => k.cursor < s.trl.inputLimit binary32 P.ntaps + advanceBound)
        (fun _ _ _ _ hg hv _ => TrlCall.next_cursor_lt hg hv) hl (Nat.lt_add_left _ hs)
    rcases hend with hg | ⟨hg, hv⟩
    · obtain rfl := Host.Outcome.next.inj ((run.trlProcess_completes hm hg).symm.trans h)
      exact u.trl.finish_skip_lt hcursor
    · obtain rfl := Host.Outcome.next.inj ((run.trlProcess_faults hm hg hv).symm.trans h)
      exact u.trl.finish_skip_lt hcursor
  · obtain rfl := Host.Outcome.next.inj ((trlProcess_notReady hm).symm.trans h)
    exact hs

/-- Every instruction keeps the skip count below the bound: a reset and a construction clear it, no other
command but `TRL.PROCESS` writes it. -/
theorem execOf_skip_lt {i : Instr} {d : DWord} (hs : s.trl.skip.toNat < advanceBound)
    (h : execOf binary32Format P i d s = .next t) : t.trl.skip.toNat < advanceBound := by
  by_cases hreset : i = .trlReset
  · subst hreset
    obtain rfl := Host.Outcome.next.inj h
    exact advanceBound_pos
  by_cases hconfig : i = .trlConfig
  · subst hconfig
    obtain rfl := Host.Outcome.next.inj h
    rcases trlConfig_cases binary32Format s with ⟨-, heq⟩ | ⟨-, heq⟩ <;> rw [heq]
    · exact advanceBound_pos
    · exact hs
  by_cases hprocess : i = .trlProcess
  · subst hprocess
    exact trlProcess_skip_lt hs h
  exact execOf_keeps_trl (I := fun u => u.skip.toNat < advanceBound)
    (fun _ csr _ hI => by cases csr <;> exact hI) (fun _ hI => hI) (fun _ _ hI => hI)
    hreset hconfig hprocess h hs

/-- A command at the port keeps the skip count below the bound. -/
theorem runCommandOf_skip_lt {c : Command} (hs : s.trl.skip.toNat < advanceBound)
    (h : runCommandOf binary32Format (execOf binary32Format P) c s = .next t) :
    t.trl.skip.toNat < advanceBound := by
  unfold runCommandOf at h
  split at h
  · exact execOf_skip_lt hs h
  · rename_i u _
    obtain rfl := Host.Outcome.next.inj h
    cases u <;> exact hs
  · obtain rfl := Host.Outcome.next.inj h
    exact hs

/-- An action of the host keeps the skip count below the bound: a buffer element is none of unit TRL's
fields, and power-on reset clears the count. -/
theorem runInputOf_skip_lt {input : HostInput} (hs : s.trl.skip.toNat < advanceBound)
    (h : runInputOf binary32Format (execOf binary32Format P) input s = .next t) :
    t.trl.skip.toNat < advanceBound := by
  cases input with
  | issue c => exact runCommandOf_skip_lt hs h
  | fill b i v =>
    obtain rfl := Host.Outcome.next.inj h
    cases b <;> exact hs
  | powerOn =>
    obtain rfl := Host.Outcome.next.inj h
    exact advanceBound_pos

end skip

end Sys2Proof.Machine

namespace Sys2Proof.Proofs
open Sys2Proof.Machine

/-- Settles O60, by what the step does: it waits, or carries out the host's next action. -/
theorem stepKeepsSkipBelowAdvanceBound : Obligations.StepKeepsSkipBelowAdvanceBound := by
  intro s t hs h
  rw [step_is_binary32_machine] at h
  change stepOf binary32Format (execOf binary32Format Config.params) s = .next t at h
  unfold stepOf takeInput at h
  cases hin : s.inputs with
  | nil =>
    simp only [hin] at h
    exact Host.Outcome.next.inj h ▸ hs
  | cons input rest =>
    simp only [hin] at h
    exact runInputOf_skip_lt (s := { s with inputs := rest }) hs h

end Sys2Proof.Proofs
end

section
/-!
SUPPORT. The ranges of rate and phase after a committed symbol step, in both formats (41_timing_recovery.md
rules R144, R146, R150 and R151).
-/

namespace Sys2Proof.Machine

/-- A magnitude of a finite encoding is the value of one. -/
theorem IsF32Mag.exists_value {w : Nat} (h : IsF32Mag w) :
    ∃ z : F32, f32IsFinite z = true ∧ f32Value z = (w : ℚ) / (2 ^ 149 : Nat) := by
  obtain ⟨hfin, hmag⟩ := f32Mag_round_exact h false
  refine ⟨f32Pack false (f32RoundMag w 0), by rw [f32IsFinite_round, decide_eq_true hfin], ?_⟩
  rw [f32Value_eq, f32Sign_pack (by omega), hmag]
  norm_num [signFactor]

/-- The part below the binary point of a finite magnitude has no more significant bits than the whole. -/
theorem IsF32Mag.mod {w : Nat} (h : IsF32Mag w) : IsF32Mag (w % 2 ^ 149) := by
  obtain ⟨sig, e, hsig, he, rfl⟩ := h
  rcases Nat.lt_or_ge e 149 with hlow | hhigh
  · have hplace : 2 ^ 149 = 2 ^ (149 - e) * 2 ^ e := by
      rw [← pow_add, Nat.sub_add_cancel hlow.le]
    exact ⟨sig % 2 ^ (149 - e), e, (Nat.mod_le _ _).trans_lt hsig, he,
      by rw [hplace, Nat.mul_mod_mul_right]⟩
  · have hdvd : 2 ^ 149 ∣ sig * 2 ^ e := Dvd.dvd.mul_left (Nat.pow_dvd_pow 2 hhigh) sig
    exact ⟨0, 0, by norm_num, by norm_num, by rw [Nat.mod_eq_zero_of_dvd hdvd, Nat.zero_mul]⟩

/-- The fractional part of a finite value from 0 on has an encoding of its own. -/
theorem exists_value_eq_fract {x : F32} (hx : f32IsFinite x = true) (h0 : 0 ≤ f32Value x) :
    ∃ z : F32, f32IsFinite z = true ∧ f32Value z = Int.fract (f32Value x) := by
  obtain ⟨z, hz, hval⟩ := (isF32Mag_of_finite hx).mod.exists_value
  have habs : f32Value x = (f32Mag x : ℚ) / (2 ^ 149 : Nat) := by
    rw [← abs_of_nonneg h0, f32Value_eq, abs_div, abs_mul, abs_signFactor, one_mul, Nat.abs_cast,
      Nat.cast_pow, Nat.cast_ofNat, abs_of_pos (by positivity : (0 : ℚ) < 2 ^ 149)]
  exact ⟨z, hz, by rw [hval, habs, Int.fract_div_natCast_eq_div_natCast_mod]⟩

/-- The fractional part of a finite value from 0 on is subtracted exactly, so it stays below 1. -/
theorem f32Sub_floor_lt_one {x : F32} (hx : f32IsFinite x = true) (h0 : 0 ≤ f32Value x)
    (hfin : f32IsFinite (f32Sub x (f32Floor x)) = true) : f32Value (f32Sub x (f32Floor x)) < 1 := by
  obtain ⟨z, hz, hval⟩ := exists_value_eq_fract hx h0
  obtain ⟨hffin, hfval⟩ := f32Floor_exact hx
  have hround := f32Sub_roundsTo hx hffin
  rw [hfval, f32FloorInt_eq, Int.self_sub_floor, ← hval] at hround
  calc f32Value (f32Sub x (f32Floor x)) ≤ f32Value z := hround.ge_of_ge hfin hz le_rfl
    _ = Int.fract (f32Value x) := hval
    _ < 1 := Int.fract_lt_one _

/-- Under `NUM = Binary32` a committed symbol step leaves the phase 1 only after a negative phase sum
(41_timing_recovery.md R151). -/
theorem Trl.muT_neg_of_mu_eq_one {P : Params F32} {t : Trl F32} {x : List F32} {v : SymbolValues F32}
    (h : t.symbolStep binary32 P x = some v) (hone : f32Value v.mu = 1) : f32Value v.muT < 0 := by
  obtain ⟨hv, hfault⟩ := Trl.symbolStep_some h
  obtain ⟨⟨-, -, hmuT, hmu⟩, -⟩ := SymbolValues.fault_false hfault
  have hval : v.mu = f32Sub v.muT (f32Floor v.muT) := by rw [hv]; rfl
  rw [hval] at hmu hone
  by_contra hneg
  exact (f32Sub_floor_lt_one hmuT (not_lt.1 hneg) hmu).ne hone

section exact
variable {F : Type} [Field F] [LinearOrder F] [FloorRing F] {P : Params F} {t : Trl F} {x : List F}
  {v : SymbolValues F}

/-- The rate after a committed symbol step under `NUM = Real`: the clamped deviation from the middle
rate, above 0 (41_timing_recovery.md R144, R147). -/
theorem Trl.symbolStep_exact_omega (h : t.symbolStep (exactNum F) P x = some v) :
    (∃ d, v.omega = t.omegaMid + min (max d (-t.omegaLim)) t.omegaLim) ∧ 0 < v.omega := by
  obtain ⟨hv, hfault⟩ := Trl.symbolStep_some h
  obtain ⟨-, -, -, hpos⟩ := SymbolValues.fault_false hfault
  exact ⟨⟨v.d, by rw [hv]; rfl⟩, of_decide_eq_true hpos⟩

/-- The phase after a committed symbol step under `NUM = Real`: the fractional part of the phase sum
(41_timing_recovery.md R146). -/
theorem Trl.symbolStep_exact_mu (h : t.symbolStep (exactNum F) P x = some v) :
    v.mu = Int.fract v.muT := by
  rw [(Trl.symbolStep_some h).1]
  rfl

end exact

end Sys2Proof.Machine

namespace Sys2Proof.Proofs
open Sys2Proof.Machine

/-- Settles O42: a clamp to a limit that is not negative, and the last test of R147. -/
theorem rateStaysInTheClamp : Obligations.RateStaysInTheClamp := by
  refine ⟨fun F _ _ _ _ P t x v u hmid hrel _ hlim h => ?_, fun P t x v u h =>
    (Trl.symbolStep_ranges h).2.1⟩
  obtain ⟨⟨d, homega⟩, hpos⟩ := Trl.symbolStep_exact_omega h
  have hnonneg : 0 ≤ t.omegaLim := hlim ▸ mul_nonneg (zero_le_one.trans hmid) hrel
  have hlow : -t.omegaLim ≤ min (max d (-t.omegaLim)) t.omegaLim :=
    le_min (le_max_right _ _) (neg_le_self hnonneg)
  have hhigh : min (max d (-t.omegaLim)) t.omegaLim ≤ t.omegaLim := min_le_right _ _
  rw [Trl.commit_omega]
  exact ⟨by rw [homega]; linarith, by rw [homega]; linarith, hpos⟩

/-- Settles O43: the fractional part of the phase sum, exact in both formats where the sum is not
negative. -/
theorem phaseStaysInRange : Obligations.PhaseStaysInRange := by
  refine ⟨fun F _ _ _ _ P t x v u h => ?_, fun P t x v u h => ?_⟩
  · rw [Trl.commit_mu, Trl.symbolStep_exact_mu h]
    exact ⟨Int.fract_nonneg _, Int.fract_lt_one _⟩
  · obtain ⟨-, -, hmu0, hmu1⟩ := Trl.symbolStep_ranges h
    exact ⟨hmu0, hmu1, Trl.muT_neg_of_mu_eq_one h⟩

end Sys2Proof.Proofs
end

section
/-!
SUPPORT. All that a symbol step says (41_timing_recovery.md rules R140 to R147): first over any numeric
format, value by value; then in the two formats. And the products by `sgn` in the timing error (R142), which
are exact under `NUM = Binary32`.
-/

namespace Sys2Proof.Machine

section format
variable {F : Type} {K : Num F} {P : Params F} {t : Trl F} {x : List F} {v : SymbolValues F}

/-- The values of a symbol step are those of the rules, each from the ones before it
(41_timing_recovery.md R142 to R146). -/
theorem Trl.eq_loopValues_iff {y : F} :
    v = t.loopValues K y ↔
      v.y = y
      ∧ v.e = timingError K t.lastSample v.y
      ∧ v.uOmega = K.fmul t.gainOmega v.e
      ∧ v.uMu = K.fmul t.gainMu v.e
      ∧ v.omegaT = K.fadd t.omega v.uOmega
      ∧ v.d = K.fsub v.omegaT t.omegaMid
      ∧ v.dPlus = K.fadd v.d t.omegaLim
      ∧ v.dMinus = K.fsub v.d t.omegaLim
      ∧ v.clipd = K.clip v.d t.omegaLim
      ∧ v.omega = K.fadd t.omegaMid v.clipd
      ∧ v.muT = K.fadd (K.fadd t.mu v.omega) v.uMu
      ∧ v.advF = K.ffloor v.muT
      ∧ v.adv = K.floorInt v.muT
      ∧ v.mu = K.fsub v.muT v.advF := by
  constructor
  · rintro rfl
    exact ⟨rfl, rfl, rfl, rfl, rfl, rfl, rfl, rfl, rfl, rfl, rfl, rfl, rfl, rfl⟩
  · obtain ⟨_, _, _, _, _, _, _, _, _, _, _, _, _, _⟩ := v
    simp only
    rintro ⟨rfl, rfl, rfl, rfl, rfl, rfl, rfl, rfl, rfl, rfl, rfl, rfl, rfl, rfl⟩
    rfl

/-- The values of a symbol step that R147 asks to be finite. -/
def SymbolValues.checked (v : SymbolValues F) : List F :=
  [v.y, v.e, v.uOmega, v.uMu, v.omegaT, v.d, v.dPlus, v.dMinus, v.clipd, v.omega, v.muT, v.mu]

/-- The faults of a symbol step, test by test (41_timing_recovery.md R147). -/
theorem SymbolValues.fault_eq_false_iff :
    v.fault K = false ↔
      (∀ z ∈ v.checked, K.isfinite z = true)
      ∧ -2 ^ 31 ≤ v.adv ∧ v.adv < 2 ^ 31 ∧ K.flt K.zero v.omega = true := by
  simp only [SymbolValues.fault, SymbolValues.checked, List.forall_mem_cons, List.not_mem_nil,
    Bool.or_eq_false_iff, Bool.not_eq_false', Bool.and_eq_true, decide_eq_false_iff_not, not_lt,
    not_le, and_assoc, IsEmpty.forall_iff, implies_true, and_true]

/-- A symbol step commits exactly the values of the rules, and those only where none faults. -/
theorem Trl.symbolStep_eq_some_iff :
    t.symbolStep K P x = some v ↔
      v = t.loopValues K (t.interpolate K P x) ∧ v.fault K = false := by
  refine ⟨Trl.symbolStep_some, ?_⟩
  rintro ⟨rfl, hfault⟩
  simp only [Trl.symbolStep, hfault, Bool.false_eq_true, if_false]

end format

/-! ### Under `NUM = Real` -/

/-- The exact sum over a window: a window that ends early goes on with zeros
(41_timing_recovery.md R141). -/
theorem exactDot_map_range {F : Type} [Field F] (h : Nat → F) (n : Nat) (x : List F) :
    exactDot ((List.range n).map h) x = ∑ k ∈ Finset.range n, h k * x.getD k 0 := by
  induction n generalizing h x with
  | zero => simp [exactDot]
  | succ n ih =>
    rw [List.range_succ_eq_map, List.map_cons, List.map_map, Finset.sum_range_succ']
    cases x with
    | nil => simp [exactDot]
    | cons a x =>
      have hrest := ih (h ∘ Nat.succ) x
      simp only [exactDot] at hrest ⊢
      rw [List.zipWith_cons_cons, List.sum_cons, hrest, add_comm]
      rfl

/-- `sgn` under `NUM = Real` (00_scope.md R14). -/
theorem exactNum_sgn {F : Type} [Field F] [LinearOrder F] [FloorRing F] (x : F) :
    (exactNum F).sgn x = if x < 0 then -1 else 1 := by
  simp [Num.sgn, exactNum]

/-- The interpolated sample under `NUM = Real` (41_timing_recovery.md R140, R141). -/
theorem Trl.interpolate_exact {F : Type} [Field F] [LinearOrder F] [FloorRing F]
    (taps : Nat → Nat → F) (t : Trl F) (x : List F) :
    t.interpolate (exactNum F) (exactParams taps) x
      = ∑ k ∈ Finset.range Config.ntaps,
          taps (rneExact ((Config.nsteps : F) * t.mu)).toNat k * x.getD k 0 :=
  exactDot_map_range _ _ _

/-- The timing error under `NUM = Real` (41_timing_recovery.md R142). -/
theorem timingError_exact {F : Type} [Field F] [LinearOrder F] [FloorRing F] (last y : F) :
    timingError (exactNum F) last y
      = (if last < 0 then -1 else 1) * y - (if y < 0 then -1 else 1) * last := by
  rw [← exactNum_sgn, ← exactNum_sgn]
  rfl

/-- The interpolated sample under `NUM = Binary32`: the phase is computed on the exact product
(41_timing_recovery.md R140, R141). -/
theorem Trl.interpolate_binary32 (P : Params F32) (t : Trl F32) (x : List F32) :
    t.interpolate binary32 P x = P.dot ((List.range P.ntaps).map
      (P.taps (rneExact ((P.nsteps : ℚ) * f32Value t.mu)).toNat)) x := by
  rw [← f32RneMul_eq]
  rfl

/-- The timing error under `NUM = Binary32` (41_timing_recovery.md R142). -/
theorem timingError_binary32 (last y : F32) :
    timingError binary32 last y = f32Sub
      (f32Mul (if f32Lt last 0x00000000#32 then 0xBF800000#32 else 0x3F800000#32) y)
      (f32Mul (if f32Lt y 0x00000000#32 then 0xBF800000#32 else 0x3F800000#32) last) := rfl

/-! ### Exact products under `NUM = Binary32` -/

/-- The fields of a finite encoding: a significand at the place that the exponent gives, with 24 bits unless
it stands at the lowest place. -/
theorem exists_fields_of_finite {x : F32} (h : f32IsFinite x = true) :
    ∃ sig e, sig < 2 ^ 24 ∧ e ≤ 253 ∧ (e = 0 ∨ 2 ^ 23 ≤ sig) ∧ f32Mag x = sig * 2 ^ e
      ∧ x.toNat % 2 ^ 31 = e * 2 ^ 23 + sig := by
  have hne : f32Exp x ≠ 255 := by simpa [f32IsFinite] using h
  have hexp : f32Exp x < 256 := Nat.mod_lt _ (by norm_num)
  have hfrac : f32Frac x < 2 ^ 23 := Nat.mod_lt _ (by norm_num)
  have hfields : x.toNat % 2 ^ 31 = f32Exp x * 2 ^ 23 + f32Frac x := by
    unfold f32Exp f32Frac
    omega
  by_cases h0 : f32Exp x = 0
  · exact ⟨f32Frac x, 0, by omega, by omega, .inl rfl, by simp [f32Mag, h0],
      by rw [hfields, h0]⟩
  · have hplace : f32Exp x * 2 ^ 23 + f32Frac x
        = (f32Exp x - 1) * 2 ^ 23 + (2 ^ 23 + f32Frac x) := by omega
    exact ⟨2 ^ 23 + f32Frac x, f32Exp x - 1, by omega, by omega, .inr (Nat.le_add_right _ _),
      by simp [f32Mag, h0], hfields.trans hplace⟩

/-- Rounding drops exactly the places below such a significand. -/
theorem f32Drop_of_fields {sig e : Nat} (d : Nat) (hsig : sig < 2 ^ 24) (hfull : e = 0 ∨ 2 ^ 23 ≤ sig) :
    f32Drop (sig * 2 ^ (e + d)) d = e + d := by
  have hd : d ≤ f32Drop (sig * 2 ^ (e + d)) d := le_max_left ..
  have habove := lt_of_f32Drop (sig * 2 ^ (e + d)) d
  have hbelow := le_of_f32Drop (m := sig * 2 ^ (e + d)) (d := d)
  generalize f32Drop (sig * 2 ^ (e + d)) d = drop at *
  refine le_antisymm (not_lt.1 fun hlt => ?_) ?_
  · have hmul : sig * 2 ^ (e + d) < 2 ^ 24 * 2 ^ (e + d) :=
      Nat.mul_lt_mul_of_pos_right hsig (Nat.two_pow_pos _)
    have hpow : 2 ^ (e + d + 1) ≤ 2 ^ drop := Nat.pow_le_pow_right (by norm_num) hlt
    have := hbelow (by omega)
    omega
  · rcases hfull with rfl | hfull
    · omega
    · have hmul : 2 ^ 23 * 2 ^ (e + d) ≤ sig * 2 ^ (e + d) := Nat.mul_le_mul_right _ hfull
      have hpow : 2 ^ (e + d) < 2 ^ (drop + 1) := by omega
      exact Nat.lt_succ_iff.1 ((Nat.pow_lt_pow_iff_right (by norm_num)).1 hpow)

/-- A finite magnitude, counted in finer units, rounds to the fields it came from. -/
theorem f32RoundMag_exact {x : F32} (hx : f32IsFinite x = true) (d : Nat) :
    f32RoundMag (f32Mag x * 2 ^ d) d = x.toNat % 2 ^ 31 := by
  obtain ⟨sig, e, hsig, he, hfull, hmag, hlow⟩ := exists_fields_of_finite hx
  rw [hmag, mul_assoc, ← pow_add, f32RoundMag, f32Drop_of_fields d hsig hfull,
    roundHalfEven_exact (Nat.mul_mod_left ..), Nat.mul_div_cancel _ (Nat.two_pow_pos _), hlow]
  omega

/-- A finite encoding is its sign with its magnitude rounded. -/
theorem f32_eq_pack_round {x : F32} (hx : f32IsFinite x = true) :
    x = f32Pack (f32Sign x) (f32RoundMag (f32Mag x) 0) := by
  have hround := f32RoundMag_exact hx 0
  rw [pow_zero, mul_one] at hround
  rw [hround]
  exact f32_eq_pack x

/-- A product of finite operands, the first of magnitude 1, is exact: it has the magnitude of the second. -/
theorem f32Mul_of_mag_one {a x : F32} (ha : f32IsFinite a = true) (hmag : f32Mag a = 2 ^ 149)
    (hx : f32IsFinite x = true) :
    f32Mul a x = f32Pack (f32Sign a != f32Sign x) (x.toNat % 2 ^ 31) := by
  simp only [f32Mul, f32IsNaN_of_finite ha, f32IsNaN_of_finite hx, ha, hx, hmag, Bool.or_self,
    Bool.false_eq_true, if_false, Bool.and_self, if_true]
  rw [mul_comm, f32RoundMag_exact hx]

/-- The product of a finite sample by `sgn` is the sample, or the sample with its sign bit flipped
(00_scope.md R14). -/
theorem f32Mul_sgn (s : F32) {x : F32} (hx : f32IsFinite x = true) :
    f32Mul (binary32.sgn s) x = if f32Lt s f32Zero then f32Neg x else x := by
  have hsgn : binary32.sgn s = if f32Lt s f32Zero then f32NegOne else f32One := rfl
  rw [hsgn]
  split
  · rw [f32Mul_of_mag_one (by decide) (by decide) hx, f32Neg_eq,
      show f32Sign f32NegOne = true by decide, Bool.true_bne]
  · rw [f32Mul_of_mag_one (by decide) (by decide) hx, show f32Sign f32One = false by decide,
      Bool.false_bne, ← f32_eq_pack]

/-- Adding a zero to a finite value leaves it, bit for bit, unless +0.0 is added to -0.0. -/
theorem f32Add_zero_right {x z : F32} (hx : f32IsFinite x = true) (hz : f32IsFinite z = true)
    (hmag : f32Mag z = 0) (hsign : f32Units x = 0 → (f32Sign x && f32Sign z) = f32Sign x) :
    f32Add x z = x := by
  have hunits : f32Units z = 0 := by rw [f32Units_eq, hmag]; simp
  simp only [f32Add, f32IsNaN_of_finite hx, f32IsNaN_of_finite hz, hx, hz, hunits, add_zero,
    Bool.or_self, Bool.false_eq_true, if_false, if_true]
  conv_rhs => rw [f32_eq_pack_round hx]
  by_cases h0 : f32Units x = 0
  · have hmag0 : f32Mag x = 0 := by rw [← natAbs_f32Units, h0]; rfl
    rw [if_pos h0, hsign h0, hmag0]
    rfl
  · have hneg : decide (f32Units x < 0) = f32Sign x := by
      have hpos : f32Mag x ≠ 0 := fun hm => h0 (by rw [f32Units_eq, hm]; simp)
      rw [f32Units_eq]
      cases f32Sign x with
      | false => simp [signFactor]
      | true => simp [signFactor]; omega
    rw [if_neg h0, hneg, natAbs_f32Units]

/-- The timing error of finite samples is one `fsub`: both products are exact (41_timing_recovery.md
R142). -/
theorem timingError_finite {last y : F32} (hl : f32IsFinite last = true)
    (hy : f32IsFinite y = true) :
    timingError binary32 last y
      = f32Sub (if f32Lt last f32Zero then f32Neg y else y)
          (if f32Lt y f32Zero then f32Neg last else last) :=
  congrArg₂ f32Sub (f32Mul_sgn last hy) (f32Mul_sgn y hl)

/-- The first timing error after a construction is the sample itself (41_timing_recovery.md R123, R142):
the difference takes away a zero, and +0.0 from a sample that is not below 0. -/
theorem timingError_zero {y : F32} (hy : f32IsFinite y = true) :
    timingError binary32 f32Zero y = y := by
  rw [timingError_finite (by decide) hy, if_neg (by decide), f32Sub]
  by_cases hneg : f32Lt y f32Zero = true
  · rw [if_pos hneg]
    have hlt : f32Value y < 0 := f32Value_zero ▸ (f32Lt_iff hy (by decide)).1 hneg
    exact f32Add_zero_right hy (by decide) (by decide)
      fun h0 => absurd hlt (by rw [f32Value, h0]; simp)
  · rw [if_neg hneg]
    exact f32Add_zero_right hy (by decide) (by decide)
      fun _ => (congrArg _ (by decide : f32Sign (f32Neg f32Zero) = true)).trans (Bool.and_true _)

end Sys2Proof.Machine

namespace Sys2Proof.Proofs
open Sys2Proof.Machine

/-- Settles O41: the symbol step of any format, value by value and fault by fault, read in the two formats;
and the exact products of the timing error. -/
theorem symbolStepComputesItsValues : Obligations.SymbolStepComputesItsValues := by
  refine ⟨fun P t x v => ?_, fun F _ _ _ _ taps t x v => ?_, fun _ _ => timingError_finite,
    fun _ => timingError_zero⟩
  · rw [Trl.symbolStep_eq_some_iff, Trl.eq_loopValues_iff, SymbolValues.fault_eq_false_iff,
      Trl.interpolate_binary32, timingError_binary32, ← f32FloorInt_eq]
    refine and_congr ?_ (and_congr_right fun hfin => and_congr_right fun _ => and_congr_right fun _ => ?_)
    · simp only [binary32, and_congr_right_iff]
      intro _ _ _ _ _ _ hplus hminus
      rw [hplus, hminus]
      rfl
    · have homega : f32IsFinite v.omega = true := hfin _ (by simp [SymbolValues.checked])
      rw [← f32Value_zero]
      exact f32Lt_iff (by decide) homega
  · rw [Trl.symbolStep_eq_some_iff, Trl.eq_loopValues_iff, SymbolValues.fault_eq_false_iff,
      Trl.interpolate_exact, timingError_exact]
    have hfin : ∀ z ∈ v.checked, (exactNum F).isfinite z = true := fun _ _ => rfl
    refine and_congr ?_ ((and_iff_right hfin).trans
      (and_congr_right fun _ => and_congr_right fun _ => decide_eq_true_iff))
    simp only [exactNum, and_congr_right_iff]
    intro _ _ _ _ _ _ _ _ _ _ _ hfloor _
    rw [hfloor]
    rfl

end Sys2Proof.Proofs
end

section
/-!
SUPPORT. The commands that construct unit ACC and set its parameters (42_access_code_correlator.md rules
R182 to R185), and the code fields by the characters of the staging string (R190).
-/

namespace Sys2Proof.Machine

/-- Character `i` of the staging string, bit by bit of the pattern (42_access_code_correlator.md R190). -/
theorem Acc.getLsbD_accessCode_loadCode (a : Acc) {n : Nat} (hn : n ≤ 64) (i : Fin 64) :
    (a.loadCode n).accessCode.getLsbD (63 - i.val)
      = (decide (i.val < n) && (a.codeStr[i]).getLsbD 0) := by
  have hchar : a.codeStr.getD (63 - (63 - i.val)) 0 = a.codeStr[i] := by
    simp [show 63 - (63 - i.val) = i.val by omega, Vector.getD]
  have hplace : 64 - n ≤ 63 - i.val ↔ i.val < n := by omega
  show (a.codeBits n).getLsbD (63 - i.val) = _
  rw [a.getLsbD_codeBits hn (by omega), hchar, decide_eq_decide.2 hplace]

/-- A command that loads a code of a length up to 64 completes (42_access_code_correlator.md R182,
R183). -/
theorem accLoad_accepts {F S D : Type} {N : Format F S D} {s : State.Of F S D}
    (h : s.acc.codeLen.toNat ≤ 64) (a : Acc) :
    accLoad N a s = complete .acc (N.ofBits 0) (s.setAcc a) := if_neg h.not_gt

/-- A command that loads a code of a length over 64 raises `INVALID_PARAM` (42_access_code_correlator.md
R182, R183). -/
theorem accLoad_rejects {F S D : Type} {N : Format F S D} {s : State.Of F S D}
    (h : 64 < s.acc.codeLen.toNat) (a : Acc) :
    accLoad N a s = raise N .acc .invalidParam s := if_pos h

/-- The word of `ACC.SET_THRESHOLD` takes its operand from `D[31:0]` (30_encoding.md R94, R95). -/
theorem decode_accSetThreshold (d : DWord) :
    decode ⟨0x23000000#32, d⟩ = .instr (.accSetThreshold (d.setWidth 32)) := by
  have hword : (0x23000000#32 : Word) = formatC UnitId.acc.code 0x3#4 0#12 := by decide
  rw [hword, decode_formatC, ← low_word_eq_truncate]
  rfl

/-- The word of `ACC.SET_DETECT_INV` takes its operand from `D[0]` (30_encoding.md R94, R95). -/
theorem decode_accSetDetectInv (d : DWord) :
    decode ⟨0x24000000#32, d⟩ = .instr (.accSetDetectInv (d.getLsbD 0)) := by
  have hword : (0x24000000#32 : Word) = formatC UnitId.acc.code 0x4#4 0#12 := by decide
  rw [hword, decode_formatC]
  rfl

end Sys2Proof.Machine

namespace Sys2Proof.Proofs
open Sys2Proof.Machine

/-- Settles O23: the pattern and the mask bit by bit, the other fields as `load_code` writes them. -/
theorem loadCodeDerivesTheFields : Obligations.LoadCodeDerivesTheFields := by
  intro a n hn
  obtain ⟨-, -, -, -, hflag⟩ := a.codeInv_loadCode hn
  refine ⟨?_, a.getLsbD_accessCode_loadCode hn, fun j => getLsbD_codeMask j.isLt, fun j => ?_, hflag, rfl⟩
  · exact (BitVec.toNat_ofNat ..).trans (Nat.mod_eq_of_lt (by omega))
  · show (~~~(a.codeBits n)).getLsbD j.val = !(a.codeBits n).getLsbD j.val
    rw [BitVec.getLsbD_not, decide_eq_true j.isLt, Bool.true_and]

/-- Settles O21: both commands load a code, of an accepted or of a rejected length. -/
theorem accConfigAndSetCodeLoadTheCode : Obligations.AccConfigAndSetCodeLoadTheCode :=
  fun s => ⟨
    fun h => ⟨congrArg _ (accLoad_accepts h _), congrArg _ (accLoad_accepts h _)⟩,
    fun h => ⟨congrArg _ ((accLoad_rejects h _).trans (raise_eq_raised .acc .invalidParam s)),
      congrArg _ ((accLoad_rejects h _).trans (raise_eq_raised .acc .invalidParam s))⟩⟩

/-- Settles O22: the commands complete in every mode, and the port runs them with their bits of `D`. -/
theorem accSettersStoreTheirOperand : Obligations.AccSettersStoreTheirOperand :=
  fun _ => ⟨fun _ => rfl, fun _ => rfl,
    fun d _ hissue => (step_issue hissue).trans (runCommand_instr (decode_accSetThreshold d) _),
    fun d _ hissue => (step_issue hissue).trans (runCommand_instr (decode_accSetDetectInv d) _)⟩

end Sys2Proof.Proofs
end

section
/-!
SUPPORT. The tests of the bit step (42_access_code_correlator.md rules R201 to R203): each distance by the
places of the mask where the register and a pattern differ, and the polarity by the two tests.
-/

namespace Sys2Proof.Machine

/-- `popcount` counts the places that hold a 1 (00_scope.md R9). -/
theorem popcount_eq_card (v : DWord) :
    popcount v = (Finset.univ.filter fun j : Fin 64 => v.getLsbD j.val = true).card := by
  have hsum (n : Nat) : popcountLow v n = ∑ j ∈ Finset.range n, (v.getLsbD j).toNat := by
    induction n with
    | zero => rfl
    | succ n ih => rw [popcountLow, ih, Finset.sum_range_succ]
  rw [popcount, hsum, Finset.card_filter, ← Fin.sum_univ_eq_sum_range fun j => (v.getLsbD j).toNat]
  exact Finset.sum_congr rfl fun j _ => by cases v.getLsbD j.val <;> rfl

/-- The places under the mask where `DATA_REG` differs from a pattern (42_access_code_correlator.md
R201). -/
def Acc.differingPlaces (a : Acc) (pattern : DWord) : Finset (Fin 64) :=
  Finset.univ.filter fun j =>
    a.mask.getLsbD j.val = true ∧ a.dataReg.getLsbD j.val ≠ pattern.getLsbD j.val

/-- The masked distance to a pattern counts the differing places. -/
theorem Acc.popcount_masked_xor (a : Acc) (pattern : DWord) :
    popcount ((a.dataReg ^^^ pattern) &&& a.mask) = (a.differingPlaces pattern).card := by
  rw [popcount_eq_card, Acc.differingPlaces]
  refine congrArg Finset.card (Finset.filter_congr fun j _ => ?_)
  rw [BitVec.getLsbD_and, BitVec.getLsbD_xor, Bool.and_eq_true, and_comm, bne_iff_ne]

/-- `wrong` counts the places that differ from the active pattern (42_access_code_correlator.md R201). -/
theorem Acc.wrong_eq_card (a : Acc) : a.wrong = (a.differingPlaces a.activeCode).card :=
  a.popcount_masked_xor _

/-- `wrong_inv` counts the places that differ from the complementary pattern
(42_access_code_correlator.md R201). -/
theorem Acc.wrongInv_eq_card (a : Acc) : a.wrongInv = (a.differingPlaces a.compCode).card :=
  a.popcount_masked_xor _

/-- The two patterns are complements of each other, whichever is active (10_state.md R43). -/
theorem Acc.CodeInv.compCode_eq {a : Acc} (h : a.CodeInv) : a.compCode = ~~~a.activeCode := by
  obtain ⟨-, -, -, hinv, -⟩ := h
  rw [Acc.compCode, Acc.activeCode, hinv]
  cases a.invert with
  | false => rfl
  | true => exact (BitVec.not_not ..).symm

/-- The mask holds `LEN` places (10_state.md R43). -/
theorem Acc.CodeInv.card_mask {a : Acc} (h : a.CodeInv) :
    (Finset.univ.filter fun j : Fin 64 => a.mask.getLsbD j.val = true).card = a.len.toNat := by
  obtain ⟨hlen, hmask, -⟩ := h
  have hplaces : (Finset.univ.filter fun j : Fin 64 => a.mask.getLsbD j.val = true)
      = Finset.univ.filter fun j : Fin 64 => ¬ j.val < 64 - a.len.toNat :=
    Finset.filter_congr fun j _ => by rw [hmask, decide_eq_true_iff, not_lt]
  have htotal := Finset.card_filter_add_card_filter_not (s := Finset.univ)
    fun j : Fin 64 => j.val < 64 - a.len.toNat
  rw [Fin.card_filter_val_lt, Finset.card_univ, Fintype.card_fin] at htotal
  rw [hplaces]
  omega

/-- Every place under the mask differs from exactly one of the two patterns (42_access_code_correlator.md
R201). -/
theorem Acc.CodeInv.wrong_add_wrongInv {a : Acc} (h : a.CodeInv) :
    a.wrong + a.wrongInv = a.len.toNat := by
  have hcomp : a.differingPlaces a.compCode = Finset.univ.filter fun j : Fin 64 =>
      a.mask.getLsbD j.val = true ∧ ¬ a.dataReg.getLsbD j.val ≠ a.activeCode.getLsbD j.val :=
    Finset.filter_congr fun j _ => and_congr_right fun _ => by
      rw [h.compCode_eq, BitVec.getLsbD_not, decide_eq_true j.isLt, Bool.true_and, ne_eq,
        Bool.eq_not, ne_eq]
  rw [a.wrong_eq_card, a.wrongInv_eq_card, hcomp, Acc.differingPlaces, ← Finset.filter_filter,
    ← Finset.filter_filter, Finset.card_filter_add_card_filter_not, h.card_mask]

/-- `match` is the distance within the threshold (42_access_code_correlator.md R202). -/
theorem Acc.isMatch_iff (a : Acc) : a.isMatch = true ↔ a.wrong ≤ a.threshold.toNat :=
  decide_eq_true_iff

/-- `match_inv` is the other distance within the threshold, where detection is on
(42_access_code_correlator.md R202). -/
theorem Acc.isMatchInv_iff (a : Acc) :
    a.isMatchInv = true ↔ a.detectInv = true ∧ a.wrongInv ≤ a.threshold.toNat := by
  rw [Acc.isMatchInv, Bool.and_eq_true, decide_eq_true_iff]

end Sys2Proof.Machine

namespace Sys2Proof.Proofs
open Sys2Proof.Machine

/-- Settles O44: the sum bounds both distances. -/
theorem hammingDistancesAddUpToLength : Obligations.HammingDistancesAddUpToLength := by
  refine fun a => ⟨a.wrong_eq_card, a.wrongInv_eq_card, fun h => ?_⟩
  have hsum := h.wrong_add_wrongInv
  exact ⟨hsum ▸ Nat.le_add_right .., hsum ▸ Nat.le_add_left .., hsum⟩

/-- Settles O45: the tests by the counted places; no distance exceeds `LEN`. -/
theorem matchIsWithinThreshold : Obligations.MatchIsWithinThreshold := by
  refine fun a => ⟨?_, ?_, fun h hlen => ?_⟩
  · rw [a.isMatch_iff, a.wrong_eq_card]
    rfl
  · rw [a.isMatchInv_iff, a.wrongInv_eq_card]
    rfl
  · have hsum := h.wrong_add_wrongInv
    refine ⟨a.isMatch_iff.2 (by omega), Bool.eq_iff_iff.2 ?_⟩
    exact a.isMatchInv_iff.trans (and_iff_left (by omega))

/-- Settles O46: the resolver's answer in each of the four cases. -/
theorem polarityStateMachine : Obligations.PolarityStateMachine := by
  intro a b
  simp only [Acc.bitStep_invert, Acc.resolve]
  refine ⟨fun hm hi => ?_, fun hm hi => ?_, fun hm hi => ?_, fun hm hi => ?_⟩
  · simp [hm, hi]
  · cases a.invert <;> simp [hm, hi]
  · cases a.invert <;> simp [hm, hi]
  · simp [hm, hi]

end Sys2Proof.Proofs
end

section
/-!
SUPPORT. The three sliding registers of unit ACC (42_access_code_correlator.md rules R200, R205, R210 and
R211): each bit step shifts a register by one and inserts a bit, so an inserted bit stands in place `k`
after `k` more steps.
-/

namespace Sys2Proof.Machine

/-- A register shifted by one, with a bit inserted in place 0. -/
def shiftInsert (r : DWord) (b : Bool) : DWord := r <<< 1 ||| if b then 1#64 else 0#64

@[simp] theorem getLsbD_shiftInsert_zero (r : DWord) (b : Bool) : (shiftInsert r b).getLsbD 0 = b := by
  cases b <;> simp [shiftInsert]

theorem getLsbD_shiftInsert_succ (r : DWord) (b : Bool) {j : Nat} (hj : j < 63) :
    (shiftInsert r b).getLsbD (j + 1) = r.getLsbD j := by
  have hplace : j + 1 < 64 := by omega
  cases b <;> simp [shiftInsert, hplace, BitVec.getLsbD_eq_getElem (show j < 64 by omega)]

/-- The data register takes the corrected bit (42_access_code_correlator.md R205). -/
theorem Acc.bitStep_dataReg_shiftInsert (a : Acc) (b : Bool) :
    (a.bitStep b).dataReg = shiftInsert a.dataReg (b != (a.bitStep b).invert) := by
  rw [a.bitStep_dataReg, setWidth_ofBool, shiftInsert, a.bitStep_invert]

/-- The flag register takes the flag of either match (42_access_code_correlator.md R205). -/
theorem Acc.bitStep_flagReg_shiftInsert {a : Acc} (h : a.flagBit = 1#64) (b : Bool) :
    (a.bitStep b).flagReg = shiftInsert a.flagReg (a.isMatch || a.isMatchInv) := by
  rw [a.bitStep_flagReg, h]
  rfl

/-- The inversion register takes the flag of a complementary match (42_access_code_correlator.md
R205). -/
theorem Acc.bitStep_invertReg_shiftInsert {a : Acc} (h : a.flagBit = 1#64) (b : Bool) :
    (a.bitStep b).invertReg = shiftInsert a.invertReg a.isMatchInv := by
  rw [a.bitStep_invertReg, h]
  rfl

theorem Acc.run_append (a : Acc) (bs cs : List Bool) : a.run (bs ++ cs) = (a.run bs).run cs := by
  induction bs generalizing a with
  | nil => rfl
  | cons b bs ih => exact ih (a.bitStep b)

theorem Acc.run_concat (a : Acc) (bs : List Bool) (b : Bool) :
    a.run (bs ++ [b]) = (a.run bs).bitStep b := a.run_append bs [b]

/-- No bit step writes `FLAG_BIT`. -/
theorem Acc.run_flagBit (a : Acc) (bs : List Bool) : (a.run bs).flagBit = a.flagBit := by
  induction bs generalizing a with
  | nil => rfl
  | cons b bs ih => exact (ih (a.bitStep b)).trans (a.bitStep_flagBit b)

/-- From `a` on, each bit step shifts the register `reg` by one and inserts the bit that `inserted` says,
of the unit before the step and of the raw bit. -/
def Acc.Slides (a : Acc) (reg : Acc → DWord) (inserted : Acc → Bool → Bool) : Prop :=
  ∀ (pre : List Bool) (b : Bool),
    reg ((a.run pre).bitStep b) = shiftInsert (reg (a.run pre)) (inserted (a.run pre) b)

theorem Acc.slides_dataReg (a : Acc) :
    a.Slides Acc.dataReg fun c b => b != (c.bitStep b).invert :=
  fun pre b => (a.run pre).bitStep_dataReg_shiftInsert b

theorem Acc.slides_flagReg {a : Acc} (h : a.flagBit = 1#64) :
    a.Slides Acc.flagReg fun c _ => c.isMatch || c.isMatchInv :=
  fun pre b => Acc.bitStep_flagReg_shiftInsert ((a.run_flagBit pre).trans h) b

theorem Acc.slides_invertReg {a : Acc} (h : a.flagBit = 1#64) :
    a.Slides Acc.invertReg fun c _ => c.isMatchInv :=
  fun pre b => Acc.bitStep_invertReg_shiftInsert ((a.run_flagBit pre).trans h) b

section slides
variable {a : Acc} {reg : Acc → DWord} {inserted : Acc → Bool → Bool}

/-- A bit of a sliding register stands `k` places higher after `k` steps. -/
theorem Acc.Slides.getLsbD_run (h : a.Slides reg inserted) (pre bs : List Bool) {j : Nat}
    (hj : j + bs.length < 64) :
    (reg (a.run (pre ++ bs))).getLsbD (j + bs.length) = (reg (a.run pre)).getLsbD j := by
  induction bs using List.reverseRecOn with
  | nil => rw [List.append_nil, List.length_nil, Nat.add_zero]
  | append_singleton bs b ih =>
    rw [List.length_append, List.length_singleton] at hj
    rw [← List.append_assoc, Acc.run_concat, h, List.length_append, List.length_singleton,
      ← Nat.add_assoc, getLsbD_shiftInsert_succ _ _ (by omega), ih (by omega)]

/-- The bit that a step inserts stands in place `k` after `k` more steps. -/
theorem Acc.Slides.getLsbD_inserted (h : a.Slides reg inserted) (pre : List Bool) (b : Bool)
    {mid : List Bool} (hmid : mid.length < 64) :
    (reg (a.run (pre ++ b :: mid))).getLsbD mid.length = inserted (a.run pre) b := by
  have hslid := h.getLsbD_run (pre ++ [b]) mid (j := 0) (by omega)
  rw [Nat.zero_add, List.append_assoc, List.singleton_append, Acc.run_concat, h,
    getLsbD_shiftInsert_zero] at hslid
  exact hslid

end slides

/-- The places of an output unit: the top bits of the three registers, and zeros
(42_access_code_correlator.md R200). -/
theorem Acc.getLsbD_output (a : Acc) :
    a.output.getLsbD 0 = a.dataReg.getLsbD 63 ∧ a.output.getLsbD 1 = a.flagReg.getLsbD 63
      ∧ a.output.getLsbD 2 = a.invertReg.getLsbD 63 ∧ ∀ j, 3 ≤ j → a.output.getLsbD j = false := by
  refine ⟨?_, ?_, ?_, fun j hj => ?_⟩
  · simp [Acc.output]
  · simp [Acc.output]
  · simp [Acc.output]
  · simp [Acc.output, BitVec.getLsbD_ofBool, show j ≠ 0 by omega, show j - 1 ≠ 0 by omega,
      show j - 2 ≠ 0 by omega]

/-- A step inserts its corrected bit by the polarity after the step (42_access_code_correlator.md R205,
R210). -/
theorem Acc.getLsbD_dataReg_inserted (a : Acc) (pre : List Bool) (b : Bool) {mid : List Bool}
    (hmid : mid.length < 64) :
    (a.run (pre ++ b :: mid)).dataReg.getLsbD mid.length = (b != (a.run (pre ++ [b])).invert) := by
  rw [a.slides_dataReg.getLsbD_inserted pre b hmid, Acc.run_concat]

/-- A stream split at the step `j` before its last. -/
theorem take_append_getElem_drop {α : Type} {l : List α} {j : Nat} (h : j < l.length) :
    l.take (l.length - 1 - j) ++ l[l.length - 1 - j] :: l.drop (l.length - j) = l := by
  have hsucc : l.length - j = l.length - 1 - j + 1 := by omega
  rw [hsucc, ← List.drop_eq_getElem_cons, List.take_append_drop]

end Sys2Proof.Machine

namespace Sys2Proof.Proofs
open Sys2Proof.Machine

/-- Settles O47: the registers slide, and the fields of the diagnostic depend on its test. -/
theorem bitStepEffects : Obligations.BitStepEffects := by
  intro a b hflag
  have hframe : { a.bitStep b with
      dataReg := a.dataReg, flagReg := a.flagReg, invertReg := a.invertReg, invert := a.invert,
      bitCount := a.bitCount, ambigCount := a.ambigCount, lastAmbigBit := a.lastAmbigBit,
      status := a.status } = a := by
    rw [Acc.bitStep, a.diagnose_eq]
    rfl
  rw [Acc.bitStep_flagReg_shiftInsert hflag, Acc.bitStep_invertReg_shiftInsert hflag,
    a.bitStep_dataReg_shiftInsert, a.bitStep_ambigCount, a.bitStep_lastAmbigBit, a.bitStep_status,
    ← Bool.and_eq_true]
  refine ⟨getLsbD_shiftInsert_zero _ _, getLsbD_shiftInsert_zero _ _, getLsbD_shiftInsert_zero _ _,
    fun j hj => ⟨getLsbD_shiftInsert_succ _ _ hj, getLsbD_shiftInsert_succ _ _ hj,
      getLsbD_shiftInsert_succ _ _ hj⟩,
    a.bitStep_bitCount b, fun hambig => ⟨if_pos hambig, if_pos hambig, if_pos hambig⟩,
    fun hambig => ⟨if_neg hambig, if_neg hambig, if_neg hambig⟩, hframe⟩

/-- Settles O48: bit `j` is the one that the step `j` before the last inserted; a place that no step has
reached holds a bit of the empty register. -/
theorem dataRegisterHoldsTheLastBits : Obligations.DataRegisterHoldsTheLastBits := by
  refine fun a bits j hempty hj => ⟨fun h => ?_, fun h => ?_⟩
  · have hlen : (bits.drop (bits.length - j)).length = j := by rw [List.length_drop]; omega
    have hbit := a.getLsbD_dataReg_inserted (bits.take (bits.length - 1 - j))
      bits[bits.length - 1 - j] (hlen.trans_lt hj)
    rw [take_append_getElem_drop h, hlen, List.take_concat_get',
      show bits.length - 1 - j + 1 = bits.length - j by omega] at hbit
    exact hbit
  · have hbit := a.slides_dataReg.getLsbD_run [] bits (j := j - bits.length) (by omega)
    rw [Nat.sub_add_cancel h, List.nil_append, Acc.run_nil, hempty, BitVec.getLsbD_zero] at hbit
    exact hbit

/-- Settles O49: 63 steps after its own, an inserted bit stands in place 63, which the next step puts
out. -/
theorem flagsAppearAfterSixtyFourSteps : Obligations.FlagsAppearAfterSixtyFourSteps := by
  intro a pre b mid hflag hmid
  have hlt : mid.length < 64 := by omega
  obtain ⟨hdata, hmatch, hinv, hrest⟩ := (a.run (pre ++ b :: mid)).getLsbD_output
  rw [← hmid] at hdata hmatch hinv
  exact ⟨hdata.trans (a.getLsbD_dataReg_inserted pre b hlt),
    hmatch.trans ((Acc.slides_flagReg hflag).getLsbD_inserted pre b hlt),
    hinv.trans ((Acc.slides_invertReg hflag).getLsbD_inserted pre b hlt), hrest⟩

end Sys2Proof.Proofs
end

section
/-!
SUPPORT. `ACC.PROCESS` as a stream of bit steps (42_access_code_correlator.md rules R186 and R213): one call
runs its bits, and the fields that belong to a call play no part in a bit step, so two calls run the
stream that one call runs.
-/

namespace Sys2Proof.Machine

/-- `ACC.PROCESS` of a `READY` unit runs one bit step for each unit of its call, writes their output units,
and completes (42_access_code_correlator.md R186). -/
theorem accProcess_runs {s : State} (hm : s.acc.mode = .ready) (hwf : s.bufs.wf = true) :
    ∃ m : Memory, exec .accProcess s = .next { s with
        acc := { s.acc.run (s.inputBits s.acc.callCount) with
          consumed := BitVec.ofNat 32 s.acc.callCount, produced := BitVec.ofNat 32 s.acc.callCount,
          lastCode := .ok },
        bufs := { s.bufs with accOut := m }, response := some ⟨.ok, 0#64⟩ }
      ∧ ((List.range s.acc.callCount).map fun i => Memory.read m i)
          = s.acc.outputs (s.inputBits s.acc.callCount)
      ∧ ∀ a, s.acc.callCount ≤ a → Memory.read m a = Memory.read s.bufs.accOut a := by
  obtain ⟨m, hloop, -, hframe, hout⟩ := accLoop_inside (n := s.acc.callCount) (i := 0) (s := s)
    (by simp [Acc.callCount]) (by simp [Acc.callCount])
  have hbits : s.bitsFrom 0 s.acc.callCount = s.inputBits s.acc.callCount := by
    simp only [State.Of.bitsFrom, State.inputBits, Nat.zero_add]
  rw [hbits] at hloop hout
  simp only [Nat.zero_add] at hframe hout
  refine ⟨m, ?_, hout (BuffersOf.wf_get hwf (.acc .accOut)), fun a ha => hframe a (.inr ha)⟩
  show accProcess binary32Format s = _
  rw [accProcess, if_pos hm, hloop]
  rfl

theorem Acc.run_mode (a : Acc) (bs : List Bool) : (a.run bs).mode = a.mode := by
  induction bs generalizing a with
  | nil => rfl
  | cons b bs ih => exact (ih (a.bitStep b)).trans (a.bitStep_mode b)

/-- Unit `a` with the fields that belong to a call, its counts and its code, as `c` has them. -/
def Acc.withCallOf (a c : Acc) : Acc :=
  { a with inCount := c.inCount, capOut := c.capOut, consumed := c.consumed, produced := c.produced,
           lastCode := c.lastCode }

/-- The fields of a call play no part in a bit step. -/
theorem Acc.bitStep_withCallOf (a c : Acc) (b : Bool) :
    (a.withCallOf c).bitStep b = (a.bitStep b).withCallOf c := by
  rw [Acc.bitStep, Acc.bitStep, Acc.diagnose_eq, Acc.diagnose_eq]
  rfl

/-- The fields of a call play no part in a stream. -/
theorem Acc.run_withCallOf (a c : Acc) (bs : List Bool) :
    (a.withCallOf c).run bs = (a.run bs).withCallOf c := by
  induction bs generalizing a with
  | nil => rfl
  | cons b bs ih => rw [Acc.run_cons, Acc.run_cons, Acc.bitStep_withCallOf, ih]

/-- The fields of a call play no part in the output units. -/
theorem Acc.outputs_withCallOf (a c : Acc) (bs : List Bool) :
    (a.withCallOf c).outputs bs = a.outputs bs := by
  induction bs generalizing a with
  | nil => rfl
  | cons b bs ih =>
    rw [Acc.outputs_cons, Acc.outputs_cons, Acc.bitStep_withCallOf, ih]
    rfl

/-- The output units of a stream in two parts. -/
theorem Acc.outputs_append (a : Acc) (bs cs : List Bool) :
    a.outputs (bs ++ cs) = a.outputs bs ++ (a.run bs).outputs cs := by
  induction bs generalizing a with
  | nil => rfl
  | cons b bs ih =>
    rw [List.cons_append, Acc.outputs_cons, Acc.outputs_cons, Acc.run_cons, ih, List.cons_append]

/-- The count of a call with the same number in both counts (42_access_code_correlator.md R186). -/
theorem Acc.callCount_eq {a : Acc} {n : Nat} (hn : n < 2 ^ 32) (hin : a.inCount = BitVec.ofNat 32 n)
    (hcap : a.capOut = BitVec.ofNat 32 n) : a.callCount = n := by
  rw [Acc.callCount, hin, hcap, Nat.min_self, BitVec.toNat_ofNat, Nat.mod_eq_of_lt hn]

/-- What an `ACC.PROCESS` over `n` units leaves, but for the fields of the call: the unit after the stream
of its bits, and the stream's output units. -/
theorem accProcess_stream {s t : State} {n : Nat} (hm : s.acc.mode = .ready) (hwf : s.bufs.wf = true)
    (hn : s.acc.callCount = n) (h : exec .accProcess s = .next t) :
    t.acc = (s.acc.run (s.inputBits n)).withCallOf t.acc ∧ t.acc.lastCode = .ok
      ∧ t.outputUnits n = s.acc.outputs (s.inputBits n) := by
  subst hn
  obtain ⟨m, hexec, hout, -⟩ := accProcess_runs hm hwf
  obtain rfl := Host.Outcome.next.inj (hexec.symm.trans h)
  exact ⟨rfl, rfl, hout⟩

end Sys2Proof.Machine

namespace Sys2Proof.Proofs
open Sys2Proof.Machine

/-- Settles O50: the call's count is the least of both counts. -/
theorem accProcessRunsItsBits : Obligations.AccProcessRunsItsBits :=
  fun _ hm hwf => accProcess_runs hm hwf

/-- Settles O51: each call leaves the unit after the stream of its bits, but for the fields of the call,
and the two streams in turn are the whole. -/
theorem splittingTheStreamChangesNothing : Obligations.SplittingTheStreamChangesNothing := by
  intro n m s s1 s2 t t1 t2 hnm hm hwf hwf1 hwf2 hin hcap hacc1 hbits1 hstep hstep1 hacc2 hbits2 hstep2
  have hcall1 : s1.acc = s.acc.withCallOf s1.acc := by rw [hacc1]; rfl
  have hcall2 : s2.acc = t1.acc.withCallOf s2.acc := by rw [hacc2]; rfl
  obtain ⟨hrun, hcode, hout⟩ := accProcess_stream hm hwf (Acc.callCount_eq hnm hin hcap) hstep
  obtain ⟨hrun1, -, hout1⟩ := accProcess_stream (by rw [hcall1]; exact hm) hwf1
    (Acc.callCount_eq (n := n) (by omega) (by rw [hacc1]) (by rw [hacc1])) hstep1
  have hunit1 : t1.acc = (s.acc.run (s1.inputBits n)).withCallOf t1.acc := by
    rw [hcall1, Acc.run_withCallOf] at hrun1
    exact hrun1
  have hunit2 : s2.acc = (s.acc.run (s1.inputBits n)).withCallOf s2.acc := by
    rw [hunit1] at hcall2
    exact hcall2
  obtain ⟨hrun2, hcode2, hout2⟩ := accProcess_stream
    (by rw [hunit2]; exact (s.acc.run_mode _).trans hm) hwf2
    (Acc.callCount_eq (n := m) (by omega) (by rw [hacc2]) (by rw [hacc2])) hstep2
  rw [hunit2, Acc.run_withCallOf, ← Acc.run_append, hbits1, hbits2, List.take_append_drop] at hrun2
  rw [hcall1, Acc.outputs_withCallOf] at hout1
  rw [hunit2, Acc.outputs_withCallOf] at hout2
  refine ⟨?_, ?_⟩
  · have hsame : { t2.acc with
        inCount := t.acc.inCount, capOut := t.acc.capOut, consumed := t.acc.consumed,
        produced := t.acc.produced } = t2.acc.withCallOf t.acc := by
      rw [Acc.withCallOf, hcode, ← hcode2]
    rw [hsame, hrun2]
    exact hrun.symm
  · rw [hout, hout1, hout2, ← Acc.outputs_append, hbits1, hbits2, List.take_append_drop]

end Sys2Proof.Proofs
end

section
/-!
SUPPORT. `CSRW` of both units, and `CSRR` of a number no row lists, by the rows of the CSR maps (10_state.md
R23, R28): a number no row lists names no register, and a command on it raises, as does a write to a
read-only row (43_csr_access.md R232, R233); a write to any other row stores.
-/

namespace Sys2Proof.Machine

/-! ### The numbers of the maps -/

/-- The numbers of the map of unit TRL are those 10_state.md R23 lists. -/
theorem trlNumbers_eq : trlNumbers = trlCsrMap.map (·.num) := rfl

/-- The numbers of the map of unit ACC are those 10_state.md R28 lists. -/
theorem accNumbers_eq : accNumbers = accCsrMap.map (·.num) := rfl

/-- The rows of a map that a write may not change (43_csr_access.md R233). -/
def readOnlyRows {Csr : Type} (rows : List (CsrRow Csr)) : List (CsrRow Csr) :=
  rows.filter fun r => decide (r.access = .ro)

theorem mem_readOnlyRows {Csr : Type} {rows : List (CsrRow Csr)} {r : CsrRow Csr} :
    r ∈ readOnlyRows rows ↔ r ∈ rows ∧ r.access = .ro := by
  rw [readOnlyRows, List.mem_filter, decide_eq_true_iff]

theorem trlReadOnlyNumbers_eq : trlReadOnlyNumbers = (readOnlyRows trlCsrMap).map (·.num) := rfl

theorem accReadOnlyNumbers_eq : accReadOnlyNumbers = (readOnlyRows accCsrMap).map (·.num) := rfl

/-- A number of a read-only row is that row's number as a command carries it. -/
theorem exists_readOnlyRow {Csr : Type} {rows : List (CsrRow Csr)} {n : BitVec 12}
    (h : n.toNat ∈ (readOnlyRows rows).map (·.num)) :
    ∃ r ∈ rows, r.access = .ro ∧ r.field = n := by
  obtain ⟨r, hr, hnum⟩ := List.mem_map.1 h
  obtain ⟨hmap, hro⟩ := mem_readOnlyRows.1 hr
  exact ⟨r, hmap, hro, by rw [CsrRow.field, hnum, BitVec.ofNat_toNat, BitVec.setWidth_eq]⟩

/-- Looking up a number that no row has finds no row. -/
theorem find_row_eq_none {Csr : Type} {rows : List (CsrRow Csr)} {k : Nat}
    (h : k ∉ rows.map (·.num)) : (rows.find? fun r => r.num == k) = none := by
  rw [List.find?_eq_none]
  intro r hr hnum
  exact h (List.mem_map.2 ⟨r, hr, eq_of_beq hnum⟩)

/-- A number not listed names no register of unit TRL (43_csr_access.md R232). -/
theorem trlCsrOf_unlisted {n : BitVec 12} (h : n.toNat ∉ trlNumbers) : trlCsrOf n = none :=
  find_row_eq_none (trlNumbers_eq ▸ h)

/-- A number not listed, and outside `CODESTR`, names no register of unit ACC (43_csr_access.md R232). -/
theorem accCsrOf_unlisted {n : BitVec 12} (h : n.toNat ∉ accNumbers)
    (hcode : n.toNat < 0x100 ∨ 0x13F < n.toNat) : accCsrOf n = none := by
  rw [accCsrOf, if_neg (by omega)]
  exact find_row_eq_none (accNumbers_eq ▸ h)

/-- The read-write rows of the map of unit ACC (10_state.md R28). -/
def accReadWriteRows : List (CsrRow AccCsr) := accCsrMap.filter fun r => decide (r.access = .rw)

/-! ### The commands, by the row a number names -/

section commands
variable {F S D : Type} (N : Format F S D) (P : Params F) (s : State.Of F S D) {n : BitVec 12}

theorem trlCsrr_unlisted (h : trlCsrOf n = none) : trlCsrr N P n s = raise N .trl .illegalCmd s := by
  simp only [trlCsrr, h]

theorem accCsrr_unlisted (h : accCsrOf n = none) : accCsrr N n s = raise N .acc .illegalCmd s := by
  simp only [accCsrr, h]

/-- `TRL.CSRW` of a number that names no register, or a read-only one, raises
(43_csr_access.md R232, R233). -/
theorem trlCsrw_raises (h : ∀ r, trlCsrOf n = some r → r.access = .ro) (d : D) :
    trlCsrw N n d s = raise N .trl .illegalCmd s := by
  obtain ⟨r, hr, hwritable, -⟩ | ⟨-, heq⟩ := trlCsrw_cases N s n d
  · exact absurd (h r hr) hwritable
  · exact heq

/-- `ACC.CSRW` of a number that names no register, or a read-only one, raises
(43_csr_access.md R232, R233). -/
theorem accCsrw_raises (h : ∀ r, accCsrOf n = some r → r.access = .ro) (d : DWord) :
    accCsrw N n d s = raise N .acc .illegalCmd s := by
  obtain ⟨r, hr, hwritable, -⟩ | ⟨-, heq⟩ := accCsrw_cases N s n d
  · exact absurd (h r hr) hwritable
  · exact heq

/-- `TRL.CSRW` of a number that names a register which is not read-only stores into it and completes
(43_csr_access.md R231). -/
theorem trlCsrw_named {r : CsrRow TrlCsr} (h : trlCsrOf n = some r) (hwritable : r.access ≠ .ro)
    (d : D) :
    trlCsrw N n d s = complete .trl (N.ofBits 0) (s.setTrl (trlCsrStore N s.trl r.csr d)) := by
  simp only [trlCsrw, h, if_neg hwritable]

/-- `ACC.CSRW` of a number that names a register which is not read-only stores into it and completes
(43_csr_access.md R231). -/
theorem accCsrw_named {r : CsrRow AccCsr} (h : accCsrOf n = some r) (hwritable : r.access ≠ .ro)
    (d : DWord) :
    accCsrw N n d s = complete .acc (N.ofBits 0) (s.setAcc (accCsrStore s.acc r.csr d)) := by
  simp only [accCsrw, h, if_neg hwritable]

/-- `ACC.CSRW` of a read-write row of the map stores into its register and completes
(43_csr_access.md R231). -/
theorem accCsrw_row {r : CsrRow AccCsr} (h : r ∈ accReadWriteRows) (d : DWord) :
    accCsrw N r.field d s = complete .acc (N.ofBits 0) (s.setAcc (accCsrStore s.acc r.csr d)) := by
  obtain ⟨hmap, hrw⟩ := List.mem_filter.1 h
  exact accCsrw_named N s (accCsrOf_field r hmap) (by rw [of_decide_eq_true hrw]; decide) d

end commands

/-! ### Truncation and clearing -/

/-- The low byte of a data word is its truncation (00_scope.md R10). -/
theorem low_byte_eq_truncate (d : DWord) : d.extractLsb' 0 8 = d.setWidth 8 :=
  (BitVec.setWidth_eq_extractLsb' (by decide)).symm

/-- A register whose bits outside `bits` are 0 has no bit in a mask outside `bits`. -/
theorem and_outside_eq_zero {w : Nat} {x bits m : BitVec w} (hx : x &&& ~~~bits = 0#w)
    (hm : ~~~bits &&& m = m) : x &&& m = 0#w := by
  rw [← hm, ← BitVec.and_assoc, hx, BitVec.zero_and]

end Sys2Proof.Machine

namespace Sys2Proof.Proofs
open Sys2Proof.Machine

/-- Settles O14: no row of either map has the number, so it names no register. -/
theorem unknownCsrRaisesIllegal : Obligations.UnknownCsrRaisesIllegal := by
  refine ⟨fun n d s hlist => ?_, fun n d s hlist hcode => ?_⟩
  · have hnone := trlCsrOf_unlisted hlist
    have hro : ∀ r, trlCsrOf n = some r → r.access = .ro := by simp [hnone]
    exact ⟨congrArg _ ((trlCsrr_unlisted _ _ s hnone).trans (raise_eq_raised .trl .illegalCmd s)),
      congrArg _ ((trlCsrw_raises _ s hro d).trans (raise_eq_raised .trl .illegalCmd s))⟩
  · have hnone := accCsrOf_unlisted hlist hcode
    have hro : ∀ r, accCsrOf n = some r → r.access = .ro := by simp [hnone]
    exact ⟨congrArg _ ((accCsrr_unlisted _ s hnone).trans (raise_eq_raised .acc .illegalCmd s)),
      congrArg _ ((accCsrw_raises _ s hro d).trans (raise_eq_raised .acc .illegalCmd s))⟩

/-- Settles O15: the numbers of the statement are those of the read-only rows, and each names its row. -/
theorem readOnlyWriteRaisesIllegal : Obligations.ReadOnlyWriteRaisesIllegal := by
  refine ⟨fun n d s hlist => ?_, fun n d s hlist => ?_⟩
  · obtain ⟨r, hmap, hro, rfl⟩ := exists_readOnlyRow (trlReadOnlyNumbers_eq ▸ hlist)
    have hnamed : ∀ q, trlCsrOf r.field = some q → q.access = .ro := by
      simp [trlCsrOf_field r hmap, hro]
    exact congrArg _ ((trlCsrw_raises _ s hnamed d).trans (raise_eq_raised .trl .illegalCmd s))
  · obtain ⟨r, hmap, hro, rfl⟩ := exists_readOnlyRow (accReadOnlyNumbers_eq ▸ hlist)
    have hnamed : ∀ q, accCsrOf r.field = some q → q.access = .ro := by
      simp [accCsrOf_field r hmap, hro]
    exact congrArg _ ((accCsrw_raises _ s hnamed d).trans (raise_eq_raised .acc .illegalCmd s))

/-- Settles O17: the rows of the statement are the read-write rows of the map, each with what a write
stores, and `CODESTR` follows by its range of numbers. -/
theorem accCsrwStoresTruncated : Obligations.AccCsrwStoresTruncated := by
  refine fun s d => ⟨fun row hrow => ?_, fun i => ?_⟩
  · simp only [← low_word_eq_truncate] at hrow
    obtain ⟨r, hr, rfl⟩ : ∃ r ∈ accReadWriteRows, (r.field, accCsrStore s.acc r.csr d) = row :=
      List.mem_map.1 hrow
    exact congrArg _ (accCsrw_row binary32Format s hr d)
  · rw [← low_byte_eq_truncate]
    exact congrArg _ (accCsrw_named binary32Format s (accCsrOf_codeStr i) nofun d)

/-- Settles O18: number 0x002 names `STATUS` in both units, a write there clears the bits of the word, and
0x3F holds every bit either unit has. -/
theorem statusIsWriteOneToClear : Obligations.StatusIsWriteOneToClear := by
  refine fun s d => ⟨?_, ?_, fun ⟨htrl, _, _, hacc, _⟩ => ⟨?_, ?_⟩⟩
  · rw [← low_word_eq_truncate]
    exact congrArg Host.Outcome.next (trlCsrw_named binary32Format s
      (trlCsrOf_field ⟨0x002, .status, .w1c⟩ (by decide)) (by decide) d)
  · rw [← low_word_eq_truncate]
    exact congrArg Host.Outcome.next (accCsrw_named binary32Format s
      (accCsrOf_field ⟨0x002, .status, .w1c⟩ (by decide)) (by decide) d)
  · exact and_outside_eq_zero htrl (by decide)
  · exact and_outside_eq_zero hacc (by decide)

end Sys2Proof.Proofs
end

section
/-!
SUPPORT. A bad `UNIT` field at the port (60_exceptions.md R254), and the interrupt lines (60_exceptions.md
R265) as facts on the bits of `STATUS` and `IRQ_EN`.
-/

namespace Sys2Proof.Machine

/-- A command at the port whose word names no unit is answered, and does nothing else. -/
theorem runCommand_badUnit {c : Command} (h : decode c = .badUnit) (s : State) :
    runCommand c s = .next (s.respond .illegalCmd (binary32Format.ofBits 0)) := by
  simp only [runCommand, runCommandOf, binary32Format_bitsOf, h]

/-- A word whose top hex digit is neither unit's names no unit (30_encoding.md R92, R96). -/
theorem unitField_ne_code {w : Word} (htrl : w.toNat / 2 ^ 28 ≠ 1) (hacc : w.toNat / 2 ^ 28 ≠ 2)
    (u : UnitId) : unitField w ≠ u.code := by
  obtain ⟨hunit, -⟩ := fields_toNat w
  intro hu
  have hnum : w.toNat / 2 ^ 28 = u.code.toNat := hunit.symm.trans (congrArg BitVec.toNat hu)
  cases u with
  | trl => exact htrl hnum
  | acc => exact hacc hnum

/-! ### The interrupt lines -/

section lines
variable {F S D : Type} {s : State.Of F S D}

theorem irqTrl_eq_true_iff : irqTrl s = true ↔ s.trl.status &&& s.trl.irqEn ≠ 0#32 := bne_iff_ne

theorem irqTrl_eq_false_iff : irqTrl s = false ↔ s.trl.status &&& s.trl.irqEn = 0#32 :=
  bne_eq_false_iff_eq

theorem irqAcc_eq_true_iff : irqAcc s = true ↔ s.acc.status &&& s.acc.irqEn ≠ 0#32 := bne_iff_ne

theorem irqAcc_eq_false_iff : irqAcc s = false ↔ s.acc.status &&& s.acc.irqEn = 0#32 :=
  bne_eq_false_iff_eq

end lines

/-- An enabled bit that is set shows among the enabled bits, whatever else is set. -/
theorem or_and_ne_zero {w : Nat} (x : BitVec w) {bit enables : BitVec w}
    (h : enables &&& bit ≠ 0#w) : (x ||| bit) &&& enables ≠ 0#w := by
  rw [BitVec.and_or_distrib_right, Ne, BitVec.or_eq_zero_iff, BitVec.and_comm bit]
  exact fun hzero => h hzero.2

/-- Clearing bits and masking with the enables come in either order. -/
theorem bitVec_and_right_comm {w : Nat} (x y z : BitVec w) : x &&& y &&& z = x &&& z &&& y := by
  rw [BitVec.and_assoc, BitVec.and_comm y, BitVec.and_assoc]

end Sys2Proof.Machine

namespace Sys2Proof.Proofs
open Sys2Proof.Machine

/-- Settles O6: the word names no unit, so the decoder finds none and the port only answers. -/
theorem badUnitOnlyResponds : Obligations.BadUnitOnlyResponds := by
  intro s c rest hissue htrl hacc
  have hdecode : decode c = .badUnit := decode_of_no_unit (unitField_ne_code htrl hacc)
  exact (step_issue hissue).trans (runCommand_badUnit hdecode _)

/-- Settles O54: a raise sets the enabled bit; a write to `STATUS` clears the enabled bits, by what O18
says it stores; a write to `IRQ_EN` (number 0x003) leaves no enable whose bit is set. -/
theorem interruptLinesFollowStatus : Obligations.InterruptLinesFollowStatus := by
  refine ⟨fun s c _ => ⟨fun h => irqTrl_eq_true_iff.2 (or_and_ne_zero _ h),
    fun h => irqAcc_eq_true_iff.2 (or_and_ne_zero _ h)⟩, fun s d => ?_⟩
  obtain ⟨htrlStatus, haccStatus, -⟩ := statusIsWriteOneToClear s d
  have htrlEnable := trlCsrw_row binary32Format s (r := ⟨0x003, .irqEn, .rw⟩) (by decide) d
  have haccEnable := accCsrw_row binary32Format s (r := ⟨0x003, .irqEn, .rw⟩) (by decide) d
  refine ⟨fun h => ⟨_, htrlStatus, irqTrl_eq_false_iff.2 ?_⟩,
    fun h => ⟨_, haccStatus, irqAcc_eq_false_iff.2 ?_⟩,
    fun h => ⟨_, congrArg Host.Outcome.next htrlEnable, irqTrl_eq_false_iff.2 ?_⟩,
    fun h => ⟨_, congrArg Host.Outcome.next haccEnable, irqAcc_eq_false_iff.2 ?_⟩⟩
  · exact (bitVec_and_right_comm _ _ _).trans h
  · exact (bitVec_and_right_comm _ _ _).trans h
  · rwa [← low_word_eq_truncate, BitVec.and_assoc] at h
  · rwa [← low_word_eq_truncate, BitVec.and_assoc] at h

end Sys2Proof.Proofs
end

section
/-!
SUPPORT. The reset state (70_reset_and_hazards.md rule R290), the steps that run no command (rule R291,
60_exceptions.md rule R275), and the progress of `TRL.PROCESS` (70_reset_and_hazards.md rule R305): an
unsaturated forecast leaves room for the first guard, and a first step that commits shows in `PROD_SYM`.
-/

namespace Sys2Proof.Machine

/-! ### Reset, and the steps without a command -/

section reset
variable {F S D : Type} {s : State.Of F S D}

/-- With unit TRL in its reset state its interrupt line is 0: no `STATUS` bit is set. -/
theorem irqTrl_of_reset {zero : F} (h : s.trl = Trl.reset zero) : irqTrl s = false := by
  rw [irqTrl_eq_false_iff, h]
  exact BitVec.zero_and

/-- With unit ACC in its reset state its interrupt line is 0: no `STATUS` bit is set. -/
theorem irqAcc_of_reset (h : s.acc = Acc.reset) : irqAcc s = false := by
  rw [irqAcc_eq_false_iff, h]
  exact BitVec.zero_and

@[simp] theorem powerOnReset_trl (N : Format F S D) :
    (powerOnReset N s).trl = Trl.reset N.num.zero := rfl

@[simp] theorem powerOnReset_acc (N : Format F S D) : (powerOnReset N s).acc = Acc.reset := rfl

@[simp] theorem powerOnReset_bufs (N : Format F S D) : (powerOnReset N s).bufs = s.bufs := rfl

end reset

/-- `TRL.RESET` puts unit TRL into its reset state, whose `LAST_CODE` is already `OK`, and answers. -/
theorem exec_trlReset (s : State) :
    exec .trlReset s = .next ((s.setTrl (Trl.reset f32Zero)).respond .ok 0#64) := rfl

/-- `ACC.RESET` puts unit ACC into its reset state, whose `LAST_CODE` is already `OK`, and answers. -/
theorem exec_accReset (s : State) :
    exec .accReset s = .next ((s.setAcc Acc.reset).respond .ok 0#64) := rfl

/-- A step with no host action listed waits (70_reset_and_hazards.md R291). -/
theorem step_wait {s : State} (h : s.inputs = []) : step s = .next s := by
  simp only [step, stepOf, takeInput, h]

/-- A step whose next action is a power-on reset resets the machine. -/
theorem step_powerOn {s : State} {rest : List HostInput} (h : s.inputs = .powerOn :: rest) :
    step s = .next (powerOnReset binary32Format { s with inputs := rest }) := by
  simp only [step, stepOf, takeInput, h, runInputOf]

/-! ### Progress of `TRL.PROCESS` -/

section progress
variable {F S D : Type} {N : Format F S D} {P : Params F} {s t : State.Of F S D}

/-- The loop of `TRL.PROCESS` takes no symbol back. -/
theorem processLoop_kSym_le {limit fuel : Nat} {k k' : TrlCall} {c : Code}
    (hl : limit ≤ s.trl.inCount.toNat) (h : processLoop N P limit fuel k s = .ok (k', t, c)) :
    k.kSym ≤ k'.kSym :=
  processLoop_keeps (I := fun k₁ _ => k.kSym ≤ k₁.kSym) (fun _ _ hle => hle)
    (fun _ _ _ _ _ hg hl' hcommit hle => by
      rw [(commitStep_ok hg hl' hcommit).1, TrlCall.next_kSym]
      exact hle.trans (Nat.le_succ _)) hl h le_rfl

/-- `TRL.PROCESS` of a `READY` unit whose first guard holds and whose first symbol step does not fault
reports at least one symbol (41_timing_recovery.md R130 to R133). -/
theorem trlProcess_produces (hm : s.trl.mode = .ready)
    (hg : s.trl.guard P.ntaps (s.trl.inputLimit N.num P.ntaps) s.trl.callStart = true)
    (hv : s.trl.symbolStep N.num P (s.windowOf N s.trl.callStart.cursor P.ntaps) ≠ none) :
    ∃ t, trlProcess N P s = .next t ∧ 1 ≤ t.trl.prodSym.toNat := by
  have hl := s.trl.inputLimit_le N.num P.ntaps
  obtain ⟨k, s', c, hloop, hprocess⟩ := trlProcess_ends (N := N) (P := P) hm
  obtain ⟨hfits, -⟩ := processLoop_writes hl hloop
  obtain ⟨-, hsym, -⟩ := finishProcess_reports (N := N) (s.trl.inputLimit N.num P.ntaps) c hfits
  refine ⟨_, hprocess, ?_⟩
  rw [hsym]
  obtain ⟨fuel, hfuel⟩ := Nat.exists_eq_succ_of_ne_zero (Nat.ne_zero_of_lt (Trl.guard_iff.1 hg).1)
  rw [hfuel] at hloop
  rcases processLoop_succ_cases hl hloop with ⟨hstop, -⟩ | ⟨-, hfault, -⟩
    | ⟨v, k₁, s₁, -, -, hcommit, hin, hrest⟩
  · exact absurd (hg.symm.trans hstop) (by decide)
  · exact absurd hfault hv
  · have hone : k₁.kSym = 1 := by rw [(commitStep_ok hg hl hcommit).1, TrlCall.next_kSym]; rfl
    exact hone.ge.trans (processLoop_kSym_le (hin ▸ hl) hrest)

end progress

/-- The forecast sum of R125, exact and not saturated, for the room that `CAP_SYM` leaves. -/
def Trl.forecastSum (ntaps : Nat) (t : Trl F32) : Int :=
  ⌈(t.capSym.toNat : ℚ) * f32Value t.omega⌉ + (ntaps : Int) + (t.skip.toNat : Int)

/-- Where the input covers the forecast sum, which is then not saturated, the input limit of a call is
that sum (70_reset_and_hazards.md R305, its proof). -/
theorem Trl.inputLimit_eq_forecastSum {t : Trl F32} {ntaps : Nat} (hrate : 0 ≤ f32Value t.omega)
    (hin : t.forecastSum ntaps ≤ t.inCount.toNat) :
    (t.inputLimit binary32 ntaps : Int) = t.forecastSum ntaps := by
  have hceil : 0 ≤ ⌈(t.capSym.toNat : ℚ) * f32Value t.omega⌉ := Int.ceil_nonneg (by positivity)
  have hword := t.inCount.isLt
  rw [Trl.inputLimit, Trl.forecast_eq hrate]
  unfold Trl.forecastSum at hin ⊢
  omega

/-- The forecast of at least one symbol at a rate above 0 goes past the taps by a sample: the rounded-up
product is at least 1 (70_reset_and_hazards.md R305, its proof). -/
theorem Trl.one_le_forecast_ceil {t : Trl F32} (hrate : 0 < f32Value t.omega)
    (hroom : 1 ≤ t.capSym.toNat) : 1 ≤ ⌈(t.capSym.toNat : ℚ) * f32Value t.omega⌉ :=
  Int.one_le_ceil_iff.2 (mul_pos (Nat.cast_pos.2 hroom) hrate)

end Sys2Proof.Machine

namespace Sys2Proof.Proofs
open Sys2Proof.Machine

/-- Settles O35: the input limit is the forecast sum, so each test of the first guard is one of the
conditions; the first step that commits is counted. -/
theorem trlProcessMakesProgress : Obligations.TrlProcessMakesProgress := by
  intro P s hm hinv hroom hin hpass homega hmu
  obtain ⟨-, -, -, -, -, -, hrate, -⟩ := hinv hm
  have hceil := Trl.one_le_forecast_ceil hrate hroom
  have hlimit := Trl.inputLimit_eq_forecastSum hrate.le hin
  unfold Trl.forecastSum at hlimit
  have hguard : s.trl.guard P.ntaps (s.trl.inputLimit binary32 P.ntaps) s.trl.callStart = true := by
    refine Trl.guard_iff.2 ⟨hroom, ?_, fun hen => ?_, homega, hmu⟩
    · show s.trl.skip.toNat + P.ntaps < s.trl.inputLimit binary32 P.ntaps
      omega
    · obtain ⟨hcap, hcover⟩ := hpass hen
      refine ⟨(Nat.zero_add _).trans_le hcap, ?_⟩
      show s.trl.skip.toNat + s.trl.passCount.toNat ≤ s.trl.inputLimit binary32 P.ntaps
      omega
  exact ⟨hguard, trlProcess_produces (N := binary32Format) hm hguard⟩

/-- Settles O8: the step takes the listed action, and waits where there is none. -/
theorem waitsOrResetsAsTheHostActs : Obligations.WaitsOrResetsAsTheHostActs :=
  fun _ => ⟨step_wait, fun _ => step_powerOn⟩

/-- Settles O11: the table's values are those of the two units' reset states, which every reset puts in;
the interrupt lines follow from the cleared `STATUS`. -/
theorem resetGivesTheResetValues : Obligations.ResetGivesTheResetValues :=
  ⟨rfl, rfl, irqTrl_of_reset rfl, irqAcc_of_reset rfl,
    fun _ => ⟨powerOnReset_trl _, powerOnReset_acc _, powerOnReset_bufs _,
      irqTrl_of_reset (powerOnReset_trl _), irqAcc_of_reset (powerOnReset_acc _)⟩,
    exec_trlReset, exec_accReset⟩

end Sys2Proof.Proofs
end
